-- ==== Sys2Proof/Word.lean ====
section
/-! DEFINITION. The word types of FDRD: a byte of the frame buffer, the 16-bit CRC, the 32-bit host bus word
(spec/00_scope.md R8, R10). -/

namespace Sys2Proof

/-- One byte of the frame (R11). -/
abbrev Byte := BitVec 8

/-- The 16-bit CRC value (R140), also the host byte offset (R70). -/
abbrev Half := BitVec 16

/-- One 32-bit word of the host data bus (R8 `BUS_W`, R21). -/
abbrev Word := BitVec 32

end Sys2Proof
end

