-- ==== Sys2Proof/Syntax.lean ====
section
/-! DEFINITION. One constructor per row of spec/opcode_table.json. The table has three groups, matched on three
different fields (spec/30_encoding.md R135): the host commands on `CTRL.CMD`, the codec dispatch on `FB[8]`, the element
kinds on `ELEM.KIND`. -/

namespace Sys2Proof

/-- The rows of the opcode table. A command carries bits [31:4] of the word written to `CTRL`, which take no part in
decoding (R130); a row that covers several codes carries the bits its mask leaves open. -/
inductive Instr where
  /-- `CMD_NOP`, `CTRL.CMD = 0x0` (R240). -/
  | cmdNop (ignored : BitVec 28)
  /-- `CMD_DECODE`, `CTRL.CMD = 0x1` (R210, R241). -/
  | cmdDecode (ignored : BitVec 28)
  /-- `CMD_CRC`, `CTRL.CMD = 0x2` (R147, R241). -/
  | cmdCrc (ignored : BitVec 28)
  /-- `CMD_CLEAR`, `CTRL.CMD = 0x3` (R243). -/
  | cmdClear (ignored : BitVec 28)
  /-- `CMD_RESERVED_4_7`: `CTRL.CMD = 0x4 + low` (R244). -/
  | cmdReserved47 (low : BitVec 2) (ignored : BitVec 28)
  /-- `CMD_RESERVED_8_F`: `CTRL.CMD = 0x8 + low` (R244). -/
  | cmdReserved8F (low : BitVec 3) (ignored : BitVec 28)
  /-- `CODEC8`: `FB[8] = 0x08` (R161). -/
  | codec8
  /-- `CODEC8E`: `FB[8] = 0x8E` (R181). -/
  | codec8E
  /-- `CODEC_UNRECOGNIZED`: any other codec byte (R215). -/
  | codecUnrecognized (codec : Byte)
  /-- `IO_1B`: the group of 1-byte values, KIND 0 (R183). -/
  | io1B
  /-- `IO_2B`: the group of 2-byte values, KIND 1 (R183). -/
  | io2B
  /-- `IO_4B`: the group of 4-byte values, KIND 2 (R183). -/
  | io4B
  /-- `IO_8B`: the group of 8-byte values, KIND 3 (R183). -/
  | io8B
  /-- `IO_NX`: the group of values with an explicit length, KIND 4 (R184). -/
  | ioNX
  /-- `RESERVED_KIND_5`: KIND 5, never produced (R123). -/
  | reservedKind5
  /-- `RESERVED_KIND_6_7`: KIND 6 + low, never produced (R123). -/
  | reservedKind67 (low : BitVec 1)
  deriving DecidableEq, Repr

end Sys2Proof
end

