-- ==== Sys2Proof/WellFormed.lean ====
section
/-! DEFINITION. Which terms of `Instr` stand for a row of the opcode table. Every operand is as wide as the bits its row
leaves open, so only the default codec row needs a check (spec/30_encoding.md R106, R135). -/

namespace Sys2Proof

/-- The codec byte `0x08` of Codec 8 (R106). -/
abbrev codec8Byte : Byte := 0x08

/-- The codec byte `0x8E` of Codec 8 Extended (R106). -/
abbrev codec8EByte : Byte := 0x8E

/-- An instruction is well formed when its row is the one its codes select: the default codec row matches only when
neither codec row does (R135). -/
def Instr.wellFormed : Instr → Bool
  | .cmdNop _ => true
  | .cmdDecode _ => true
  | .cmdCrc _ => true
  | .cmdClear _ => true
  | .cmdReserved47 _ _ => true
  | .cmdReserved8F _ _ => true
  | .codec8 => true
  | .codec8E => true
  | .codecUnrecognized b => b != codec8Byte && b != codec8EByte
  | .io1B => true
  | .io2B => true
  | .io4B => true
  | .io8B => true
  | .ioNX => true
  | .reservedKind5 => true
  | .reservedKind67 _ => true

end Sys2Proof
end

