-- ==== Sys2Proof/Decode.lean ====
section
/-! DEFINITION. The decoder and, after it, the encoder. FDRD fetches no instructions (spec/20_memory.md R71): a code is
read from one of three fields (spec/30_encoding.md R135), so the decoder takes the field with its value. -/

namespace Sys2Proof

/-- The three fields the opcode table is matched on (R135). -/
inductive Space where
  /-- `CTRL.CMD`: bits [3:0] of a word written at offset 0x04 (R130). -/
  | command
  /-- The codec ID byte `FB[8]` (R106). -/
  | codec
  /-- `ELEM.KIND`: bits [18:16] of word 0 of an element table entry (R122, R123). -/
  | kind
  deriving DecidableEq, Repr

/-- A value of one of the three fields. -/
inductive Encoded where
  /-- The whole word written to `CTRL`. -/
  | command (w : Word)
  /-- The codec byte. -/
  | codec (b : Byte)
  /-- The element kind. -/
  | kind (k : BitVec 3)
  deriving DecidableEq, Repr

/-- Why bytes hold no code of a field. -/
inductive DecodeError where
  /-- The number of bytes is not the size of the field's word: 4 for `CTRL` and `ELEM` word 0, 1 for `FB[8]`. -/
  | wrongLength (space : Space) (found : Nat)
  deriving DecidableEq, Repr

/-- The command a word written to `CTRL` selects (R130): bits [31:4] take no part. -/
def decodeCommand (w : Word) : Instr :=
  let ignored := w.extractLsb' 4 28
  if w.getLsbD 3 then .cmdReserved8F (w.extractLsb' 0 3) ignored
  else if w.getLsbD 2 then .cmdReserved47 (w.extractLsb' 0 2) ignored
  else if w.getLsbD 1 then (if w.getLsbD 0 then .cmdClear ignored else .cmdCrc ignored)
  else (if w.getLsbD 0 then .cmdDecode ignored else .cmdNop ignored)

/-- The codec row a codec ID byte selects (R106). -/
def decodeCodec (b : Byte) : Instr :=
  if b = codec8Byte then .codec8
  else if b = codec8EByte then .codec8E
  else .codecUnrecognized b

/-- The element kind a KIND value stands for (R123). -/
def decodeKind (k : BitVec 3) : Instr :=
  if k = 0 then .io1B
  else if k = 1 then .io2B
  else if k = 2 then .io4B
  else if k = 3 then .io8B
  else if k = 4 then .ioNX
  else if k = 5 then .reservedKind5
  else .reservedKind67 (k.extractLsb' 0 1)

/-- The instruction a field value selects: every value of every field selects one (R135). -/
def decode : Encoded → Instr
  | .command w => decodeCommand w
  | .codec b => decodeCodec b
  | .kind k => decodeKind k

/-- Four bytes as the bus lanes carry them, the byte at the lowest offset in bits [7:0] (R75). -/
def wordOfLanes (b0 b1 b2 b3 : Byte) : Word := b3 ++ b2 ++ b1 ++ b0

/-- Decoding of the bytes that hold a field: the four bytes of a `CTRL` write, the byte `FB[8]`, the four bytes of word
0 of an element table entry. -/
def decodeBytes (space : Space) (bytes : List Byte) : Except DecodeError Instr :=
  match space, bytes with
  | .command, [b0, b1, b2, b3] => .ok (decodeCommand (wordOfLanes b0 b1 b2 b3))
  | .codec, [b] => .ok (decodeCodec b)
  | .kind, [b0, b1, b2, b3] => .ok (decodeKind ((wordOfLanes b0 b1 b2 b3).extractLsb' 16 3))
  | sp, bs => .error (.wrongLength sp bs.length)

/-- The field value of an instruction, from the tables of R106, R123 and R130. -/
def encode : Instr → Encoded
  | .cmdNop ignored => .command (ignored ++ 0x0#4)
  | .cmdDecode ignored => .command (ignored ++ 0x1#4)
  | .cmdCrc ignored => .command (ignored ++ 0x2#4)
  | .cmdClear ignored => .command (ignored ++ 0x3#4)
  | .cmdReserved47 low ignored => .command (ignored ++ (0b01#2 ++ low))
  | .cmdReserved8F low ignored => .command (ignored ++ (0b1#1 ++ low))
  | .codec8 => .codec codec8Byte
  | .codec8E => .codec codec8EByte
  | .codecUnrecognized b => .codec b
  | .io1B => .kind 0
  | .io2B => .kind 1
  | .io4B => .kind 2
  | .io8B => .kind 3
  | .ioNX => .kind 4
  | .reservedKind5 => .kind 5
  | .reservedKind67 low => .kind (0b11#2 ++ low)

/-- Which field a bare table word is read as (log entry 5: the three groups' words collide). A word with a bit above
bit 3 and no more than a byte can only be a codec row's; the row that fixes no bit is the default codec row; every
other word is a command. -/
def tableSpace (nbits w : Nat) : Option Space :=
  if nbits = 0 then (if w = 0 then some .codec else none)
  else if nbits ≤ 8 then
    (if w < 16 then some .command else if w < 256 then some .codec else none)
  else if nbits ≤ 32 ∧ w < 2 ^ 32 then some .command
  else none

/-- The bytes that hold a bare table word in its field, the least significant first (R75). -/
def tableBytes (space : Space) (w : Nat) : List Byte :=
  match space with
  | .codec => [BitVec.ofNat 8 w]
  | _ => [BitVec.ofNat 8 w, BitVec.ofNat 8 (w / 256), BitVec.ofNat 8 (w / 65536), BitVec.ofNat 8 (w / 16777216)]

/-- The instruction the decoder reads from a bare table word of `nbits` bits (log entry 5). -/
def decodeTableWord (nbits w : Nat) : Option Instr :=
  match tableSpace nbits w with
  | none => none
  | some sp => (decodeBytes sp (tableBytes sp w)).toOption

/-- One row of the opcode table as data: its field, its mask and its match value (R135). -/
structure OpcodeRow where
  space : Space
  mask : Nat
  pattern : Nat
  deriving DecidableEq, Repr

/-- The row of spec/opcode_table.json an instruction stands for. -/
def rowOf : Instr → OpcodeRow
  | .cmdNop _ => ⟨.command, 0xF, 0x0⟩
  | .cmdDecode _ => ⟨.command, 0xF, 0x1⟩
  | .cmdCrc _ => ⟨.command, 0xF, 0x2⟩
  | .cmdClear _ => ⟨.command, 0xF, 0x3⟩
  | .cmdReserved47 _ _ => ⟨.command, 0xC, 0x4⟩
  | .cmdReserved8F _ _ => ⟨.command, 0x8, 0x8⟩
  | .codec8 => ⟨.codec, 0xFF, 0x08⟩
  | .codec8E => ⟨.codec, 0xFF, 0x8E⟩
  | .codecUnrecognized _ => ⟨.codec, 0x00, 0x00⟩
  | .io1B => ⟨.kind, 0x7, 0x0⟩
  | .io2B => ⟨.kind, 0x7, 0x1⟩
  | .io4B => ⟨.kind, 0x7, 0x2⟩
  | .io8B => ⟨.kind, 0x7, 0x3⟩
  | .ioNX => ⟨.kind, 0x7, 0x4⟩
  | .reservedKind5 => ⟨.kind, 0x7, 0x5⟩
  | .reservedKind67 _ => ⟨.kind, 0x6, 0x6⟩

/-- The rows of the opcode table but for the default codec row, which matches when no other codec row does (R135). -/
def fixedRows : List OpcodeRow :=
  [⟨.command, 0xF, 0x0⟩, ⟨.command, 0xF, 0x1⟩, ⟨.command, 0xF, 0x2⟩, ⟨.command, 0xF, 0x3⟩, ⟨.command, 0xC, 0x4⟩,
   ⟨.command, 0x8, 0x8⟩, ⟨.codec, 0xFF, 0x08⟩, ⟨.codec, 0xFF, 0x8E⟩, ⟨.kind, 0x7, 0x0⟩, ⟨.kind, 0x7, 0x1⟩,
   ⟨.kind, 0x7, 0x2⟩, ⟨.kind, 0x7, 0x3⟩, ⟨.kind, 0x7, 0x4⟩, ⟨.kind, 0x7, 0x5⟩, ⟨.kind, 0x6, 0x6⟩]

/-- A field value matches a row: it is of the row's field and agrees with the match value under the mask (R135). -/
def rowMatches (r : OpcodeRow) : Encoded → Bool
  | .command w => decide (r.space = .command ∧ w.toNat &&& r.mask = r.pattern)
  | .codec b => decide (r.space = .codec ∧ b.toNat &&& r.mask = r.pattern)
  | .kind k => decide (r.space = .kind ∧ k.toNat &&& r.mask = r.pattern)

end Sys2Proof
end

