-- ==== Sys2Proof/Config.lean ====
section
/-! DEFINITION. The implementation parameters of spec/00_scope.md R8 and the values the spec leaves unspecified
(spec/93_implementation_defined.md U1, U2). `C8_STRIDE` is a parameter that a run must be able to use, so its value
stands in `State` (log entry 3) and only its default stands here. -/

namespace Sys2Proof.Config

/-- `FRAME_MAX` (R8): bytes of the frame buffer. -/
abbrev frameMax : Nat := 2048

/-- `HDR_LEN` (R8): bytes before the body. -/
abbrev hdrLen : Nat := 10

/-- `TRL_LEN` (R8): bytes after the body. -/
abbrev trlLen : Nat := 5

/-- `MIN_FRAME` (R8): the smallest frame with an empty body. -/
abbrev minFrame : Nat := 15

/-- The default of the OPEN parameter `C8_STRIDE` (R9). -/
abbrev c8StrideDefault : Nat := 26

/-- The smallest legal `C8_STRIDE` (R8). -/
abbrev c8StrideMin : Nat := 24

/-- `REC_MAX` (R8): record table entries. -/
abbrev recMax : Nat := 255

/-- `ELEM_MAX` (R8): element table entries. -/
abbrev elemMax : Nat := 1024

/-- The element bound of R198: `floor(2033 / 3)`. -/
abbrev elemBound : Nat := 677

/-- Size of the host-visible window (R70): 64 KiB. -/
abbrev windowSize : Nat := 65536

/-- FREE VALUE (R302, U1; log entry 2): what byte `k` of the frame buffer holds after power-on number `epoch`, as long
as no host write has reached it. It has no body: nothing can be proved of its value. -/
opaque powerOnByte : (epoch k : Nat) → Byte

/-- FREE VALUE (R302, U2; log entry 6): word `w` of a record table entry `i` that no DECODE has committed. No run reads
it: R49 gates such an entry to 0. -/
opaque storedRecWord : (i w : Nat) → Word

/-- FREE VALUE (R302, U2; log entry 6): word `w` of an element table entry `j` that no DECODE has committed. No run
reads it: R50 gates such an entry to 0. -/
opaque storedElemWord : (j w : Nat) → Word

end Sys2Proof.Config
end

