-- ==== Sys2Proof/Machine/State.lean ====
section
/-! DEFINITION. FDRD's state as plain data (spec/10_state.md R20): the register block, the frame buffer, the two result
tables, the hidden engine state; and, the model's own, the events still to come and the bus's last answer
(log entry 1). -/

namespace Sys2Proof.Machine

/-- `phase` (R51), visible as `STATUS.BUSY`. -/
inductive Phase where
  | idle
  | busy
  deriving DecidableEq, Repr

/-- `STATUS.LASTOP` (R31), which is also `op` of R51 while busy. The value 3 is never produced, so it has no
constructor. -/
inductive LastOp where
  | none
  | decode
  | crc
  deriving DecidableEq, Repr

/-- `STATUS.RESULT` (R30, R260). The codes 0x7-0xF are never produced, so they have no constructor. -/
inductive ResultCode where
  | none
  | ok
  | errFrameLen
  | errShortFrame
  | errCodec
  | errCrc
  | errMalformed
  deriving DecidableEq, Repr

/-- `HDR` (R37): its fields; bits [30:24] read 0. -/
structure Hdr where
  codec : Byte
  n1 : Byte
  n2 : Byte
  valid : Bool
  deriving DecidableEq, Repr

/-- `BODY` (R45): its two 12-bit fields; the other bits read 0. -/
structure Body where
  start : BitVec 12
  stop : BitVec 12
  deriving DecidableEq, Repr

/-- `ANOMALY` (R43): its eight flags; bits [31:8] read 0. -/
structure Anomaly where
  cnt1Mismatch : Bool
  cnt2Mismatch : Bool
  cnt12Mismatch : Bool
  truncated : Bool
  dflGtBody : Bool
  preambleNz : Bool
  bodySlack : Bool
  crcHiNz : Bool
  deriving DecidableEq, Repr

/-- The result registers (R21: offsets 0x14-0x3C), each with the width of the field it holds; every bit outside the
fields reads 0. -/
structure Results where
  /-- `PREAMBLE` (R35). -/
  preamble : Word
  /-- `DFL` (R36). -/
  dfl : Word
  /-- `HDR` (R37). -/
  hdr : Hdr
  /-- `CRC_CALC[15:0]` (R38). -/
  crcCalc : Half
  /-- `CRC_RECV` (R39). -/
  crcRecv : Word
  /-- `ACK` (R40). -/
  ack : Word
  /-- `REC_COUNT[8:0]` (R41). -/
  recCount : BitVec 9
  /-- `ELEM_COUNT[10:0]` (R42). -/
  elemCount : BitVec 11
  /-- `ANOMALY[7:0]` (R43). -/
  anomaly : Anomaly
  /-- `ERR_POS[11:0]` (R44). -/
  errPos : BitVec 12
  /-- `BODY` (R45). -/
  body : Body
  deriving DecidableEq, Repr

/-- Every anomaly flag 0. -/
def noAnomaly : Anomaly := ⟨false, false, false, false, false, false, false, false⟩

/-- Every result register 0 (R46, R58, R241, R243). -/
def zeroResults : Results where
  preamble := 0
  dfl := 0
  hdr := ⟨0, 0, 0, false⟩
  crcCalc := 0
  crcRecv := 0
  ack := 0
  recCount := 0
  elemCount := 0
  anomaly := noAnomaly
  errPos := 0
  body := ⟨0, 0⟩

/-- One record table entry (R120), field by field; the reserved bits read 0. -/
structure RecEntry where
  timestamp : BitVec 64
  lon : Word
  lat : Word
  alt : Half
  angle : Half
  prio : Byte
  sats : Byte
  speed : Half
  eventIo : Half
  totalIo : Half
  cnt1B : Half
  cnt2B : Half
  cnt4B : Half
  cnt8B : Half
  cntNX : Half
  elemFirst : Half
  recOff : BitVec 12
  recLen : BitVec 12
  codec : Byte
  deriving DecidableEq, Repr

/-- One element table entry (R122), field by field; the reserved bits read 0. `recIdx` is the field REC. -/
structure ElemEntry where
  ioId : Half
  kind : BitVec 3
  recIdx : Byte
  vlen : Half
  voff : BitVec 12
  val : BitVec 64
  deriving DecidableEq, Repr

/-- The frame buffer (R48). `cells` lists the bytes that host writes have stored, by frame offset, in strictly rising
order; an unlisted byte holds what power-on number `epoch` left there (R302, `Config.powerOnByte`). -/
structure Memory where
  cells : List Host.Cell
  epoch : Nat
  deriving DecidableEq, Repr

/-- The temporaries of a Codec 8E completion step (R52, R53): the cursor, the end of the body, the offset and the entry
of the record being decoded, and the records and elements decoded so far (the record index `r` is the number of
records, the element index `e` the number of elements). -/
structure Walk where
  cur : Nat
  bodyEnd : Nat
  base : Nat
  entry : RecEntry
  recs : List RecEntry
  elems : List ElemEntry
  deriving DecidableEq, Repr

/-- Access width (R75: `n` in 1, 2, 4). -/
inductive Width where
  | w8
  | w16
  | w32
  deriving DecidableEq, Repr

/-- What may happen next at FDRD's boundary (R18, R86, R300): one host access, the engine's completion step, or a
reset. -/
inductive Event where
  /-- `MemRead(off, n)` (R75). -/
  | read (off : BitVec 16) (n : Width)
  /-- `MemWrite(off, n, v)` (R75). -/
  | write (off : BitVec 16) (n : Width) (v : Word)
  /-- The engine's completion step, where the schedule puts it (R320). -/
  | complete
  /-- Reset through the reset input (R300; log entry 11): the frame buffer keeps its contents (R302). -/
  | reset
  /-- Power-on (R300, R302): the frame buffer's contents become unspecified. -/
  | powerOn
  deriving DecidableEq, Repr

/-- The model's own: how the bus answered the last host access. -/
inductive Response where
  /-- No access since reset. -/
  | idle
  /-- An admitted read returned this word (R75, zero-extended). -/
  | data (v : Word)
  /-- An admitted write was taken. -/
  | written
  deriving DecidableEq, Repr

/-- The whole state. -/
structure State where
  /-- `phase` (R51), visible as `STATUS.BUSY` (R25). -/
  phase : Phase
  /-- `STATUS.DONE` (R26). -/
  done : Bool
  /-- `STATUS.BADCMD` (R28). -/
  badCmd : Bool
  /-- `STATUS.WERR` (R29). -/
  wErr : Bool
  /-- `STATUS.RESULT` (R30). -/
  result : ResultCode
  /-- `STATUS.LASTOP` (R31) and, while busy, `op` (R51). -/
  lastOp : LastOp
  /-- `IRQ_EN.IE_DONE` (R33). -/
  ieDone : Bool
  /-- `IRQ_EN.IE_ERR` (R33). -/
  ieErr : Bool
  /-- `FRAME_LEN.L` (R34). -/
  frameLen : BitVec 12
  /-- The result registers (R35-R45). -/
  results : Results
  /-- The frame buffer `FB` (R48). -/
  fb : Memory
  /-- The record table `REC` (R49): entry `i` is the `i`-th of the list; an entry past its end is unspecified (U2). -/
  recTable : List RecEntry
  /-- The element table `ELEM` (R50), in the same form. -/
  elemTable : List ElemEntry
  /-- The temporaries of a completion step in progress (R52, R53): none between events (DEDUCED, log entry 14). -/
  walk : Option Walk
  /-- The OPEN parameter `C8_STRIDE` (R9), fixed for the machine: no step changes it (DESIGN CHOICE, log entry 3). -/
  c8Stride : Nat
  /-- The model's own: the events still to come, in the one order of R86 (DESIGN CHOICE, log entry 1). -/
  pending : List Event
  /-- The model's own: the bus's last answer (DESIGN CHOICE, log entry 13). -/
  response : Response
  deriving DecidableEq, Repr

/-- Why a step stops with a fault. -/
inductive Fault where
  /-- `BusError(a)` (R77): raised by a host access of a width or alignment its region does not admit (R76), and by
  nothing else. The spec says that the model treats it as a fault (log entry 9). Safe: no state of the stopped access is
  claimed. -/
  | busError (off : BitVec 16)
  deriving DecidableEq, Repr

/-- Why an instruction has no next state. -/
inductive Refusal where
  /-- Raised by an arm of `exec` whose instruction has no meaning yet; no arm raises it. Safe. -/
  | notModelled (mnemonic : String)
  /-- Raised by the reserved element kinds 5, 6 and 7, which FDRD never produces and which the spec gives no effect
  (R123, U6; DESIGN CHOICE, log entry 8). Safe: no claim follows from a kind that never occurs. -/
  | reservedKind (kind : BitVec 3)
  deriving DecidableEq, Repr

/-- The state right after power-on (R58, R300-R302), with nothing placed: no event is pending and no byte of the frame
buffer has been written. -/
def State.reset : State where
  phase := .idle
  done := false
  badCmd := false
  wErr := false
  result := .none
  lastOp := .none
  ieDone := false
  ieErr := false
  frameLen := 0
  results := zeroResults
  fb := ⟨[], 0⟩
  recTable := []
  elemTable := []
  walk := none
  c8Stride := Config.c8StrideDefault
  pending := []
  response := .idle

end Sys2Proof.Machine
end

