-- ==== Sys2Proof/Machine/Ops.lean ====
section
/-! DEFINITION. The shared operations: the frame buffer's bytes, what a command does to the registers, and the end of an
operation (spec/44_frame_demux.md R226, R227), which is also error entry (spec/60_exceptions.md R264). -/

namespace Sys2Proof.Machine

/-! ## The frame buffer (R48, R72, R75) -/

/-- The stored byte of a cell list at an address, if one is listed. -/
def cellAt : List Host.Cell → Nat → Option Byte
  | [], _ => none
  | (j, b) :: rest, k => if j = k then some b else cellAt rest k

/-- A cell list with one byte stored, its addresses still in rising order. -/
def putCell (k : Nat) (b : Byte) : List Host.Cell → List Host.Cell
  | [] => [(k, b)]
  | (j, c) :: rest =>
    if k < j then (k, b) :: (j, c) :: rest
    else if k = j then (k, b) :: rest
    else (j, c) :: putCell k b rest

/-- Addresses strictly rising, all at least `lo` and below the buffer's size. -/
def cellsFrom : Nat → List Host.Cell → Bool
  | _, [] => true
  | lo, (j, _) :: rest => decide (lo ≤ j) && decide (j < Config.frameMax) && cellsFrom (j + 1) rest

/-- The canonical form of the frame buffer: addresses strictly rising and below `FRAME_MAX`. A listed byte is a stored
one, so no listed byte is one that an unlisted address reads as (log entry 2). -/
def Memory.wf (m : Memory) : Bool := cellsFrom 0 m.cells

/-- `FB[k]` (R11): the stored byte, or the free value that power-on left there (R302). -/
def Memory.byte (m : Memory) (k : Nat) : Byte :=
  match cellAt m.cells k with
  | some b => b
  | none => Config.powerOnByte m.epoch k

/-- `FB[k] <- b`. -/
def Memory.write (m : Memory) (k : Nat) (b : Byte) : Memory := { m with cells := putCell k b m.cells }

/-- `FB[k], FB[k+1], ... <- bs`. -/
def Memory.writeList (m : Memory) (k : Nat) : List Byte → Memory
  | [] => m
  | b :: bs => (m.write k b).writeList (k + 1) bs

/-- `FB[a..b)` (R11). -/
def Memory.range (m : Memory) (a b : Nat) : List Byte := (List.range' a (b - a)).map m.byte

/-- The frame buffer after another power-on: nothing stored, every byte unspecified anew (R302). -/
def Memory.powerOn (m : Memory) : Memory := ⟨[], m.epoch + 1⟩

/-- Bytes of an access (R75). -/
def Width.bytes : Width → Nat
  | .w8 => 1
  | .w16 => 2
  | .w32 => 4

/-- The bytes of a written word by lane: byte `i` is `v[8*i+7 : 8*i]` (R75). -/
def laneBytes (n : Width) (v : Word) : List Byte := (List.range n.bytes).map fun i => v.extractLsb' (8 * i) 8

/-- The word a frame buffer read returns: byte `a + i` on bits `[8*i+7 : 8*i]`, zero-extended (R75). -/
def Memory.lanes (m : Memory) (k : Nat) : Width → Word
  | .w8 => (m.byte k).setWidth 32
  | .w16 => (m.byte (k + 1) ++ m.byte k).setWidth 32
  | .w32 => m.byte (k + 3) ++ m.byte (k + 2) ++ m.byte (k + 1) ++ m.byte k

/-! ## Commands and reset (R241-R244, R300) -/

/-- START (R241): the operation's name, `RESULT <- NONE`, `DONE <- 0`, every result register 0, BUSY. -/
def startOperation (op : LastOp) (s : State) : State :=
  { s with lastOp := op, result := .none, done := false, results := zeroResults, phase := .busy }

/-- A refused command (R242, R244): `BADCMD <- 1` and nothing else. -/
def refuseCommand (s : State) : State := { s with badCmd := true }

/-- CLEAR (R243): every `STATUS` field and result register 0, a running operation withdrawn; `IRQ_EN`, `FRAME_LEN` and
`FB` kept. -/
def clearOperation (s : State) : State :=
  { s with
    phase := .idle, done := false, badCmd := false, wErr := false, result := .none, lastOp := .none,
    results := zeroResults, walk := none }

/-- A reset that is not a power-on (R300, R302, R303): every register and the hidden state at the values of R58, the
frame buffer kept. The stored table entries are kept too; nothing can observe them (U2, log entry 6). -/
def resetRegisters (s : State) : State :=
  { s with
    phase := .idle, done := false, badCmd := false, wErr := false, result := .none, lastOp := .none,
    ieDone := false, ieErr := false, frameLen := 0, results := zeroResults, walk := none, response := .idle }

/-- Power-on (R300, R302): as a reset, and the frame buffer unspecified anew. -/
def powerOnReset (s : State) : State := { resetRegisters s with fb := s.fb.powerOn }

/-! ## The end of an operation (R226, R227) -/

/-- `complete()` (R227): IDLE, `BUSY <- 0`, `DONE <- 1`; the completion step's temporaries are gone (R52). -/
def completeOperation (s : State) : State := { s with phase := .idle, done := true, walk := none }

/-- What `finish(code)` does to the result registers (R226): on any code but OK, no records, no elements, no
acknowledgment, and the result flags of `ANOMALY` are 0. -/
def finishResults (code : ResultCode) (r : Results) : Results :=
  if code = .ok then r
  else
    { r with
      recCount := 0, elemCount := 0, ack := 0,
      anomaly := { r.anomaly with
        cnt1Mismatch := false, cnt2Mismatch := false, truncated := false, bodySlack := false } }

/-- `finish(code)` (R226). With an error code this is error entry (R264): it saves nothing and transfers no control.
There is no return from it (R266): the host acknowledges, starts or clears. -/
def finish (code : ResultCode) (s : State) : State :=
  completeOperation { s with result := code, results := finishResults code s.results }

/-- `fail(code, pos)` (R226); the one code that records a position is ERR_MALFORMED (R265). -/
def failMalformed (pos : Nat) (s : State) : State :=
  finish .errMalformed { s with results := { s.results with errPos := BitVec.ofNat 12 pos } }

/-- `raise BusError(a)` (R12, R77): the access ends with no state change. -/
def raiseBusError (off : BitVec 16) : Host.Outcome State Fault Refusal := .fault (.busError off)

end Sys2Proof.Machine
end

