-- ==== Sys2Proof/Machine/Operands.lean ====
section
/-! DEFINITION. Every operand form: big-endian wire fields (spec/00_scope.md R11, R13; spec/20_memory.md R82), the two
record layouts (spec/30_encoding.md R107, R109) and the words of the result tables (R120, R122). -/

namespace Sys2Proof.Machine

/-! ## Wire fields -/

/-- `be(off, n)` (R11): the unsigned big-endian integer of `FB[off..off+n)`; `be(off, 0) = 0`. -/
def be (m : Memory) (off : Nat) : Nat → Nat
  | 0 => 0
  | n + 1 => be m off n * 256 + (m.byte (off + n)).toNat

/-- `be(off, n)` as a `w`-bit field. -/
def beField (w : Nat) (m : Memory) (off n : Nat) : BitVec w := BitVec.ofNat w (be m off n)

/-- `s32(v)` (R11). -/
def s32 (v : Word) : Int := v.toInt

/-- The value in degrees of a stored LONGITUDE or LATITUDE (R165): the exact rational `s32(raw) / 10^7`. FDRD does not
divide; this is the consumer's reading. -/
def degrees (raw : Word) : Rat := mkRat (s32 raw) 10000000

/-- `take(n)` (R13): the value of the next `n` body bytes, where it began, and the walk with its cursor advanced; or, if
the read would pass the end of the body, the cursor at which it failed. -/
def take (m : Memory) (n : Nat) (w : Walk) : Except Nat (Nat × Nat × Walk) :=
  if w.bodyEnd < w.cur + n then .error w.cur
  else .ok (be m w.cur n, w.cur, { w with cur := w.cur + n })

/-- Run one piece of the record walk on the state. Where a `take` fails, the whole operation fails at once (R187); with
no walk in progress the engine takes no step (R249; DEDUCED, log entry 7). -/
def runWalk (piece : Memory → Walk → Except Nat Walk) (s : State) : State :=
  match s.walk with
  | none => s
  | some w =>
    match piece s.fb w with
    | .ok w' => { s with walk := some w' }
    | .error pos => failMalformed pos s

/-! ## Records -/

/-- An entry with every field 0. -/
def zeroRecord : RecEntry where
  timestamp := 0
  lon := 0
  lat := 0
  alt := 0
  angle := 0
  prio := 0
  sats := 0
  speed := 0
  eventIo := 0
  totalIo := 0
  cnt1B := 0
  cnt2B := 0
  cnt4B := 0
  cnt8B := 0
  cntNX := 0
  elemFirst := 0
  recOff := 0
  recLen := 0
  codec := 0

/-- `record8(b, r)` (R162), fields at the offsets of R107. The bytes from offset 24 to the stride are read by nothing
(R163). -/
def record8 (m : Memory) (stride b : Nat) : RecEntry :=
  { zeroRecord with
    timestamp := beField 64 m b 8
    prio := m.byte (b + 8)
    lon := beField 32 m (b + 9) 4
    lat := beField 32 m (b + 13) 4
    alt := beField 16 m (b + 17) 2
    angle := beField 16 m (b + 19) 2
    sats := m.byte (b + 21)
    speed := beField 16 m (b + 22) 2
    recOff := BitVec.ofNat 12 b
    recLen := BitVec.ofNat 12 stride
    codec := codec8Byte }

/-! ## Result table words -/

/-- Word `w` of a record table entry (R120). -/
def recWord (e : RecEntry) (w : Nat) : Word :=
  match w with
  | 0 => e.timestamp.extractLsb' 0 32
  | 1 => e.timestamp.extractLsb' 32 32
  | 2 => e.lon
  | 3 => e.lat
  | 4 => e.angle ++ e.alt
  | 5 => e.speed ++ e.sats ++ e.prio
  | 6 => e.totalIo ++ e.eventIo
  | 7 => e.cnt2B ++ e.cnt1B
  | 8 => e.cnt8B ++ e.cnt4B
  | 9 => e.elemFirst ++ e.cntNX
  | 10 => 0#4 ++ e.recLen ++ 0#4 ++ e.recOff
  | 11 => e.codec.setWidth 32
  | _ => 0

/-- Word `w` of an element table entry (R122). -/
def elemWord (e : ElemEntry) (w : Nat) : Word :=
  match w with
  | 0 => e.recIdx ++ 0#5 ++ e.kind ++ e.ioId
  | 1 => 0#4 ++ e.voff ++ e.vlen
  | 2 => e.val.extractLsb' 0 32
  | 3 => e.val.extractLsb' 32 32
  | _ => 0

/-- The whole value of an element (R124): `be(VOFF, VLEN)`, read back from the frame buffer. -/
def elemWholeValue (m : Memory) (e : ElemEntry) : Nat := be m e.voff.toNat e.vlen.toNat

end Sys2Proof.Machine
end

