-- ==== Sys2Proof/Machine/Crc.lean ====
section
/-! DEFINITION. The CRC-16/ARC function and the checksum comparison (spec/41_crc16_arc.md R140, R142). -/

namespace Sys2Proof.Machine

/-- One bit of the loop of R140: shift right, and XOR the polynomial `0xA001` in if a 1 fell out. -/
def crcShift (c : BitVec 16) : BitVec 16 := if c.getLsbD 0 then (c >>> 1) ^^^ 0xA001#16 else c >>> 1

/-- One byte of the loop of R140: it enters at the low end and eight bits are shifted. -/
def crcByte (c : BitVec 16) (d : BitVec 8) : BitVec 16 :=
  crcShift (crcShift (crcShift (crcShift (crcShift (crcShift (crcShift (crcShift (c ^^^ d.setWidth 16))))))))

/-- `crc16arc(d)` (R140): initial value 0, bytes in order, no final XOR. -/
def crc16arc (d : List Byte) : Half := d.foldl crcByte 0

/-- The source's `verify` (R142). -/
def crcVerify (d : List Byte) (expected : Half) : Bool := decide (crc16arc d = expected)

/-- The CRC a DECODE computes: over `FB[8..L-4)`, codec ID through record count 2 (R103, R214). -/
def frameCrc (m : Memory) (len : Nat) : Half := crc16arc (m.range 8 (len - 4))

/-- The received checksum field `be(L-4, 4)` (R39, R100). -/
def frameChecksum (m : Memory) (len : Nat) : Word := beField 32 m (len - 4) 4

/-- The comparison of R142 and R217: all 32 bits. -/
def checksumVerifies (m : Memory) (len : Nat) : Bool := decide ((frameCrc m len).setWidth 32 = frameChecksum m len)

end Sys2Proof.Machine
end

