-- ==== Sys2Proof/Machine/Flags.lean ====
section
/-! DEFINITION. Every status, anomaly and interrupt bit (spec/10_state.md R24-R45, R54; spec/44_frame_demux.md R224)
and the words the registers read as. -/

namespace Sys2Proof.Machine

/-! ## Codes -/

/-- `STATUS.RESULT` (R30, R260). -/
def resultBits : ResultCode → BitVec 4
  | .none => 0x0
  | .ok => 0x1
  | .errFrameLen => 0x2
  | .errShortFrame => 0x3
  | .errCodec => 0x4
  | .errCrc => 0x5
  | .errMalformed => 0x6

/-- `STATUS.LASTOP` (R24, R31). -/
def lastOpBits : LastOp → BitVec 2
  | .none => 0
  | .decode => 1
  | .crc => 2

/-- A result that is an error: not in NONE, OK (R54, R268). -/
def isError (r : ResultCode) : Bool := decide (r ≠ .none ∧ r ≠ .ok)

/-! ## Computed bits -/

/-- `STATUS.BUSY` (R51). -/
def busy (s : State) : Bool := decide (s.phase = .busy)

/-- `BUSY = 0`, `LASTOP = DECODE` and `RESULT = OK`: `STATUS.ACK_VALID` (R27), and the condition that opens both result
tables (R49, R50). -/
def ackValid (s : State) : Bool := decide (s.phase = .idle ∧ s.lastOp = .decode ∧ s.result = .ok)

/-- The interrupt output (R54). -/
def irq (s : State) : Bool := s.done && (s.ieDone || (s.ieErr && isError s.result))

/-! ## Anomaly flags (R224) -/

/-- The flags a DECODE writes when it parses the header: bits 2, 4, 5 and 7 (R210, R224). -/
def headerAnomaly (m : Memory) (len : Nat) (a : Anomaly) : Anomaly :=
  { a with
    cnt12Mismatch := decide (m.byte 9 ≠ m.byte (len - 5))
    dflGtBody := decide (be m 4 4 > len - 15)
    preambleNz := decide (be m 0 4 ≠ 0)
    crcHiNz := decide ((frameChecksum m len).extractLsb' 16 16 ≠ 0) }

/-- The flags a DECODE writes on OK: bits 0, 1, 3 and 6 (R210, R224), from N1, N2, the number of records, whether Codec 8
stopped early, and whether the cursor ended short of the body's end. -/
def resultAnomaly (n1 n2 nrecs : Nat) (trunc slack : Bool) (a : Anomaly) : Anomaly :=
  { a with
    cnt1Mismatch := decide (n1 ≠ nrecs)
    cnt2Mismatch := decide (n2 ≠ nrecs)
    truncated := trunc
    bodySlack := slack }

/-! ## Register words -/

/-- `STATUS` as read (R24). -/
def statusWord (s : State) : Word :=
  0#18 ++ lastOpBits s.lastOp ++ resultBits s.result ++ 0#3 ++ BitVec.ofBool s.wErr ++ BitVec.ofBool s.badCmd ++
    BitVec.ofBool (ackValid s) ++ BitVec.ofBool s.done ++ BitVec.ofBool (busy s)

/-- `IRQ_EN` as read (R33). -/
def irqEnWord (s : State) : Word := 0#30 ++ BitVec.ofBool s.ieErr ++ BitVec.ofBool s.ieDone

/-- `HDR` as read (R37). -/
def hdrWord (h : Hdr) : Word := BitVec.ofBool h.valid ++ 0#7 ++ h.n2 ++ h.n1 ++ h.codec

/-- `ANOMALY` as read (R43). -/
def anomalyWord (a : Anomaly) : Word :=
  0#24 ++ BitVec.ofBool a.crcHiNz ++ BitVec.ofBool a.bodySlack ++ BitVec.ofBool a.preambleNz ++
    BitVec.ofBool a.dflGtBody ++ BitVec.ofBool a.truncated ++ BitVec.ofBool a.cnt12Mismatch ++
    BitVec.ofBool a.cnt2Mismatch ++ BitVec.ofBool a.cnt1Mismatch

/-- `BODY` as read (R45). -/
def bodyWord (b : Body) : Word := 0#4 ++ b.stop ++ 0#4 ++ b.start

/-- The identity constant (R22): ASCII "FDRD". -/
def idWord : Word := 0x46445244

/-- The register at an offset of the register block as a 32-bit read returns it (R21); the reserved offsets read 0
(R47). -/
def readRegister (s : State) (off : Nat) : Word :=
  match off with
  | 0x00 => idWord
  | 0x04 => 0
  | 0x08 => statusWord s
  | 0x0C => irqEnWord s
  | 0x10 => s.frameLen.setWidth 32
  | 0x14 => s.results.preamble
  | 0x18 => s.results.dfl
  | 0x1C => hdrWord s.results.hdr
  | 0x20 => s.results.crcCalc.setWidth 32
  | 0x24 => s.results.crcRecv
  | 0x28 => s.results.ack
  | 0x2C => s.results.recCount.setWidth 32
  | 0x30 => s.results.elemCount.setWidth 32
  | 0x34 => anomalyWord s.results.anomaly
  | 0x38 => s.results.errPos.setWidth 32
  | 0x3C => bodyWord s.results.body
  | _ => 0

/-- Word `w` of slot `i` of the record table as read (R49, R73): the entry's word when it is visible, else 0. Slot 255
holds no entry. -/
def readRecTable (s : State) (i w : Nat) : Word :=
  if ackValid s && decide (i < Config.recMax) && decide (i < s.results.recCount.toNat) then
    match s.recTable[i]? with
    | some e => recWord e w
    | none => Config.storedRecWord i w
  else 0

/-- Word `w` of entry `j` of the element table as read (R50). -/
def readElemTable (s : State) (j w : Nat) : Word :=
  if ackValid s && decide (j < s.results.elemCount.toNat) then
    match s.elemTable[j]? with
    | some e => elemWord e w
    | none => Config.storedElemWord j w
  else 0

end Sys2Proof.Machine
end

