-- ==== Sys2Proof/Machine/IoGroups.lean ====
section
/-! DEFINITION. The I/O groups of a Codec 8E record (spec/43_codec8e.md R183, R184) as steps of the record walk, and the
reserved element kinds (spec/30_encoding.md R123). -/

namespace Sys2Proof.Machine

/-- The elements of a fixed-width group (R183): `n` times an id and a value of `width` bytes, each appended to the
element list once both are taken. -/
def fixedElems (m : Memory) (width : Nat) (kind : BitVec 3) : Nat → Walk → Except Nat Walk
  | 0, w => .ok w
  | n + 1, w => do
    let (id, _, w) ← take m 2 w
    let (v, voff, w) ← take m width w
    let e : ElemEntry :=
      { ioId := BitVec.ofNat 16 id, kind := kind, recIdx := BitVec.ofNat 8 w.recs.length,
        vlen := BitVec.ofNat 16 width, voff := BitVec.ofNat 12 voff, val := BitVec.ofNat 64 v }
    fixedElems m width kind n { w with elems := w.elems ++ [e] }

/-- `iogroup(w, kind, r)` (R183): the group's count, recorded in the entry by `setCount`, then its elements. -/
def fixedGroup (width : Nat) (kind : BitVec 3) (setCount : Half → RecEntry → RecEntry) (m : Memory) (w : Walk) :
    Except Nat Walk := do
  let (n, _, w) ← take m 2 w
  fixedElems m width kind n { w with entry := setCount (BitVec.ofNat 16 n) w.entry }

/-- The elements of the NX group (R184): `n` times an id, a length and a value of that length, of which the entry keeps
the low 64 bits (R124). -/
def nxElems (m : Memory) : Nat → Walk → Except Nat Walk
  | 0, w => .ok w
  | n + 1, w => do
    let (id, _, w) ← take m 2 w
    let (len, _, w) ← take m 2 w
    let (v, voff, w) ← take m len w
    let e : ElemEntry :=
      { ioId := BitVec.ofNat 16 id, kind := 4, recIdx := BitVec.ofNat 8 w.recs.length,
        vlen := BitVec.ofNat 16 len, voff := BitVec.ofNat 12 voff, val := BitVec.ofNat 64 v }
    nxElems m n { w with elems := w.elems ++ [e] }

/-- `nxgroup(r)` (R184): the NX count, then its elements. -/
def nxGroup (m : Memory) (w : Walk) : Except Nat Walk := do
  let (n, _, w) ← take m 2 w
  nxElems m n { w with entry := { w.entry with cntNX := BitVec.ofNat 16 n } }

/-- The 1B group, `iogroup(1, 0, r)` (R182). -/
def group1B : Memory → Walk → Except Nat Walk := fixedGroup 1 0 fun n e => { e with cnt1B := n }

/-- The 2B group, `iogroup(2, 1, r)` (R182). -/
def group2B : Memory → Walk → Except Nat Walk := fixedGroup 2 1 fun n e => { e with cnt2B := n }

/-- The 4B group, `iogroup(4, 2, r)` (R182). -/
def group4B : Memory → Walk → Except Nat Walk := fixedGroup 4 2 fun n e => { e with cnt4B := n }

/-- The 8B group, `iogroup(8, 3, r)` (R182). -/
def group8B : Memory → Walk → Except Nat Walk := fixedGroup 8 3 fun n e => { e with cnt8B := n }

/-- `IO_1B` (R183): the 1B group at the cursor of the walk in progress. -/
def execIo1B (s : State) : Host.Outcome State Fault Refusal := .next (runWalk group1B s)

/-- `IO_2B` (R183). -/
def execIo2B (s : State) : Host.Outcome State Fault Refusal := .next (runWalk group2B s)

/-- `IO_4B` (R183). -/
def execIo4B (s : State) : Host.Outcome State Fault Refusal := .next (runWalk group4B s)

/-- `IO_8B` (R183). -/
def execIo8B (s : State) : Host.Outcome State Fault Refusal := .next (runWalk group8B s)

/-- `IO_NX` (R184). -/
def execIoNX (s : State) : Host.Outcome State Fault Refusal := .next (runWalk nxGroup s)

/-- `RESERVED_KIND_5` (R123, U6): never produced, with no effect to model. -/
def execReservedKind5 (_s : State) : Host.Outcome State Fault Refusal := .refused (.reservedKind 5)

/-- `RESERVED_KIND_6_7` (R123, U6): never produced, with no effect to model. -/
def execReservedKind67 (low : BitVec 1) (_s : State) : Host.Outcome State Fault Refusal :=
  .refused (.reservedKind (0b11#2 ++ low))

end Sys2Proof.Machine
end

