-- ==== Sys2Proof/Machine/Codec.lean ====
section
/-! DEFINITION. The codec dispatch rows (spec/42_codec8.md, spec/43_codec8e.md, spec/44_frame_demux.md R215-R226): what
a DECODE completion step does once it has parsed the header and looked at the codec byte. -/

namespace Sys2Proof.Machine

/-- A DECODE completion step has reached the codec dispatch with this codec byte (R160, R180, R219): a DECODE is
running, `15 <= L <= 2048` and `FB[8]` is the byte. Elsewhere a codec row changes nothing (DEDUCED, log entry 7). -/
def dispatches (codec : Byte) (s : State) : Bool :=
  decide (s.phase = .busy ∧ s.lastOp = .decode ∧ Config.minFrame ≤ s.frameLen.toNat ∧
    s.frameLen.toNat ≤ Config.frameMax ∧ s.fb.byte 8 = codec)

/-- `bodyEnd = L - 5` (R102). -/
def bodyEnd (s : State) : Nat := s.frameLen.toNat - Config.trlLen

/-- Record count 1, `FB[9]` (R100, R220). -/
def recordCount1 (s : State) : Nat := (s.fb.byte 9).toNat

/-- Record count 2, `FB[L-5]` (R100, R220). -/
def recordCount2 (s : State) : Nat := (s.fb.byte (s.frameLen.toNat - 5)).toNat

/-- Header and trailer demultiplexing (R213, R214) and the header flags (R224). -/
def parseHeader (s : State) : State :=
  let m := s.fb
  let len := s.frameLen.toNat
  { s with results := { s.results with
      preamble := beField 32 m 0 4
      dfl := beField 32 m 4 4
      hdr := ⟨m.byte 8, m.byte 9, m.byte (len - 5), true⟩
      body := ⟨BitVec.ofNat 12 Config.hdrLen, BitVec.ofNat 12 (len - 5)⟩
      crcRecv := frameChecksum m len
      crcCalc := frameCrc m len
      anomaly := headerAnomaly m len s.results.anomaly } }

/-- A table after a commit (R222): the new entries from index 0 on, the others as they were. -/
def commitTable {α : Type} (new old : List α) : List α := new ++ old.drop new.length

/-- The OK end of a DECODE (R210, R222-R224): the commit, the result flags, `ACK <- N1`, `finish(OK)`. -/
def succeed (recs : List RecEntry) (elems : List ElemEntry) (trunc : Bool) (cur : Nat) (s : State) : State :=
  finish .ok { s with
    recTable := commitTable recs s.recTable
    elemTable := commitTable elems s.elemTable
    results := { s.results with
      recCount := BitVec.ofNat 9 recs.length
      elemCount := BitVec.ofNat 11 elems.length
      anomaly := resultAnomaly (recordCount1 s) (recordCount2 s) recs.length trunc (decide (cur < bodyEnd s))
        s.results.anomaly
      ack := (s.fb.byte 9).setWidth 32 } }

/-! ## Codec 8 -/

/-- The loop of `decode8()` (R161) over the iterations left: the records, whether it stopped early, and the cursor. -/
def decode8Loop (m : Memory) (stride stop : Nat) : Nat → Nat → List RecEntry → List RecEntry × Bool × Nat
  | 0, cur, recs => (recs, false, cur)
  | n + 1, cur, recs =>
    if stop - cur < stride then (recs, true, cur)
    else decode8Loop m stride stop n (cur + stride) (recs ++ [record8 m stride cur])

/-- `decode8()` (R161). -/
def decode8 (s : State) : List RecEntry × Bool × Nat :=
  decode8Loop s.fb s.c8Stride (bodyEnd s) (recordCount1 s) Config.hdrLen []

/-- `CODEC8` (R160, R161, R217, R222): verify the checksum, then unpack and commit. Where the dispatch has not selected
it, it is not entered (R219). -/
def execCodec8 (s : State) : Host.Outcome State Fault Refusal :=
  if dispatches codec8Byte s then
    if checksumVerifies s.fb s.frameLen.toNat then
      let (recs, trunc, cur) := decode8 s
      .next (succeed recs [] trunc cur s)
    else .next (finish .errCrc s)
  else .next s

/-! ## Codec 8 Extended -/

/-- The fixed part of a Codec 8E record (R109, R182), field by field in wire order. -/
def fixedPart (m : Memory) (w : Walk) : Except Nat Walk := do
  let b := w.cur
  let (ts, _, w) ← take m 8 w
  let (pr, _, w) ← take m 1 w
  let (lon, _, w) ← take m 4 w
  let (lat, _, w) ← take m 4 w
  let (alt, _, w) ← take m 2 w
  let (ang, _, w) ← take m 2 w
  let (sat, _, w) ← take m 1 w
  let (spd, _, w) ← take m 2 w
  let (ev, _, w) ← take m 2 w
  let (tot, _, w) ← take m 2 w
  return { w with
    base := b
    entry := { zeroRecord with
      timestamp := BitVec.ofNat 64 ts
      prio := BitVec.ofNat 8 pr
      lon := BitVec.ofNat 32 lon
      lat := BitVec.ofNat 32 lat
      alt := BitVec.ofNat 16 alt
      angle := BitVec.ofNat 16 ang
      sats := BitVec.ofNat 8 sat
      speed := BitVec.ofNat 16 spd
      eventIo := BitVec.ofNat 16 ev
      totalIo := BitVec.ofNat 16 tot
      elemFirst := BitVec.ofNat 16 w.elems.length
      recOff := BitVec.ofNat 12 b
      codec := codec8EByte } }

/-- The end of a record (R182): its length, and the entry appended to the records. -/
def closeRecord (_m : Memory) (w : Walk) : Except Nat Walk :=
  .ok { w with recs := w.recs ++ [{ w.entry with recLen := BitVec.ofNat 12 (w.cur - w.base) }] }

/-- Go on with the next piece: nothing runs after an outcome that is no next state. -/
def andThen {α β : Type} (o : Host.Outcome α Fault Refusal) (f : α → Host.Outcome β Fault Refusal) :
    Host.Outcome β Fault Refusal :=
  match o with
  | .next s => f s
  | .fault r => .fault r
  | .refused r => .refused r

/-- `record8E(r)` (R182): the fixed part, then the five groups in the order 1B, 2B, 4B, 8B, NX (R185), each the meaning
of its row, then the entry. A `take` that fails ends the operation, and what is left finds no walk (R187). -/
def record8E (s : State) : Host.Outcome State Fault Refusal :=
  andThen (execIo1B (runWalk fixedPart s)) fun s =>
  andThen (execIo2B s) fun s =>
  andThen (execIo4B s) fun s =>
  andThen (execIo8B s) fun s =>
  andThen (execIoNX s) fun s =>
  .next (runWalk closeRecord s)

/-- The loop of `decode8E()` (R181) over the records left. -/
def decode8ELoop : Nat → State → Host.Outcome State Fault Refusal
  | 0, s => .next s
  | n + 1, s => andThen (record8E s) (decode8ELoop n)

/-- The walk before the first record (R52, R181): the cursor at the first body byte, nothing decoded. -/
def firstWalk (stop : Nat) : Walk where
  cur := Config.hdrLen
  bodyEnd := stop
  base := Config.hdrLen
  entry := zeroRecord
  recs := []
  elems := []

/-- The state at the start of record decoding (R181). -/
def startWalk (s : State) : State := { s with walk := some (firstWalk (bodyEnd s)) }

/-- The end of `decode8E()` (R181, R210): with the walk still there no `take` failed, and its records and elements are
committed; a failed operation is already over (R226). -/
def closeWalk (s : State) : State :=
  match s.walk with
  | none => s
  | some w => succeed w.recs w.elems false w.cur s

/-- `CODEC8E` (R180, R181, R187, R217, R222): verify the checksum, then walk the records and commit. Where the dispatch
has not selected it, it is not entered (R219). -/
def execCodec8E (s : State) : Host.Outcome State Fault Refusal :=
  if dispatches codec8EByte s then
    if checksumVerifies s.fb s.frameLen.toNat then
      andThen (decode8ELoop (recordCount1 s) (startWalk s)) fun s => .next (closeWalk s)
    else .next (finish .errCrc s)
  else .next s

/-! ## Any other codec -/

/-- `CODEC_UNRECOGNIZED` (R215, R216): ERR_CODEC, whatever the checksum. Where the dispatch has not selected it, it is
not entered. -/
def execCodecUnrecognized (codec : Byte) (s : State) : Host.Outcome State Fault Refusal :=
  if dispatches codec s then .next (finish .errCodec s) else .next s

end Sys2Proof.Machine
end

