-- ==== Sys2Proof/Machine/Control.lean ====
section
/-! DEFINITION. The host commands (spec/45_control.md R240-R244) and the completion of the CRC command
(spec/41_crc16_arc.md R147). A command's effect happens in the `CTRL` write itself (R245); the operation that DECODE or
CRC starts ends in the engine's completion step, a later event (R227). -/

namespace Sys2Proof.Machine

/-- `CMD_NOP` (R240): no state change, busy or not. -/
def execCmdNop (_ignored : BitVec 28) (s : State) : Host.Outcome State Fault Refusal := .next s

/-- START of an operation, or its refusal while one is running (R241, R242). -/
def startOrRefuse (op : LastOp) (s : State) : State :=
  match s.phase with
  | .idle => startOperation op s
  | .busy => refuseCommand s

/-- `CMD_DECODE` (R241, R242, with `LASTOP <- 1` by R210). Its completion step is `decodeCompletion`. -/
def execCmdDecode (_ignored : BitVec 28) (s : State) : Host.Outcome State Fault Refusal :=
  .next (startOrRefuse .decode s)

/-- `CMD_CRC` (R241, R242, with `LASTOP <- 2` by R147). Its completion step is `crcCompletion`. -/
def execCmdCrc (_ignored : BitVec 28) (s : State) : Host.Outcome State Fault Refusal :=
  .next (startOrRefuse .crc s)

/-- `CMD_CLEAR` (R243): accepted busy or not. -/
def execCmdClear (_ignored : BitVec 28) (s : State) : Host.Outcome State Fault Refusal :=
  .next (clearOperation s)

/-- `CMD_RESERVED_4_7` (R244). -/
def execCmdReserved47 (_low : BitVec 2) (_ignored : BitVec 28) (s : State) : Host.Outcome State Fault Refusal :=
  .next (refuseCommand s)

/-- `CMD_RESERVED_8_F` (R244). -/
def execCmdReserved8F (_low : BitVec 3) (_ignored : BitVec 28) (s : State) : Host.Outcome State Fault Refusal :=
  .next (refuseCommand s)

/-- The completion step of a CRC operation (R147): ERR_FRAME_LEN, or the CRC of `FB[0..L)`. -/
def crcCompletion (s : State) : State :=
  if Config.frameMax < s.frameLen.toNat then finish .errFrameLen s
  else finish .ok { s with results := { s.results with crcCalc := crc16arc (s.fb.range 0 s.frameLen.toNat) } }

end Sys2Proof.Machine
end

