-- ==== Sys2Proof/Machine/Dispatch.lean ====
section
/-! DEFINITION. One arm per row of the opcode table, each a direct call of the row's meaning. -/

namespace Sys2Proof.Machine

/-- What an instruction does to a state. -/
def exec (i : Instr) (s : State) : Host.Outcome State Fault Refusal :=
  match i with
  | .cmdNop ignored => Sys2Proof.Machine.execCmdNop ignored s
  | .cmdDecode ignored => Sys2Proof.Machine.execCmdDecode ignored s
  | .cmdCrc ignored => Sys2Proof.Machine.execCmdCrc ignored s
  | .cmdClear ignored => Sys2Proof.Machine.execCmdClear ignored s
  | .cmdReserved47 low ignored => Sys2Proof.Machine.execCmdReserved47 low ignored s
  | .cmdReserved8F low ignored => Sys2Proof.Machine.execCmdReserved8F low ignored s
  | .codec8 => Sys2Proof.Machine.execCodec8 s
  | .codec8E => Sys2Proof.Machine.execCodec8E s
  | .codecUnrecognized codec => Sys2Proof.Machine.execCodecUnrecognized codec s
  | .io1B => Sys2Proof.Machine.execIo1B s
  | .io2B => Sys2Proof.Machine.execIo2B s
  | .io4B => Sys2Proof.Machine.execIo4B s
  | .io8B => Sys2Proof.Machine.execIo8B s
  | .ioNX => Sys2Proof.Machine.execIoNX s
  | .reservedKind5 => Sys2Proof.Machine.execReservedKind5 s
  | .reservedKind67 low => Sys2Proof.Machine.execReservedKind67 low s

end Sys2Proof.Machine
end

