-- ==== Sys2Proof/Machine/Engine.lean ====
section
/-! DEFINITION. The engine's one step (spec/00_scope.md R18; spec/44_frame_demux.md R210; spec/45_control.md R249). -/

namespace Sys2Proof.Machine

/-- The completion step of a DECODE (R210): the length checks, the header, then the row its codec byte selects. -/
def decodeCompletion (s : State) : Host.Outcome State Fault Refusal :=
  if Config.frameMax < s.frameLen.toNat then .next (finish .errFrameLen s)
  else if s.frameLen.toNat < Config.minFrame then .next (finish .errShortFrame s)
  else exec (decodeCodec (s.fb.byte 8)) (parseHeader s)

/-- The engine's step: enabled exactly while busy (R249), the completion of the running operation. Busy with no
operation does not occur (R248); the engine then takes no step. -/
def engineStep (s : State) : Host.Outcome State Fault Refusal :=
  match s.phase, s.lastOp with
  | .busy, .decode => decodeCompletion s
  | .busy, .crc => .next (crcCompletion s)
  | .busy, .none => .next s
  | .idle, _ => .next s

end Sys2Proof.Machine
end

