-- ==== Sys2Proof/Machine/Bus.lean ====
section
/-! DEFINITION. Host bus accesses (spec/20_memory.md R70-R80): which are admitted, what a read returns, what a write
does. -/

namespace Sys2Proof.Machine

/-- The offset lies in the frame buffer region (R70). -/
def inFrameBuffer (a : Nat) : Bool := decide (0x0800 ≤ a ∧ a < 0x1000)

/-- Which accesses a region admits (R76): the frame buffer any width naturally aligned, every other region only
32-bit aligned. -/
def admitted (a : BitVec 16) (n : Width) : Bool :=
  if inFrameBuffer a.toNat then decide (a.toNat % n.bytes = 0)
  else decide (n = .w32 ∧ a.toNat % 4 = 0)

/-- What an admitted read returns (R70, R72-R75, R79). A read has no side effect (R80). -/
def readValue (s : State) (a : Nat) (n : Width) : Word :=
  if a < 0x0100 then readRegister s a
  else if a < 0x0800 then 0
  else if a < 0x1000 then s.fb.lanes (a - 0x0800) n
  else if a < 0x5000 then readRecTable s ((a - 0x1000) / 64) ((a - 0x1000) % 64 / 4)
  else if a < 0x8000 then 0
  else if a < 0xC000 then readElemTable s ((a - 0x8000) / 16) ((a - 0x8000) % 16 / 4)
  else 0

/-- A write to `STATUS` (R32): bits 1, 3 and 4 clear what they name. -/
def writeStatus (v : Word) (s : State) : State :=
  { s with
    done := s.done && !v.getLsbD 1
    badCmd := s.badCmd && !v.getLsbD 3
    wErr := s.wErr && !v.getLsbD 4 }

/-- A write to `IRQ_EN` (R33, R247). -/
def writeIrqEn (v : Word) (s : State) : State := { s with ieDone := v.getLsbD 0, ieErr := v.getLsbD 1 }

/-- A write to the operation's input while one is running: dropped, `WERR <- 1` (R29, R311). -/
def dropWrite (s : State) : State := { s with wErr := true }

/-- A write to `FRAME_LEN` (R34). -/
def writeFrameLen (v : Word) (s : State) : State :=
  if busy s then dropWrite s else { s with frameLen := v.extractLsb' 0 12 }

/-- An admitted write to the frame buffer (R75, R78). -/
def writeFrame (k : Nat) (n : Width) (v : Word) (s : State) : State :=
  if busy s then dropWrite s else { s with fb := s.fb.writeList k (laneBytes n v) }

/-- `MemWrite(a, n, v)` (R75-R79): `CTRL` performs its command at once (R23, R245); a write to `ID`, a result register,
a result table or a reserved offset is ignored. -/
def memWrite (a : BitVec 16) (n : Width) (v : Word) (s : State) : Host.Outcome State Fault Refusal :=
  if admitted a n then
    if inFrameBuffer a.toNat then .next (writeFrame (a.toNat - 0x0800) n v s)
    else if a = 0x0004 then exec (decodeCommand v) s
    else if a = 0x0008 then .next (writeStatus v s)
    else if a = 0x000C then .next (writeIrqEn v s)
    else if a = 0x0010 then .next (writeFrameLen v s)
    else .next s
  else raiseBusError a

/-- `MemRead(a, n)` (R75-R80): only the bus's answer changes. -/
def memRead (a : BitVec 16) (n : Width) (s : State) : Host.Outcome State Fault Refusal :=
  if admitted a n then .next { s with response := .data (readValue s a.toNat n) } else raiseBusError a

/-- One event (R18, R81, R86, R300): each is atomic, wholly before or wholly after every other. -/
def runEvent (e : Event) (s : State) : Host.Outcome State Fault Refusal :=
  match e with
  | .read a n => memRead a n s
  | .write a n v => memWrite a n v { s with response := .written }
  | .complete => engineStep s
  | .reset => .next (resetRegisters s)
  | .powerOn => .next (powerOnReset s)

/-- One step of the machine: the next event of the one order of R86. With no event left, the engine's step is the only
one that can be taken (R249, R320; log entries 1 and 12); an idle FDRD then keeps its state (R279). -/
def stepEvent (s : State) : Host.Outcome State Fault Refusal :=
  match s.pending with
  | [] => engineStep s
  | e :: rest => runEvent e { s with pending := rest }

end Sys2Proof.Machine
end

