-- ==== Sys2Proof/Machine/Fetch.lean ====
section
/-! DEFINITION. How a bare table word is placed so that the very next step runs it (log entry 4). -/

namespace Sys2Proof.Machine

/-- A command is run by the host's write of it to `CTRL` (R130): that write is put first among the pending events. -/
def placeCommand (w : Word) (s : State) : State := { s with pending := .write 0x0004 .w32 w :: s.pending }

/-- The smallest frame with this codec byte (R100, R102): 15 bytes, no records, and the checksum that verifies. -/
def smallestFrame (codec : Byte) : List Byte :=
  let c := crc16arc [codec, 0, 0]
  [0, 0, 0, 0, 0, 0, 0, 0, codec, 0, 0, 0, 0, c.extractLsb' 8 8, c.extractLsb' 0 8]

/-- A codec row is run by the completion step of a DECODE whose frame has that codec byte (R219): the smallest such
frame is loaded, a DECODE started on it, and its completion put first among the pending events. -/
def placeCodec (codec : Byte) (s : State) : State :=
  let s := { s with fb := s.fb.writeList 0 (smallestFrame codec), frameLen := BitVec.ofNat 12 Config.minFrame }
  { startOperation .decode s with pending := .complete :: s.pending }

/-- Placing a bare table word where it is run. -/
def placeTableWord (nbits w : Nat) (s : State) : State :=
  match tableSpace nbits w with
  | some .command => placeCommand (BitVec.ofNat 32 w) s
  | some .codec => placeCodec (BitVec.ofNat 8 w) s
  | some .kind => s
  | none => s

end Sys2Proof.Machine
end

