-- ==== Sys2Proof/Machine/Step.lean ====
section
/-! DEFINITION. The step function and the placing of an instruction under it. -/

namespace Sys2Proof.Machine

/-- One step: the next event (`stepEvent`). -/
def step (s : State) : Host.Outcome State Fault Refusal := stepEvent s

/-- The state with a table word placed so that the very next step runs it (`placeTableWord`, log entry 4). -/
def State.withFetchWord (s : State) (nbits w : Nat) : State := placeTableWord nbits w s

end Sys2Proof.Machine
end

