-- ==== Sys2Proof/Machine/HostProgram.lean ====
section
/-! DEFINITION. Host programs and their pseudo-instructions (spec/30_encoding.md R133, R134), the runs of a program under
a schedule (log entry 15), and what the host reads out of FDRD (spec/60_exceptions.md R283-R285). The session around them
is host software (spec/00_scope.md R6). -/

namespace Sys2Proof.Machine

/-- `LOADFRAME b0 b1 ...` (R134): the frame bytes one by one, then `FRAME_LEN`. -/
def loadFrame (bytes : List Byte) : List Event :=
  (List.range bytes.length).map (fun k => .write (BitVec.ofNat 16 (0x0800 + k)) .w8 ((bytes.getD k 0).setWidth 32)) ++
    [.write 0x0010 .w32 (BitVec.ofNat 32 bytes.length)]

/-- `NOP` (R134). -/
def nopProgram : List Event := [.write 0x0004 .w32 0x0]

/-- `DECODE` (R134). -/
def decodeProgram : List Event := [.write 0x0004 .w32 0x1]

/-- `CRC` (R134). -/
def crcProgram : List Event := [.write 0x0004 .w32 0x2]

/-- `CLEAR` (R134). -/
def clearProgram : List Event := [.write 0x0004 .w32 0x3]

/-- `ACKDONE` (R134, R246). -/
def ackDone : List Event := [.write 0x0008 .w32 0x2]

/-- One operation of a host program: a bus operation (R133), or `WAITDONE` (R134). -/
inductive HostOp where
  | access (e : Event)
  | waitDone
  deriving DecidableEq, Repr

/-- The access that an operation makes each time it is its turn: `WAITDONE` reads `STATUS` (R134). -/
def HostOp.event : HostOp → Event
  | .access e => e
  | .waitDone => .read 0x0008 .w32

/-- Bit 1 (DONE) of the value that the last access read is 1. -/
def readDone (s : State) : Bool :=
  match s.response with
  | .data v => v.getLsbD 1
  | .idle => false
  | .written => false

/-- After its access an operation is over: a bus operation always, `WAITDONE` when DONE was read as 1, else it is
repeated (R134). -/
def HostOp.over (op : HostOp) (s : State) : Bool :=
  match op with
  | .access _ => true
  | .waitDone => readDone s

/-- Machine steps whose events come next, one after the other. -/
def runEvents : List Event → State → Host.Outcome State Fault Refusal
  | [], s => .next s
  | e :: es, s => andThen (step { s with pending := e :: s.pending }) (runEvents es)

/-- A host program under a schedule: before each access of the host the events of the schedule's next entry come (the
completion step, a reset). The run stops with the program or with the schedule, and answers what is left of the program;
`WAITDONE` goes on reading as long as the schedule does and DONE reads 0 (R134, R320; DESIGN CHOICE, log entry 15). -/
def runHost : List (List Event) → List HostOp → State → Host.Outcome (List HostOp × State) Fault Refusal
  | _, [], s => .next ([], s)
  | [], op :: ops, s => .next (op :: ops, s)
  | before :: sched, op :: ops, s =>
    andThen (runEvents (before ++ [op.event]) s) fun t =>
      runHost sched (if op.over t then ops else op :: ops) t

/-- `WAITDONE` (R134). -/
def waitDone : List HostOp := [.waitDone]

/-- The per-frame sequence (a) to (d) of R304. -/
def decodeFrame (bytes : List Byte) : List HostOp := (loadFrame bytes ++ decodeProgram).map .access ++ waitDone

/-- The bytes of the acknowledgment in the order they are sent (R283): `ACK` most significant byte first. -/
def ackBytes (s : State) : List Byte :=
  [s.results.ack.extractLsb' 24 8, s.results.ack.extractLsb' 16 8, s.results.ack.extractLsb' 8 8,
   s.results.ack.extractLsb' 0 8]

/-- What the host sends after a DECODE: the acknowledgment exactly when `ACK_VALID` is 1 (R284, R285, R288). -/
def hostReply (s : State) : Option (List Byte) := if ackValid s then some (ackBytes s) else none

end Sys2Proof.Machine
end

