-- ==== Sys2Proof/Machine/Layout.lean ====
section
/-! DEFINITION. The layout of a Codec 8E body read straight off the frame bytes at computed offsets
(spec/30_encoding.md R109-R112), with no cursor and no overrun test: what claims compare the record walk with. -/

namespace Sys2Proof.Machine

/-- Where a fixed-width group that begins at `p` ends (R110): its count, then `2 + width` bytes per element. -/
def fixedGroupEnd (m : Memory) (width p : Nat) : Nat := p + 2 + be m p 2 * (2 + width)

/-- Where the 1B group of the record at `p` begins: after the 28 fixed bytes (R109). -/
def start1B (p : Nat) : Nat := p + 28

/-- Where the 2B group of the record at `p` begins. -/
def start2B (m : Memory) (p : Nat) : Nat := fixedGroupEnd m 1 (start1B p)

/-- Where the 4B group of the record at `p` begins. -/
def start4B (m : Memory) (p : Nat) : Nat := fixedGroupEnd m 2 (start2B m p)

/-- Where the 8B group of the record at `p` begins. -/
def start8B (m : Memory) (p : Nat) : Nat := fixedGroupEnd m 4 (start4B m p)

/-- Where the NX group of the record at `p` begins. -/
def startNX (m : Memory) (p : Nat) : Nat := fixedGroupEnd m 8 (start8B m p)

/-- The offset `k` NX elements after `q` (R111): each takes 4 bytes and its declared length. -/
def nxFrom (m : Memory) (q : Nat) : Nat → Nat
  | 0 => q
  | k + 1 => nxFrom m q k + 4 + be m (nxFrom m q k + 2) 2

/-- Where element `k` of the NX group that begins at `p` begins: the elements follow the count. -/
def nxElemStart (m : Memory) (p k : Nat) : Nat := nxFrom m (p + 2) k

/-- Where the NX group that begins at `p` ends. -/
def nxGroupEnd (m : Memory) (p : Nat) : Nat := nxElemStart m p (be m p 2)

/-- Where the record that begins at `p` ends (R112). -/
def recordEnd (m : Memory) (p : Nat) : Nat := nxGroupEnd m (startNX m p)

/-- Where record `i` of a Codec 8E body begins: the records follow one another with no padding (R112). -/
def recordStart (m : Memory) : Nat → Nat
  | 0 => Config.hdrLen
  | i + 1 => recordEnd m (recordStart m i)

/-- The fields of the fixed part of a record at `p` in the order they are taken (R109), each its offset and its length:
TIMESTAMP, PRIORITY, LONGITUDE, LATITUDE, ALTITUDE, ANGLE, SATELLITES, SPEED, EVENT_IO, TOTAL_IO. -/
def fixedFields (p : Nat) : List (Nat × Nat) :=
  [(p, 8), (p + 8, 1), (p + 9, 4), (p + 13, 4), (p + 17, 2), (p + 19, 2), (p + 21, 1), (p + 22, 2), (p + 24, 2),
   (p + 26, 2)]

/-- The fields of a fixed-width group at `p` (R110): its count, then the id and the value of each element. -/
def fixedGroupFields (m : Memory) (width p : Nat) : List (Nat × Nat) :=
  (p, 2) :: (List.range (be m p 2)).flatMap fun k =>
    [(p + 2 + k * (2 + width), 2), (p + 2 + k * (2 + width) + 2, width)]

/-- The fields of an NX group at `p` (R111): its count, then the id, the length and the value of each element. -/
def nxGroupFields (m : Memory) (p : Nat) : List (Nat × Nat) :=
  (p, 2) :: (List.range (be m p 2)).flatMap fun k =>
    [(nxElemStart m p k, 2), (nxElemStart m p k + 2, 2),
     (nxElemStart m p k + 4, be m (nxElemStart m p k + 2) 2)]

/-- Every field of the record at `p` in the order they are taken (R182), each its offset and its length; they follow one
another with no gap, so at most one of them holds the end of a body that cuts the record. -/
def recordFields (m : Memory) (p : Nat) : List (Nat × Nat) :=
  fixedFields p ++ fixedGroupFields m 1 (start1B p) ++ fixedGroupFields m 2 (start2B m p) ++
    fixedGroupFields m 4 (start4B m p) ++ fixedGroupFields m 8 (start8B m p) ++ nxGroupFields m (startNX m p)

/-- The element of a fixed-width group of record `r` whose id begins at `q` (R110, R122). -/
def fixedElemAt (m : Memory) (r width : Nat) (kind : BitVec 3) (q : Nat) : ElemEntry where
  ioId := beField 16 m q 2
  kind := kind
  recIdx := BitVec.ofNat 8 r
  vlen := BitVec.ofNat 16 width
  voff := BitVec.ofNat 12 (q + 2)
  val := beField 64 m (q + 2) width

/-- The elements of the fixed-width group of record `r` that begins at `p`. -/
def fixedElemsAt (m : Memory) (r width : Nat) (kind : BitVec 3) (p : Nat) : List ElemEntry :=
  (List.range (be m p 2)).map fun k => fixedElemAt m r width kind (p + 2 + k * (2 + width))

/-- The NX element of record `r` whose id begins at `q` (R111, R122). -/
def nxElemAt (m : Memory) (r q : Nat) : ElemEntry where
  ioId := beField 16 m q 2
  kind := 4
  recIdx := BitVec.ofNat 8 r
  vlen := beField 16 m (q + 2) 2
  voff := BitVec.ofNat 12 (q + 4)
  val := beField 64 m (q + 4) (be m (q + 2) 2)

/-- The elements of the NX group of record `r` that begins at `p`. -/
def nxElemsAt (m : Memory) (r p : Nat) : List ElemEntry :=
  (List.range (be m p 2)).map fun k => nxElemAt m r (nxElemStart m p k)

/-- The elements of the record `r` that begins at `p`, in group order (R121). -/
def recordElems (m : Memory) (r p : Nat) : List ElemEntry :=
  fixedElemsAt m r 1 0 (start1B p) ++ fixedElemsAt m r 2 1 (start2B m p) ++ fixedElemsAt m r 4 2 (start4B m p) ++
    fixedElemsAt m r 8 3 (start8B m p) ++ nxElemsAt m r (startNX m p)

/-- How many elements the record that begins at `p` has. -/
def recordElemCount (m : Memory) (p : Nat) : Nat :=
  be m (start1B p) 2 + be m (start2B m p) 2 + be m (start4B m p) 2 + be m (start8B m p) 2 + be m (startNX m p) 2

/-- How many elements the records before record `i` have (R196). -/
def elemsBefore (m : Memory) : Nat → Nat
  | 0 => 0
  | i + 1 => elemsBefore m i + recordElemCount m (recordStart m i)

/-- The entry of the Codec 8E record that begins at `p`, with `first` elements before it (R109, R120). -/
def record8EAt (m : Memory) (p first : Nat) : RecEntry where
  timestamp := beField 64 m p 8
  lon := beField 32 m (p + 9) 4
  lat := beField 32 m (p + 13) 4
  alt := beField 16 m (p + 17) 2
  angle := beField 16 m (p + 19) 2
  prio := m.byte (p + 8)
  sats := m.byte (p + 21)
  speed := beField 16 m (p + 22) 2
  eventIo := beField 16 m (p + 24) 2
  totalIo := beField 16 m (p + 26) 2
  cnt1B := beField 16 m (start1B p) 2
  cnt2B := beField 16 m (start2B m p) 2
  cnt4B := beField 16 m (start4B m p) 2
  cnt8B := beField 16 m (start8B m p) 2
  cntNX := beField 16 m (startNX m p) 2
  elemFirst := BitVec.ofNat 16 first
  recOff := BitVec.ofNat 12 p
  recLen := BitVec.ofNat 12 (recordEnd m p - p)
  codec := codec8EByte

/-- The records of a Codec 8E body of `n` records. -/
def bodyRecords (m : Memory) (n : Nat) : List RecEntry :=
  (List.range n).map fun i => record8EAt m (recordStart m i) (elemsBefore m i)

/-- The elements of a Codec 8E body of `n` records, record by record (R196). -/
def bodyElems (m : Memory) (n : Nat) : List ElemEntry :=
  (List.range n).flatMap fun i => recordElems m i (recordStart m i)

end Sys2Proof.Machine
end

