-- ==== Sys2Proof/Machine/Platform.lean ====
section
/-! DEFINITION. Several FDRD instances on a platform (spec/60_exceptions.md R277): the OPEN parameters `N_INST`,
`FDRD_BASE` and `FDRD_IRQ_LINE` (spec/92_eei_decisions.md). The machine of `step` is one instance (DESIGN CHOICE, log
entry 10). -/

namespace Sys2Proof.Machine

/-- One instance: where its window stands (`FDRD_BASE`, R70), the interrupt input it drives (`FDRD_IRQ_LINE`, R268), and
its complete state. -/
structure Placed where
  base : Nat
  irqLine : Nat
  state : State
  deriving DecidableEq, Repr

/-- The window of an instance holds a system address (R70). -/
def inWindow (p : Placed) (addr : Nat) : Bool := decide (p.base ≤ addr ∧ addr < p.base + Config.windowSize)

/-- A platform's instances (`N_INST` of them): at least one, each base a multiple of 64 KiB, no two the same. -/
def platformWf (ps : List Placed) : Bool :=
  decide (1 ≤ ps.length ∧ (∀ p ∈ ps, p.base % Config.windowSize = 0) ∧ (ps.map (·.base)).Nodup)

/-- One step of instance `k`; it reads and writes that instance alone. -/
def platformStep (k : Nat) (ps : List Placed) : Host.Outcome (List Placed) Fault Refusal :=
  match ps[k]? with
  | none => .next ps
  | some p =>
    match step p.state with
    | .next s => .next (ps.set k { p with state := s })
    | .fault r => .fault r
    | .refused r => .refused r

/-- A host access at a system address: it is queued at the instance whose window holds the address, at its offset from
that base (R70); an address in no window reaches no FDRD. -/
def platformAccess (addr : Nat) (access : BitVec 16 → Event) (ps : List Placed) : List Placed :=
  ps.map fun p =>
    if inWindow p addr then
      { p with state := { p.state with
          pending := p.state.pending ++ [access (BitVec.ofNat 16 (addr - p.base))] } }
    else p

/-- The interrupt inputs of the platform, each with its instance's level (R268). -/
def platformIrqs (ps : List Placed) : List (Nat × Bool) := ps.map fun p => (p.irqLine, irq p.state)

end Sys2Proof.Machine
end

