-- ==== Sys2Proof/Safety.lean ====
section
/-! DEFINITION. The terms in which claims about all runs are made: the invariant of the state, the visible results of an
operation, and the trust boundary. -/

namespace Sys2Proof.Machine

/-- The result flags of `ANOMALY` (bits 0, 1, 3 and 6) are 0 (R224, R225). -/
def noResultFlags (a : Anomaly) : Prop :=
  a.cnt1Mismatch = false ∧ a.cnt2Mismatch = false ∧ a.truncated = false ∧ a.bodySlack = false

/-- What every state between two events satisfies. -/
structure Inv (s : State) : Prop where
  /-- The frame buffer is in canonical form. -/
  memory : s.fb.wf = true
  /-- `C8_STRIDE` is legal (R8). -/
  stride : Config.c8StrideMin ≤ s.c8Stride
  /-- The cursor exists only inside a completion step (R52). -/
  noWalk : s.walk = none
  /-- While BUSY an operation is named, `DONE = 0`, `RESULT = NONE` and every result register is 0 (R46, R241). -/
  busyClean : s.phase = .busy →
    s.lastOp ≠ .none ∧ s.done = false ∧ s.result = .none ∧ s.results = zeroResults
  /-- With no operation since reset or CLEAR, nothing is running and nothing is recorded (R58, R243). -/
  noneClean : s.lastOp = .none →
    s.phase = .idle ∧ s.done = false ∧ s.result = .none ∧ s.results = zeroResults
  /-- An operation that is over has a result (R260). -/
  completed : s.phase = .idle → s.lastOp ≠ .none → s.result ≠ .none
  /-- A CRC operation ends only with OK or ERR_FRAME_LEN, and writes only `CRC_CALC` (R147, R148, R261). -/
  crcOnly : s.lastOp = .crc →
    (s.result = .none ∨ s.result = .ok ∨ s.result = .errFrameLen) ∧
      s.results = { zeroResults with crcCalc := s.results.crcCalc }
  /-- Without OK there are no records, no elements, no acknowledgment and no result flags (R225). -/
  failedClean : s.result ≠ .ok →
    s.results.recCount = 0 ∧ s.results.elemCount = 0 ∧ s.results.ack = 0 ∧ noResultFlags s.results.anomaly
  /-- Only ERR_MALFORMED records a position (R44, R265). -/
  noPosition : s.result ≠ .errMalformed → s.results.errPos = 0
  /-- The position lies in the body or at its end (R52, R187). -/
  position : s.result = .errMalformed →
    Config.hdrLen ≤ s.results.errPos.toNat ∧ s.results.errPos.toNat ≤ s.results.body.stop.toNat
  /-- After an OK DECODE the acknowledgment is record count 1 (R40, R223). -/
  ackIsN1 : s.lastOp = .decode → s.result = .ok → s.results.ack = s.results.hdr.n1.setWidth 32
  /-- The visible records are stored, at most `REC_MAX` (R41, R198). -/
  records : s.results.recCount.toNat ≤ s.recTable.length ∧ s.results.recCount.toNat ≤ Config.recMax
  /-- The visible elements are stored, at most 677 (R42, R198). -/
  elements : s.results.elemCount.toNat ≤ s.elemTable.length ∧ s.results.elemCount.toNat ≤ Config.elemBound
  /-- A header register is nonzero only after a header was parsed (R35-R39, R45). -/
  headerParsed : s.results.hdr.valid = false →
    s.results = { zeroResults with crcCalc := s.results.crcCalc }

/-- What an operation makes visible (R19, R229): its result code, every result register, and the table words a host can
read. -/
def sameResults (s t : State) : Prop :=
  s.phase = t.phase ∧ s.lastOp = t.lastOp ∧ s.result = t.result ∧ s.results = t.results ∧
    (∀ i w, readRecTable s i w = readRecTable t i w) ∧ (∀ j w, readElemTable s j w = readElemTable t j w)

/-- The frame in the buffer, `FB[0..L)`, carries a checksum that verifies: what `ACK_VALID = 1` promises (R314). -/
def frameVerified (s : State) : Prop := checksumVerifies s.fb s.frameLen.toNat = true

/-- The next step is the completion step of a running operation (R227, R249): its event is the next, or no event is left
(log entry 1). -/
def completing (op : LastOp) (s : State) : Prop :=
  s.phase = .busy ∧ s.lastOp = op ∧ (s.pending = [] ∨ ∃ rest, s.pending = .complete :: rest)

/-- `15 <= L <= 2048`: a frame whose header a DECODE parses (R102, R213). -/
def frameFits (s : State) : Prop := Config.minFrame ≤ s.frameLen.toNat ∧ s.frameLen.toNat ≤ Config.frameMax

/-- The header registers, `CRC_RECV` and `CRC_CALC` of `t` are those of the frame in `s`'s buffer (R213, R214). -/
def headerWritten (s t : State) : Prop :=
  t.results.preamble = BitVec.ofNat 32 (be s.fb 0 4) ∧
  t.results.dfl = BitVec.ofNat 32 (be s.fb 4 4) ∧
  t.results.hdr = ⟨s.fb.byte 8, s.fb.byte 9, s.fb.byte (s.frameLen.toNat - 5), true⟩ ∧
  t.results.body = ⟨10, BitVec.ofNat 12 (s.frameLen.toNat - 5)⟩ ∧
  t.results.crcRecv = BitVec.ofNat 32 (be s.fb (s.frameLen.toNat - 4) 4) ∧
  t.results.crcCalc = crc16arc (s.fb.range 8 (s.frameLen.toNat - 4))

/-- An event that lets a running operation go on (R248): an admitted host access that is no CLEAR. -/
def letsRun : Event → Bool
  | .read a n => admitted a n
  | .write a n v => admitted a n && !(decide (a = 0x0004) && decide (v.extractLsb' 0 4 = 0x3#4))
  | .complete => false
  | .reset => false
  | .powerOn => false

/-- A state a run can be in: reached from reset by steps, with the host's and the platform's events arriving in any
order (R86, R320). -/
inductive Reachable : State → Prop
  | reset : Reachable State.reset
  /-- The host or the platform queues one more event. -/
  | arrive (s : State) (e : Event) : Reachable s → Reachable { s with pending := s.pending ++ [e] }
  | step (s t : State) : Reachable s → Machine.step s = .next t → Reachable t

end Sys2Proof.Machine
end

