-- ==== Sys2Proof/Certificates/Slice0/Obligations.lean ====
section
/-! DEFINITION. The statements for the provers, in the order of OBLIGATIONS.json. That a step takes the first of the
`pending` events, the next of the one order of R86, is the model's choice (log entry 1); so is refusing the reserved
kinds by name (log entry 8). That a CLEAR and an error completion leave the stored entries of both tables as they were,
which U2 leaves unspecified, is the model's choice too (log entry 6): statements whose next state is written out say so
with it. -/

open Sys2Proof Sys2Proof.Machine

/-! ## Decoding, encoding, and the step that runs what is decoded -/

/-- Decode and encode agree on every well-formed instruction, at every value of every operand (R106, R123, R130). -/
def Obligations.DecodeOfEncodeIsTheInstruction : Prop :=
  ∀ i : Instr, i.wellFormed = true → decode (encode i) = i

/-- Every value of every opcode field decodes to a well-formed instruction that encodes back to it (R135). -/
def Obligations.EncodeOfDecodeIsTheFieldValue : Prop :=
  ∀ e : Encoded, (decode e).wellFormed = true ∧ encode (decode e) = e

/-- Every value of every opcode field matches the row it decodes to, and no other row but the default codec row
(R135). -/
def Obligations.EachFieldValueSelectsOneRow : Prop :=
  ∀ e : Encoded, rowMatches (rowOf (decode e)) e = true ∧
    ∀ r ∈ fixedRows, rowMatches r e = true → r = rowOf (decode e)

/-- Words written out from the tables of R106, R123 and R130 decode to the instructions they stand for. -/
def Obligations.WordsFromTheTablesDecode : Prop :=
  decode (.command 0x00000000) = .cmdNop 0 ∧
  decode (.command 0xFFFFFFF0) = .cmdNop 0xFFFFFFF ∧
  decode (.command 0x00000001) = .cmdDecode 0 ∧
  decode (.command 0x00000002) = .cmdCrc 0 ∧
  decode (.command 0x00000003) = .cmdClear 0 ∧
  decode (.command 0x00000007) = .cmdReserved47 3 0 ∧
  decode (.command 0x0000001E) = .cmdReserved8F 6 1 ∧
  decode (.codec 0x08) = .codec8 ∧
  decode (.codec 0x8E) = .codec8E ∧
  decode (.codec 0x10) = .codecUnrecognized 0x10 ∧
  decode (.kind 0) = .io1B ∧ decode (.kind 1) = .io2B ∧ decode (.kind 2) = .io4B ∧ decode (.kind 3) = .io8B ∧
  decode (.kind 4) = .ioNX ∧ decode (.kind 5) = .reservedKind5 ∧ decode (.kind 7) = .reservedKind67 1

/-- A step runs the instruction it decodes. A step whose next event is a write to `CTRL` is `exec` of the command the
written word decodes to (R130, R245), with the event taken off the list and the bus's answer set; a step that completes
a DECODE of a frame of legal length, by its event or with no event left (log entry 1), is `exec` of the row its codec byte
decodes to (R219), on the state with the header parsed. -/
def Obligations.StepRunsTheDecodedInstruction : Prop :=
  (∀ (s : State) (v : Word) (rest : List Event), s.pending = .write 0x0004 .w32 v :: rest →
    step s = exec (decode (.command v)) { s with pending := rest, response := .written }) ∧
  (∀ s : State, completing .decode s → frameFits s →
    step s = exec (decode (.codec (s.fb.byte 8))) (parseHeader { s with pending := s.pending.tail }))

/-! ## Host commands -/

/-- NOP does nothing, busy or not, whatever bits [31:4] of the word are (R240). -/
def Obligations.NopChangesNothing : Prop :=
  (∀ (ignored : BitVec 28) (s : State), exec (.cmdNop ignored) s = .next s) ∧
  ∀ v : Word, v.extractLsb' 0 4 = 0x0#4 → decode (.command v) = .cmdNop (v.extractLsb' 4 28)

/-- START of DECODE and of CRC while idle, and all they leave unchanged (R241). -/
def Obligations.StartBeginsAnOperation : Prop :=
  (∀ v : Word, (v.extractLsb' 0 4 = 0x1#4 → decode (.command v) = .cmdDecode (v.extractLsb' 4 28)) ∧
    (v.extractLsb' 0 4 = 0x2#4 → decode (.command v) = .cmdCrc (v.extractLsb' 4 28))) ∧
  ∀ (ignored : BitVec 28) (s : State), s.phase = .idle →
    exec (.cmdDecode ignored) s = .next
      { s with lastOp := .decode, result := .none, done := false, results := zeroResults, phase := .busy } ∧
    exec (.cmdCrc ignored) s = .next
      { s with lastOp := .crc, result := .none, done := false, results := zeroResults, phase := .busy } ∧
    ∀ t, (exec (.cmdDecode ignored) s = .next t ∨ exec (.cmdCrc ignored) s = .next t) →
      ackValid t = false ∧ irq t = false

/-- A START while busy and, busy or not, a reserved command set `BADCMD` and nothing else (R242, R244). -/
def Obligations.RefusedCommandsSetBadCmd : Prop :=
  (∀ v : Word, 0x4#4 ≤ v.extractLsb' 0 4 →
    (∃ low ignored, decode (.command v) = .cmdReserved47 low ignored) ∨
    ∃ low ignored, decode (.command v) = .cmdReserved8F low ignored) ∧
  ∀ (ignored : BitVec 28) (s : State),
    (s.phase = .busy →
      exec (.cmdDecode ignored) s = .next { s with badCmd := true } ∧
      exec (.cmdCrc ignored) s = .next { s with badCmd := true }) ∧
    (∀ low, exec (.cmdReserved47 low ignored) s = .next { s with badCmd := true }) ∧
    (∀ low, exec (.cmdReserved8F low ignored) s = .next { s with badCmd := true })

/-- CLEAR zeroes every `STATUS` field and result register, busy or not; `IRQ_EN`, `FRAME_LEN` and `FB` are kept; a second
CLEAR changes nothing more (R243). That the stored table entries are kept, which U2 leaves unspecified, and that the
temporaries of a completion step are dropped is the model's choice (log entries 6 and 14). -/
def Obligations.ClearCancelsAndKeepsConfiguration : Prop :=
  (∀ v : Word, v.extractLsb' 0 4 = 0x3#4 → decode (.command v) = .cmdClear (v.extractLsb' 4 28)) ∧
  ∀ (ignored : BitVec 28) (s : State), ∃ t,
    exec (.cmdClear ignored) s = .next t ∧ exec (.cmdClear ignored) t = .next t ∧
    t = { s with
      phase := .idle, done := false, badCmd := false, wErr := false, result := .none, lastOp := .none,
      results := zeroResults, walk := none } ∧
    statusWord t = 0 ∧ irq t = false

/-- Bits [31:4] of a word written to `CTRL` make no difference (R130). -/
def Obligations.CommandHighBitsAreIgnored : Prop :=
  ∀ (v v' : Word) (s : State), v.extractLsb' 0 4 = v'.extractLsb' 0 4 →
    exec (decode (.command v)) s = exec (decode (.command v')) s

/-! ## CRC -/

/-- The completion of a CRC operation (R147): the CRC of `FB[0..L)` and OK, or ERR_FRAME_LEN; no other register is
written. That the stored table entries are kept over the error is the model's choice (log entry 6; U2). -/
def Obligations.CrcCompletionWritesTheCrc : Prop :=
  ∀ s : State, completing .crc s → s.results = zeroResults → s.walk = none →
    (s.frameLen.toNat ≤ 2048 → step s = .next
      { s with phase := .idle, done := true, result := .ok, pending := s.pending.tail,
               results := { zeroResults with crcCalc := crc16arc (s.fb.range 0 s.frameLen.toNat) } }) ∧
    (2048 < s.frameLen.toNat → step s = .next
      { s with phase := .idle, done := true, result := .errFrameLen, pending := s.pending.tail })

/-- The CRC is the function of R140: 0 of no bytes; each further byte enters at the low end and is followed by eight
shifts; a shift moves every bit down by one and, where a 1 falls out, turns bits 15, 13 and 0 over, which is the
polynomial `0xA001`, the CRC of the byte `0x80` (vector TC-5). Leading zero bytes do not change the CRC, and a sequence
followed by its own CRC, low byte first, has CRC 0: laws that the spec derives from R140 and takes from general knowledge
(its sentences R144 and R145). -/
def Obligations.CrcIsTheReflectedPolynomialWithItsLaws : Prop :=
  crc16arc [] = 0 ∧ crc16arc [0x80] = 0xA001 ∧
  (∀ (d : List Byte) (x : Byte), crc16arc (d ++ [x]) = crcShift^[8] (crc16arc d ^^^ x.setWidth 16)) ∧
  (∀ (c : BitVec 16) (k : Nat), k < 16 → (crcShift c).getLsbD k =
    (c.getLsbD (k + 1) ^^ (c.getLsbD 0 && decide (k = 15 ∨ k = 13 ∨ k = 0)))) ∧
  ∀ d : List Byte,
    (∀ k : Nat, crc16arc (List.replicate k 0 ++ d) = crc16arc d) ∧
    crc16arc (d ++ [(crc16arc d).extractLsb' 0 8, (crc16arc d).extractLsb' 8 8]) = 0

/-- Changing any one byte of a sequence, in however many of its bits, changes the CRC; so every single-bit error is
detected, which the spec takes from general knowledge (its sentence R146). -/
def Obligations.CrcDetectsEveryChangeOfOneByte : Prop :=
  ∀ (a b : List Byte) (x y : Byte), x ≠ y → crc16arc (a ++ x :: b) ≠ crc16arc (a ++ y :: b)

/-! ## The completion of a DECODE -/

/-- A DECODE of more than 2048 or fewer than 15 bytes ends with ERR_FRAME_LEN or ERR_SHORT_FRAME; every result register
stays 0 (R211, R212). That the stored table entries are kept is the model's choice (log entry 6; U2). -/
def Obligations.BadFrameLengthsAreReported : Prop :=
  ∀ s : State, completing .decode s → s.results = zeroResults → s.walk = none →
    (2048 < s.frameLen.toNat → step s = .next
      { s with phase := .idle, done := true, result := .errFrameLen, pending := s.pending.tail }) ∧
    (s.frameLen.toNat < 15 → step s = .next
      { s with phase := .idle, done := true, result := .errShortFrame, pending := s.pending.tail })

/-- Whatever its result, a DECODE of a frame of legal length writes the header registers from their fixed offsets, and
the CRC of `FB[8..L-4)` (R213, R214). -/
def Obligations.HeaderRegistersAreWrittenWhateverTheResult : Prop :=
  ∀ s : State, completing .decode s → frameFits s → ∃ t, step s = .next t ∧ headerWritten s t ∧ t.fb = s.fb

/-- The result of a DECODE is the first cause that holds, in the order of R262; ERR_MALFORMED exactly when the N1
records of a Codec 8E body, laid out by their counts and lengths (R112), do not fit in it. -/
def Obligations.DecodeResultIsTheFirstCauseThatHolds : Prop :=
  ∀ s : State, completing .decode s → ∃ t, step s = .next t ∧
    t.result =
      if 2048 < s.frameLen.toNat then .errFrameLen
      else if s.frameLen.toNat < 15 then .errShortFrame
      else if s.fb.byte 8 ≠ 0x08 ∧ s.fb.byte 8 ≠ 0x8E then .errCodec
      else if (crc16arc (s.fb.range 8 (s.frameLen.toNat - 4))).setWidth 32 ≠
          BitVec.ofNat 32 (be s.fb (s.frameLen.toNat - 4) 4) then .errCrc
      else if s.fb.byte 8 = 0x8E ∧ s.frameLen.toNat - 5 < recordStart s.fb (s.fb.byte 9).toNat then .errMalformed
      else .ok

/-- A completion step ends its operation: IDLE, `DONE = 1`, `LASTOP` as START left it, no change of `BADCMD`, `WERR`,
`IRQ_EN`, `FRAME_LEN` or the frame buffer (R227). That it takes its event off the list, or comes with no event left, and
keeps the bus's last answer is the model's choice (log entries 1 and 13). -/
def Obligations.CompletionEndsTheOperation : Prop :=
  ∀ (s : State) (op : LastOp), op ≠ .none → completing op s → ∃ t, step s = .next t ∧
    t.phase = .idle ∧ t.done = true ∧ t.lastOp = s.lastOp ∧ t.walk = none ∧ t.badCmd = s.badCmd ∧
    t.wErr = s.wErr ∧ t.ieDone = s.ieDone ∧ t.ieErr = s.ieErr ∧ t.frameLen = s.frameLen ∧ t.fb = s.fb ∧
    t.c8Stride = s.c8Stride ∧ t.pending = s.pending.tail ∧ t.response = s.response

/-- After any result but OK there are no records, elements or acknowledgment, the result flags are 0, every word of both
tables reads 0, and `ERR_POS` is 0 except after ERR_MALFORMED; the header registers hold what R213 writes where the
frame's length is legal, and every result register is 0 where it is not (R225). -/
def Obligations.FailedDecodeShowsNothing : Prop :=
  ∀ s t : State, completing .decode s → s.results = zeroResults → step s = .next t → t.result ≠ .ok →
    t.results.recCount = 0 ∧ t.results.elemCount = 0 ∧ t.results.ack = 0 ∧ noResultFlags t.results.anomaly ∧
    (∀ i w, readRecTable t i w = 0) ∧ (∀ j w, readElemTable t j w = 0) ∧
    (t.result ≠ .errMalformed → t.results.errPos = 0) ∧ (frameFits s → headerWritten s t) ∧
    (¬ frameFits s → t.results = zeroResults)

/-- The trust boundary: with a checksum that does not verify, nothing of the body becomes visible, and the result is the
one the codec byte alone gives (R218). That the stored table entries, too, are as they were is the model's choice (log
entry 6; U2). -/
def Obligations.NothingVisibleUnlessChecksumVerifies : Prop :=
  ∀ s : State, completing .decode s → frameFits s →
    (crc16arc (s.fb.range 8 (s.frameLen.toNat - 4))).setWidth 32 ≠
      BitVec.ofNat 32 (be s.fb (s.frameLen.toNat - 4) 4) →
    ∃ t, step s = .next t ∧
      t.result = (if s.fb.byte 8 ≠ 0x08 ∧ s.fb.byte 8 ≠ 0x8E then .errCodec else .errCrc) ∧
      ackValid t = false ∧ t.results.recCount = 0 ∧ t.results.elemCount = 0 ∧
      t.results.ack = 0 ∧ t.recTable = s.recTable ∧ t.elemTable = s.elemTable ∧
      (∀ i w, readRecTable t i w = 0) ∧ (∀ j w, readElemTable t j w = 0)

/-- On OK the acknowledgment is record count 1, not the number of records decoded, and the host sends it as
`00 00 00 N1` (R223, R283). -/
def Obligations.AcknowledgmentIsRecordCountOne : Prop :=
  ∀ s t : State, completing .decode s → step s = .next t → t.result = .ok →
    t.results.ack = (s.fb.byte 9).setWidth 32 ∧ hostReply t = some [0, 0, 0, s.fb.byte 9]

/-- The eight anomaly flags: the header flags of every DECODE that parses the header, the result flags on OK and 0 on any
other result (R224). -/
def Obligations.AnomalyFlagsAreAsTheTableSays : Prop :=
  ∀ s t : State, completing .decode s → frameFits s → 24 ≤ s.c8Stride → s.results = zeroResults → step s = .next t →
    let a := t.results.anomaly
    a.cnt12Mismatch = decide (s.fb.byte 9 ≠ s.fb.byte (s.frameLen.toNat - 5)) ∧
    a.dflGtBody = decide (be s.fb 4 4 > s.frameLen.toNat - 15) ∧
    a.preambleNz = decide (be s.fb 0 4 ≠ 0) ∧
    a.crcHiNz = decide (be s.fb (s.frameLen.toNat - 4) 2 ≠ 0) ∧
    (t.result = .ok →
      a.cnt1Mismatch = decide ((s.fb.byte 9).toNat ≠ t.results.recCount.toNat) ∧
      a.cnt2Mismatch = decide ((s.fb.byte (s.frameLen.toNat - 5)).toNat ≠ t.results.recCount.toNat) ∧
      a.truncated = decide (s.fb.byte 8 = 0x08 ∧ t.results.recCount.toNat < (s.fb.byte 9).toNat) ∧
      a.bodySlack = decide ((if s.fb.byte 8 = 0x08 then 10 + t.results.recCount.toNat * s.c8Stride
        else recordStart s.fb (s.fb.byte 9).toNat) < s.frameLen.toNat - 5)) ∧
    (t.result ≠ .ok → noResultFlags a)

/-- The results of an operation depend on the frame bytes `FB[0..L)`, on `L` and on `C8_STRIDE` alone (R229); a legal
`C8_STRIDE` is at least 24 (R8). -/
def Obligations.ResultsDependOnTheFrameAlone : Prop :=
  ∀ (s s' : State) (op : LastOp), op ≠ .none → completing op s → completing op s' → 24 ≤ s.c8Stride →
    s.results = zeroResults → s'.results = zeroResults → s.frameLen = s'.frameLen → s.c8Stride = s'.c8Stride →
    (∀ k, k < s.frameLen.toNat → s.fb.byte k = s'.fb.byte k) →
    ∃ t t', step s = .next t ∧ step s' = .next t' ∧ sameResults t t'

/-! ## Codec rows -/

/-- The codec bytes 0x08 and 0x8E route to their codecs and every other to `CODEC_UNRECOGNIZED`, which ends the DECODE
with ERR_CODEC and keeps the header registers, whatever the checksum (R215, R216). That the stored table entries are kept
is the model's choice (log entry 6; U2). -/
def Obligations.UnrecognizedCodecEndsWithErrCodec : Prop :=
  decode (.codec 0x08) = .codec8 ∧ decode (.codec 0x8E) = .codec8E ∧
  ∀ (s : State) (codec : Byte), codec ≠ 0x08 → codec ≠ 0x8E → s.phase = .busy →
    s.lastOp = .decode → frameFits s → s.fb.byte 8 = codec →
    decode (.codec codec) = .codecUnrecognized codec ∧ exec (.codecUnrecognized codec) s = .next
      { s with
        phase := .idle, done := true, walk := none, result := .errCodec
        results := { s.results with
          recCount := 0, elemCount := 0, ack := 0,
          anomaly := { s.results.anomaly with
            cnt1Mismatch := false, cnt2Mismatch := false, truncated := false, bodySlack := false } } }

/-- With a recognized codec whose checksum differs in any of its 32 bits, the DECODE ends with ERR_CRC and no records
(R217). That the stored table entries are kept is the model's choice (log entry 6; U2). -/
def Obligations.ChecksumMismatchEndsWithErrCrc : Prop :=
  ∀ (s : State) (i : Instr), s.phase = .busy → s.lastOp = .decode → frameFits s →
    (i = .codec8 ∧ s.fb.byte 8 = 0x08 ∨ i = .codec8E ∧ s.fb.byte 8 = 0x8E) →
    (crc16arc (s.fb.range 8 (s.frameLen.toNat - 4))).setWidth 32 ≠
      BitVec.ofNat 32 (be s.fb (s.frameLen.toNat - 4) 4) →
    exec i s = .next
      { s with
        phase := .idle, done := true, walk := none, result := .errCrc
        results := { s.results with
          recCount := 0, elemCount := 0, ack := 0,
          anomaly := { s.results.anomaly with
            cnt1Mismatch := false, cnt2Mismatch := false, truncated := false, bodySlack := false } } }

/-- `CODEC8` on a verified frame: `min(N1, (L-15)/stride)` records, at consecutive strides from offset 10, no elements,
and the OK end (R161, R169, R222, R223). -/
def Obligations.Codec8UnpacksTheRecordsThatFit : Prop :=
  ∀ s : State, s.phase = .busy → s.lastOp = .decode → frameFits s → s.fb.byte 8 = 0x08 → 24 ≤ s.c8Stride →
    frameVerified s →
    let n1 := (s.fb.byte 9).toNat
    let n2 := (s.fb.byte (s.frameLen.toNat - 5)).toNat
    let k := min n1 ((s.frameLen.toNat - 15) / s.c8Stride)
    exec .codec8 s = .next
      { s with
        phase := .idle, done := true, walk := none, result := .ok
        recTable := (List.range k).map (fun i => record8 s.fb s.c8Stride (10 + i * s.c8Stride)) ++ s.recTable.drop k
        elemTable := s.elemTable
        results := { s.results with
          recCount := BitVec.ofNat 9 k, elemCount := 0, ack := BitVec.ofNat 32 n1
          anomaly := { s.results.anomaly with
            cnt1Mismatch := decide (n1 ≠ k), cnt2Mismatch := decide (n2 ≠ k), truncated := decide (k < n1)
            bodySlack := decide (10 + k * s.c8Stride < s.frameLen.toNat - 5) } } }

/-- What the host reads of a Codec 8 record: every field at its wire offset, the fields Codec 8 lacks 0 (R107, R120,
R162); slots past the count read 0. -/
def Obligations.Codec8RecordWordsRead : Prop :=
  ∀ s t : State, completing .decode s → s.fb.byte 8 = 0x08 → 24 ≤ s.c8Stride → step s = .next t → t.result = .ok →
    ∀ i, (i < t.results.recCount.toNat →
      let b := 10 + i * s.c8Stride
      readRecTable t i 0 = BitVec.ofNat 32 (be s.fb (b + 4) 4) ∧
      readRecTable t i 1 = BitVec.ofNat 32 (be s.fb b 4) ∧
      readRecTable t i 2 = BitVec.ofNat 32 (be s.fb (b + 9) 4) ∧
      readRecTable t i 3 = BitVec.ofNat 32 (be s.fb (b + 13) 4) ∧
      readRecTable t i 4 = BitVec.ofNat 16 (be s.fb (b + 19) 2) ++ BitVec.ofNat 16 (be s.fb (b + 17) 2) ∧
      readRecTable t i 5 = BitVec.ofNat 16 (be s.fb (b + 22) 2) ++ s.fb.byte (b + 21) ++ s.fb.byte (b + 8) ∧
      (∀ w, 6 ≤ w → w ≤ 9 → readRecTable t i w = 0) ∧
      readRecTable t i 10 = BitVec.ofNat 16 s.c8Stride ++ BitVec.ofNat 16 b ∧
      readRecTable t i 11 = 0x08 ∧ (∀ w, 12 ≤ w → readRecTable t i w = 0)) ∧
    (t.results.recCount.toNat ≤ i → ∀ w, readRecTable t i w = 0)

/-- A Codec 8 record does not depend on its bytes from offset 24 on (R163). -/
def Obligations.Codec8RecordIgnoresItsLastBytes : Prop :=
  ∀ (m m' : Memory) (stride b : Nat), (∀ k, b ≤ k → k < b + 24 → m.byte k = m'.byte k) →
    record8 m stride b = record8 m' stride b

/-- `CODEC8E` on a verified frame whose N1 records, laid out by R109-R112, fit in the body: exactly those records and
their elements, and the OK end (R181, R182, R189, R196). -/
def Obligations.Codec8EUnpacksTheWholeBody : Prop :=
  ∀ s : State, s.phase = .busy → s.lastOp = .decode → frameFits s → s.fb.byte 8 = 0x8E → frameVerified s →
    let n1 := (s.fb.byte 9).toNat
    let n2 := (s.fb.byte (s.frameLen.toNat - 5)).toNat
    recordStart s.fb n1 ≤ s.frameLen.toNat - 5 →
    exec .codec8E s = .next
      { s with
        phase := .idle, done := true, walk := none, result := .ok
        recTable := bodyRecords s.fb n1 ++ s.recTable.drop n1
        elemTable := bodyElems s.fb n1 ++ s.elemTable.drop (elemsBefore s.fb n1)
        results := { s.results with
          recCount := BitVec.ofNat 9 n1, elemCount := BitVec.ofNat 11 (elemsBefore s.fb n1), ack := BitVec.ofNat 32 n1
          anomaly := { s.results.anomaly with
            cnt1Mismatch := false, cnt2Mismatch := decide (n2 ≠ n1), truncated := false
            bodySlack := decide (recordStart s.fb n1 < s.frameLen.toNat - 5) } } }

/-- `CODEC8E` on a verified frame whose N1 records do not fit: ERR_MALFORMED at the field, of one of the records, that the
end of the body cuts (R187, R190), and no records, no elements, no acknowledgment. The fields of a record follow one
another with no gap, so there is one such field. That the stored table entries are kept is the model's choice (log entry
6; U2). -/
def Obligations.Codec8EOverrunFailsWhole : Prop :=
  ∀ s : State, s.phase = .busy → s.lastOp = .decode → frameFits s → s.fb.byte 8 = 0x8E → frameVerified s →
    s.frameLen.toNat - 5 < recordStart s.fb (s.fb.byte 9).toNat →
    ∃ pos k len, k < (s.fb.byte 9).toNat ∧ (pos, len) ∈ recordFields s.fb (recordStart s.fb k) ∧
      10 ≤ pos ∧ pos ≤ s.frameLen.toNat - 5 ∧ s.frameLen.toNat - 5 < pos + len ∧ exec .codec8E s = .next
      { s with
        phase := .idle, done := true, walk := none, result := .errMalformed
        results := { s.results with
          errPos := BitVec.ofNat 12 pos, recCount := 0, elemCount := 0, ack := 0,
          anomaly := { s.results.anomaly with
            cnt1Mismatch := false, cnt2Mismatch := false, truncated := false, bodySlack := false } } }

/-- A body that ends exactly after record `k < N1` fails at the body's end (R191). -/
def Obligations.Codec8EShortOfARecordFailsAtBodyEnd : Prop :=
  ∀ (s : State) (k : Nat), s.phase = .busy → s.lastOp = .decode → frameFits s → s.fb.byte 8 = 0x8E →
    frameVerified s → k < (s.fb.byte 9).toNat → recordStart s.fb k = s.frameLen.toNat - 5 →
    ∃ t, exec .codec8E s = .next t ∧ t.result = .errMalformed ∧
      t.results.errPos = BitVec.ofNat 12 (s.frameLen.toNat - 5)

/-- A record of the walk is its fixed part, then the five I/O rows in the order 1B, 2B, 4B, 8B, NX, each one `exec`, then
its entry (R185). -/
def Obligations.RecordRunsTheFiveGroupsInOrder : Prop :=
  ∀ s s1 s2 s4 s8 sx : State,
    exec .io1B (runWalk fixedPart s) = .next s1 → exec .io2B s1 = .next s2 → exec .io4B s2 = .next s4 →
    exec .io8B s4 = .next s8 → exec .ioNX s8 = .next sx →
    record8E s = .next (runWalk closeRecord sx)

/-- The element count of a successful DECODE is exact, at most 677, and the visible elements are in record order
(R196, R198). -/
def Obligations.ElementsAreBoundedAndInRecordOrder : Prop :=
  ∀ s t : State, completing .decode s → s.fb.byte 8 = 0x8E → step s = .next t → t.result = .ok →
    t.results.elemCount.toNat = elemsBefore s.fb (s.fb.byte 9).toNat ∧ t.results.elemCount.toNat ≤ 677 ∧
    ∀ (j k : Nat) (e f : ElemEntry), j ≤ k → k < t.results.elemCount.toNat →
      t.elemTable[j]? = some e → t.elemTable[k]? = some f → e.recIdx.toNat ≤ f.recIdx.toNat

/-- The length of each visible Codec 8E record is the formula of R112 over its own counts and the lengths of its own NX
elements. -/
def Obligations.RecordLengthFollowsItsCounts : Prop :=
  ∀ (s t : State) (i : Nat) (e : RecEntry), completing .decode s → s.fb.byte 8 = 0x8E → step s = .next t →
    t.result = .ok → i < t.results.recCount.toNat → t.recTable[i]? = some e →
    let fixed := e.elemFirst.toNat + e.cnt1B.toNat + e.cnt2B.toNat + e.cnt4B.toNat + e.cnt8B.toNat
    e.recLen.toNat = 38 + 3 * e.cnt1B.toNat + 4 * e.cnt2B.toNat + 6 * e.cnt4B.toNat + 10 * e.cnt8B.toNat +
      4 * e.cntNX.toNat + (((t.elemTable.drop fixed).take e.cntNX.toNat).map (fun x => x.vlen.toNat)).sum

/-! ## I/O group rows -/

/-- A fixed-width group whose elements all fit: its count and its elements, with the cursor at its end (R183). -/
def Obligations.FixedGroupsDecodeTheirElements : Prop :=
  ∀ (s : State) (w : Walk) (i : Instr) (width : Nat) (kind : BitVec 3) (setCount : Half → RecEntry → RecEntry),
    (i = .io1B ∧ width = 1 ∧ kind = 0 ∧ setCount = (fun n e => { e with cnt1B := n }) ∨
      i = .io2B ∧ width = 2 ∧ kind = 1 ∧ setCount = (fun n e => { e with cnt2B := n }) ∨
      i = .io4B ∧ width = 4 ∧ kind = 2 ∧ setCount = (fun n e => { e with cnt4B := n }) ∨
      i = .io8B ∧ width = 8 ∧ kind = 3 ∧ setCount = (fun n e => { e with cnt8B := n })) →
    s.walk = some w → w.cur + 2 + be s.fb w.cur 2 * (2 + width) ≤ w.bodyEnd →
    exec i s = .next { s with walk := some { w with
      cur := w.cur + 2 + be s.fb w.cur 2 * (2 + width)
      entry := setCount (BitVec.ofNat 16 (be s.fb w.cur 2)) w.entry
      elems := w.elems ++ (List.range (be s.fb w.cur 2)).map fun k =>
        fixedElemAt s.fb w.recs.length width kind (w.cur + 2 + k * (2 + width)) } }

/-- The NX group whose elements all fit (R184). -/
def Obligations.NxGroupDecodesItsElements : Prop :=
  ∀ (s : State) (w : Walk), s.walk = some w → nxGroupEnd s.fb w.cur ≤ w.bodyEnd →
    exec .ioNX s = .next { s with walk := some { w with
      cur := nxGroupEnd s.fb w.cur
      entry := { w.entry with cntNX := BitVec.ofNat 16 (be s.fb w.cur 2) }
      elems := w.elems ++ (List.range (be s.fb w.cur 2)).map fun k =>
        nxElemAt s.fb w.recs.length (nxElemStart s.fb w.cur k) } }

/-- A record that overruns the body fails the DECODE at the first field that does not fit (R190): one of the ten fields of
its fixed part (a), a group's count (b), an element's id or value (c), an NX element's length or value (d); a value fails
at its first byte. What failing does is `FailingRecordsThePositionAndDiscards`. -/
def Obligations.RecordOverrunPosition : Prop :=
  ∀ (s : State) (w : Walk), s.walk = some w →
    (∀ o n, (o, n) ∈ fixedFields w.cur → o ≤ w.bodyEnd → w.bodyEnd < o + n →
      record8E s = .next (failMalformed o s)) ∧
    (∀ (i : Instr) (width : Nat),
      (i = .io1B ∧ width = 1 ∨ i = .io2B ∧ width = 2 ∨ i = .io4B ∧ width = 4 ∨ i = .io8B ∧ width = 8) →
      (w.bodyEnd < w.cur + 2 → exec i s = .next (failMalformed w.cur s)) ∧
      ∀ k, k < be s.fb w.cur 2 →
        let p := w.cur + 2 + k * (2 + width)
        p ≤ w.bodyEnd →
        (w.bodyEnd < p + 2 → exec i s = .next (failMalformed p s)) ∧
        (p + 2 ≤ w.bodyEnd → w.bodyEnd < p + 2 + width → exec i s = .next (failMalformed (p + 2) s))) ∧
    (w.bodyEnd < w.cur + 2 → exec .ioNX s = .next (failMalformed w.cur s)) ∧
    ∀ k, k < be s.fb w.cur 2 →
      let p := nxElemStart s.fb w.cur k
      p ≤ w.bodyEnd →
      (w.bodyEnd < p + 2 → exec .ioNX s = .next (failMalformed p s)) ∧
      (p + 2 ≤ w.bodyEnd → w.bodyEnd < p + 4 → exec .ioNX s = .next (failMalformed (p + 2) s)) ∧
      (p + 4 ≤ w.bodyEnd → w.bodyEnd < p + 4 + be s.fb (p + 2) 2 →
        exec .ioNX s = .next (failMalformed (p + 4) s))

/-- What failing an operation at a position does (R226, R264, R265). That the stored table entries are kept and the
temporaries of the completion step are dropped is the model's choice (log entries 6 and 14; U2). -/
def Obligations.FailingRecordsThePositionAndDiscards : Prop :=
  ∀ (s : State) (pos : Nat), failMalformed pos s =
    { s with
      phase := .idle, done := true, walk := none, result := .errMalformed
      results := { s.results with
        errPos := BitVec.ofNat 12 pos, recCount := 0, elemCount := 0, ack := 0,
        anomaly := { s.results.anomaly with
          cnt1Mismatch := false, cnt2Mismatch := false, truncated := false, bodySlack := false } } }

/-- The reserved element kinds, which are never produced, are refused by name (R123). -/
def Obligations.ReservedKindsAreRefused : Prop :=
  ∀ (s : State) (low : BitVec 1), exec .reservedKind5 s = .refused (.reservedKind 5) ∧
    exec (.reservedKind67 low) s = .refused (.reservedKind (0b11#2 ++ low))

/-! ## Host bus -/

/-- An access its region does not admit ends in `BusError` at its offset (R76, R77); an admitted read answers with the
value at its offset and changes nothing else (R80). -/
def Obligations.AccessesAreAdmittedOrRaiseBusError : Prop :=
  ∀ (s : State) (a : BitVec 16) (n : Width) (v : Word) (rest : List Event),
    ((s.pending = .read a n :: rest ∨ s.pending = .write a n v :: rest) →
      (0x0800 ≤ a.toNat ∧ a.toNat < 0x1000 ∧ a.toNat % n.bytes ≠ 0 ∨
        ¬ (0x0800 ≤ a.toNat ∧ a.toNat < 0x1000) ∧ (n ≠ .w32 ∨ a.toNat % 4 ≠ 0)) →
      step s = .fault (.busError a)) ∧
    (s.pending = .read a n :: rest →
      (0x0800 ≤ a.toNat ∧ a.toNat < 0x1000 ∧ a.toNat % n.bytes = 0 ∨
        ¬ (0x0800 ≤ a.toNat ∧ a.toNat < 0x1000) ∧ n = .w32 ∧ a.toNat % 4 = 0) →
      step s = .next { s with pending := rest, response := .data (readValue s a.toNat n) })

/-- The frame buffer read in each width is its bytes in little-endian lanes (R75), which is the reverse of the big-endian
field of the same bytes (R84). -/
def Obligations.FrameBufferReadsAreLittleEndian : Prop :=
  ∀ (s : State) (k : Nat), k < 2048 →
    readValue s (0x0800 + k) .w8 = (s.fb.byte k).setWidth 32 ∧
    (k % 2 = 0 → readValue s (0x0800 + k) .w16 = (s.fb.byte (k + 1) ++ s.fb.byte k).setWidth 32) ∧
    (k % 4 = 0 →
      readValue s (0x0800 + k) .w32 = s.fb.byte (k + 3) ++ s.fb.byte (k + 2) ++ s.fb.byte (k + 1) ++ s.fb.byte k ∧
      BitVec.ofNat 32 (be s.fb k 4) = s.fb.byte k ++ s.fb.byte (k + 1) ++ s.fb.byte (k + 2) ++ s.fb.byte (k + 3))

/-- An admitted frame buffer write while idle stores byte `i` of the word at offset `i` and no other byte, and changes
nothing else (R75, R78). -/
def Obligations.FrameBufferWritesStoreTheirBytes : Prop :=
  ∀ (s : State) (a : BitVec 16) (n : Width) (v : Word) (rest : List Event), s.phase = .idle →
    s.pending = .write a n v :: rest → 0x0800 ≤ a.toNat → a.toNat < 0x1000 → a.toNat % n.bytes = 0 →
    ∃ t, step s = .next t ∧ t = { s with pending := rest, response := .written, fb := t.fb } ∧
      (∀ i, i < n.bytes → t.fb.byte (a.toNat - 0x0800 + i) = v.extractLsb' (8 * i) 8) ∧
      (∀ k, (k < a.toNat - 0x0800 ∨ a.toNat - 0x0800 + n.bytes ≤ k) → t.fb.byte k = s.fb.byte k) ∧
      (s.fb.wf = true → t.fb.wf = true)

/-- A write to the frame buffer or to `FRAME_LEN` while busy is dropped and sets `WERR` (R29, R78). -/
def Obligations.InputWritesWhileBusyAreDropped : Prop :=
  ∀ (s : State) (a : BitVec 16) (n : Width) (v : Word) (rest : List Event), s.phase = .busy →
    s.pending = .write a n v :: rest →
    (0x0800 ≤ a.toNat ∧ a.toNat < 0x1000 ∧ a.toNat % n.bytes = 0 ∨ a = 0x0010 ∧ n = .w32) →
    step s = .next { s with pending := rest, response := .written, wErr := true }

/-- Writes to the writable registers while idle or busy: `STATUS` clears what bits 1, 3 and 4 name, `IRQ_EN` takes bits 0
and 1, `FRAME_LEN` takes bits [11:0] while idle (R32, R33, R34). -/
def Obligations.RegisterWritesTakeEffect : Prop :=
  ∀ (s : State) (v : Word) (rest : List Event),
    (s.pending = .write 0x0008 .w32 v :: rest → step s = .next
      { s with pending := rest, response := .written,
               done := if v.getLsbD 1 then false else s.done,
               badCmd := if v.getLsbD 3 then false else s.badCmd,
               wErr := if v.getLsbD 4 then false else s.wErr }) ∧
    (s.pending = .write 0x000C .w32 v :: rest → step s = .next
      { s with pending := rest, response := .written, ieDone := v.getLsbD 0, ieErr := v.getLsbD 1 }) ∧
    (s.phase = .idle → s.pending = .write 0x0010 .w32 v :: rest → step s = .next
      { s with pending := rest, response := .written, frameLen := BitVec.ofNat 12 v.toNat })

/-- An admitted write to `ID`, to a result register, to a result table or to a reserved offset changes nothing, and an
admitted read of a reserved offset returns 0 (R79). -/
def Obligations.ReservedOffsetsReadZeroAndWritesElsewhereAreIgnored : Prop :=
  ∀ (s : State) (a : BitVec 16) (v : Word) (rest : List Event), a.toNat % 4 = 0 →
    (s.pending = .write a .w32 v :: rest → ¬ (0x0800 ≤ a.toNat ∧ a.toNat < 0x1000) →
      a ≠ 0x0004 → a ≠ 0x0008 → a ≠ 0x000C → a ≠ 0x0010 →
      step s = .next { s with pending := rest, response := .written }) ∧
    (s.pending = .read a .w32 :: rest →
      (0x40 ≤ a.toNat ∧ a.toNat < 0x0800 ∨ 0x5000 ≤ a.toNat ∧ a.toNat < 0x8000 ∨ 0xC000 ≤ a.toNat) →
      step s = .next { s with pending := rest, response := .data 0 })

/-- What every register reads: the constant `ID`, `CTRL` as 0, every field of every other register at its bits with every
other bit 0, the code of each result and of each operation, and 0 at every reserved offset and in slot 255 of the record
table (R22-R24, R27, R30, R31, R33-R45, R47, R73, R79). -/
def Obligations.RegistersReadTheirFields : Prop :=
  ∀ s : State,
    readValue s 0x00 .w32 = 0x46445244 ∧ readValue s 0x04 .w32 = 0 ∧
    (readValue s 0x08 .w32).toNat =
      (if s.phase = .busy then 1 else 0) + 2 * s.done.toNat +
      4 * (if s.phase = .idle ∧ s.lastOp = .decode ∧ s.result = .ok then 1 else 0) + 8 * s.badCmd.toNat +
      16 * s.wErr.toNat +
      256 * (match s.result with
        | .none => 0 | .ok => 1 | .errFrameLen => 2 | .errShortFrame => 3 | .errCodec => 4 | .errCrc => 5
        | .errMalformed => 6) +
      4096 * (match s.lastOp with | .none => 0 | .decode => 1 | .crc => 2) ∧
    (readValue s 0x0C .w32).toNat = s.ieDone.toNat + 2 * s.ieErr.toNat ∧
    (readValue s 0x10 .w32).toNat = s.frameLen.toNat ∧
    readValue s 0x14 .w32 = s.results.preamble ∧
    readValue s 0x18 .w32 = s.results.dfl ∧
    (readValue s 0x1C .w32).toNat = s.results.hdr.codec.toNat + 256 * s.results.hdr.n1.toNat +
      65536 * s.results.hdr.n2.toNat + 2147483648 * s.results.hdr.valid.toNat ∧
    (readValue s 0x20 .w32).toNat = s.results.crcCalc.toNat ∧
    readValue s 0x24 .w32 = s.results.crcRecv ∧
    readValue s 0x28 .w32 = s.results.ack ∧
    (readValue s 0x2C .w32).toNat = s.results.recCount.toNat ∧
    (readValue s 0x30 .w32).toNat = s.results.elemCount.toNat ∧
    (readValue s 0x34 .w32).toNat = s.results.anomaly.cnt1Mismatch.toNat + 2 * s.results.anomaly.cnt2Mismatch.toNat +
      4 * s.results.anomaly.cnt12Mismatch.toNat + 8 * s.results.anomaly.truncated.toNat +
      16 * s.results.anomaly.dflGtBody.toNat + 32 * s.results.anomaly.preambleNz.toNat +
      64 * s.results.anomaly.bodySlack.toNat + 128 * s.results.anomaly.crcHiNz.toNat ∧
    (readValue s 0x38 .w32).toNat = s.results.errPos.toNat ∧
    (readValue s 0x3C .w32).toNat = s.results.body.start.toNat + 65536 * s.results.body.stop.toNat ∧
    (∀ a, a % 4 = 0 → (0x40 ≤ a ∧ a < 0x800 ∨ 0x4FC0 ≤ a ∧ a < 0x8000 ∨ 0xC000 ≤ a ∧ a < 0x10000) →
      readValue s a .w32 = 0)

/-- A table word reads 0 unless `BUSY = 0`, `LASTOP = DECODE`, `RESULT = OK` and its entry is below the count; else it
reads the stored entry's word (R49, R50), at the address of R73 or R74. Slot 255 of the record table always reads 0. -/
def Obligations.ResultTablesAreGated : Prop :=
  ∀ (s : State) (i w : Nat),
    (i < 256 → w < 16 →
      (i = 255 ∨ ¬ (s.phase = .idle ∧ s.lastOp = .decode ∧ s.result = .ok ∧ i < s.results.recCount.toNat) →
        readValue s (0x1000 + 64 * i + 4 * w) .w32 = 0) ∧
      (∀ e, s.phase = .idle → s.lastOp = .decode → s.result = .ok → i < s.results.recCount.toNat → i < 255 →
        s.recTable[i]? = some e → readValue s (0x1000 + 64 * i + 4 * w) .w32 = recWord e w)) ∧
    (i < 1024 → w < 4 →
      (¬ (s.phase = .idle ∧ s.lastOp = .decode ∧ s.result = .ok ∧ i < s.results.elemCount.toNat) →
        readValue s (0x8000 + 16 * i + 4 * w) .w32 = 0) ∧
      (∀ e, s.phase = .idle → s.lastOp = .decode → s.result = .ok → i < s.results.elemCount.toNat →
        s.elemTable[i]? = some e → readValue s (0x8000 + 16 * i + 4 * w) .w32 = elemWord e w))

/-- The words of a record entry and of an element entry hold their fields at the bits of R120 and R122, every other bit
0. -/
def Obligations.TableWordsHoldTheirFields : Prop :=
  (∀ e : RecEntry,
    (recWord e 0).toNat + 4294967296 * (recWord e 1).toNat = e.timestamp.toNat ∧
    recWord e 2 = e.lon ∧ recWord e 3 = e.lat ∧
    (recWord e 4).toNat = e.alt.toNat + 65536 * e.angle.toNat ∧
    (recWord e 5).toNat = e.prio.toNat + 256 * e.sats.toNat + 65536 * e.speed.toNat ∧
    (recWord e 6).toNat = e.eventIo.toNat + 65536 * e.totalIo.toNat ∧
    (recWord e 7).toNat = e.cnt1B.toNat + 65536 * e.cnt2B.toNat ∧
    (recWord e 8).toNat = e.cnt4B.toNat + 65536 * e.cnt8B.toNat ∧
    (recWord e 9).toNat = e.cntNX.toNat + 65536 * e.elemFirst.toNat ∧
    (recWord e 10).toNat = e.recOff.toNat + 65536 * e.recLen.toNat ∧
    (recWord e 11).toNat = e.codec.toNat ∧ ∀ w, 12 ≤ w → recWord e w = 0) ∧
  (∀ e : ElemEntry,
    (elemWord e 0).toNat = e.ioId.toNat + 65536 * e.kind.toNat + 16777216 * e.recIdx.toNat ∧
    (elemWord e 1).toNat = e.vlen.toNat + 65536 * e.voff.toNat ∧
    (elemWord e 2).toNat + 4294967296 * (elemWord e 3).toNat = e.val.toNat)

/-- `irq` is the level of R54, and 0 after reset. -/
def Obligations.InterruptIsTheLevelOfDone : Prop :=
  (∀ s : State, irq s = true ↔ s.done = true ∧
    (s.ieDone = true ∨ s.ieErr = true ∧ s.result ≠ .none ∧ s.result ≠ .ok)) ∧
  irq State.reset = false

/-! ## Reset, the invariant and whole-machine rules -/

/-- The reset state reads as R58 and R301 say: idle, every register 0 but `ID`, every table word 0, no interrupt; it
fetches nothing and waits for an access. -/
def Obligations.ResetStateReadsAsTheTableSays : Prop :=
  State.reset.phase = .idle ∧ step State.reset = .next State.reset ∧ irq State.reset = false ∧ readValue State.reset 0 .w32 = 0x46445244 ∧
  (∀ a, 4 ≤ a → a < 0x800 → readValue State.reset a .w32 = 0) ∧
  (∀ a, 0x1000 ≤ a → readValue State.reset a .w32 = 0)

/-- Reset withdraws a running operation and puts every register at its reset value; the frame buffer is kept by a reset
and unspecified anew at power-on (R300, R302, R303). What becomes of the stored table entries, the parameter and the
model's own fields is the model's choice (log entries 1, 3, 6). -/
def Obligations.ResetEventPutsEveryRegisterAtItsResetValue : Prop :=
  ∀ (s : State) (rest : List Event),
    (s.pending = .reset :: rest → step s = .next
      { State.reset with fb := s.fb, recTable := s.recTable, elemTable := s.elemTable, c8Stride := s.c8Stride,
                         pending := rest }) ∧
    (s.pending = .powerOn :: rest → step s = .next
      { State.reset with fb := ⟨[], s.fb.epoch + 1⟩, recTable := s.recTable, elemTable := s.elemTable,
                         c8Stride := s.c8Stride, pending := rest })

/-- The reset state satisfies the invariant. -/
def Obligations.ResetStateSatisfiesTheInvariant : Prop := Inv State.reset

/-- Every step from a state with the invariant leads to a state with the invariant. -/
def Obligations.EveryStepKeepsTheInvariant : Prop :=
  ∀ s t : State, Inv s → step s = .next t → Inv t

/-- While busy every result register and every table word reads 0; START sets every result register to
0 (R46). -/
def Obligations.ResultsReadZeroWhileBusy : Prop :=
  ∀ s : State, Inv s →
    (s.phase = .busy →
      (∀ a, 0x14 ≤ a → a < 0x40 → a % 4 = 0 → readValue s a .w32 = 0) ∧
      (∀ a, 0x1000 ≤ a → a < 0xC000 → a % 4 = 0 → readValue s a .w32 = 0)) ∧
    ∀ ignored t, (exec (.cmdDecode ignored) s = .next t ∨ exec (.cmdCrc ignored) s = .next t) → t.results = zeroResults

/-- The control state changes only as the table of R248 lists: to busy by a START, from busy by the completion step, a
CLEAR or a reset; the running operation's name does not change while it runs. -/
def Obligations.ControlStateChangesOnlyAsListed : Prop :=
  ∀ s t : State, step s = .next t →
    (s.phase = .idle → t.phase = .busy → ∃ v rest, s.pending = .write 0x0004 .w32 v :: rest ∧
      (v.extractLsb' 0 4 = 0x1#4 ∧ t.lastOp = .decode ∨ v.extractLsb' 0 4 = 0x2#4 ∧ t.lastOp = .crc)) ∧
    (s.phase = .busy → t.phase = .idle →
      s.pending = [] ∨ (∃ rest, s.pending = .complete :: rest) ∨ (∃ rest, s.pending = .reset :: rest) ∨
      (∃ rest, s.pending = .powerOn :: rest) ∨
      (∃ v rest, s.pending = .write 0x0004 .w32 v :: rest ∧ v.extractLsb' 0 4 = 0x3#4)) ∧
    (s.phase = .busy → t.phase = .busy → t.lastOp = s.lastOp)

/-- `BADCMD` and `WERR` are cleared only by a `STATUS` write with their bit set, a CLEAR or a reset (R317). -/
def Obligations.StickyBitsAreClearedOnlyByTheHost : Prop :=
  ∀ s t : State, step s = .next t →
    (s.badCmd = true → t.badCmd = false →
      (∃ v rest, s.pending = .write 0x0008 .w32 v :: rest ∧ v.getLsbD 3 = true) ∨
      (∃ v rest, s.pending = .write 0x0004 .w32 v :: rest ∧ v.extractLsb' 0 4 = 0x3#4) ∨
      (∃ rest, s.pending = .reset :: rest ∨ s.pending = .powerOn :: rest)) ∧
    (s.wErr = true → t.wErr = false →
      (∃ v rest, s.pending = .write 0x0008 .w32 v :: rest ∧ v.getLsbD 4 = true) ∨
      (∃ v rest, s.pending = .write 0x0004 .w32 v :: rest ∧ v.extractLsb' 0 4 = 0x3#4) ∨
      (∃ rest, s.pending = .reset :: rest ∨ s.pending = .powerOn :: rest))

/-- Only a host write while idle, or power-on, changes the frame buffer (R48): the engine never writes it. -/
def Obligations.OnlyTheHostWritesTheFrameBuffer : Prop :=
  ∀ s t : State, step s = .next t → t.fb ≠ s.fb →
    (s.phase = .idle ∧ ∃ a n v rest, s.pending = .write a n v :: rest ∧ 0x0800 ≤ a.toNat ∧ a.toNat < 0x1000) ∨
    ∃ rest, s.pending = .powerOn :: rest

/-- While idle the engine takes no step, so a step with no event left changes nothing (R249, R279). That a completion event
which no operation enables is passed over is the model's choice, for the spec has no such event (log entry 7). -/
def Obligations.IdleEngineTakesNoStep : Prop :=
  ∀ s : State, s.phase = .idle →
    (∀ rest, s.pending = .complete :: rest → step s = .next { s with pending := rest }) ∧
    (s.pending = [] → step s = .next s)

/-- The schedule does not change the results (R320, R87): whatever admitted accesses that are no CLEAR come between START
and the completion step, the completion shows the same results as one taken at once. The completion's event ends the
list's part, or no event is left (log entry 1). -/
def Obligations.ResultsDoNotDependOnTheSchedule : Prop :=
  ∀ (s : State) (op : LastOp) (between last : List Event), op ≠ .none → s.phase = .busy → s.lastOp = op →
    s.results = zeroResults → (∀ e ∈ between, letsRun e = true) → (last = [] ∨ ∃ rest, last = .complete :: rest) →
    s.pending = between ++ last →
    ∃ t t', Sys2Proof.core.run (between.length + 1) s = .next t ∧
      step { s with pending := last } = .next t' ∧ sameResults t t' ∧ t.done = true ∧ t.pending = last.tail

/-- `LOADFRAME` puts a frame in the buffer and its length in `FRAME_LEN`; `WAITDONE` repeats its read of `STATUS` until bit
1 of the value read is 1, so with DONE 1 it ends at its first read, with DONE 0 it reads again, and where the completion
of a running operation comes after any number of reads it ends at the read that follows (R134). That a schedule of lists
of events says what comes between the reads is the model's choice (log entry 15). -/
def Obligations.LoadFrameLoadsAndWaitDoneWaits : Prop :=
  (∀ (s : State) (bytes : List Byte) (rest : List Event), s.phase = .idle → bytes.length ≤ 2048 →
    s.pending = loadFrame bytes ++ rest →
    ∃ t, Sys2Proof.core.run (bytes.length + 1) s = .next t ∧ t.frameLen.toNat = bytes.length ∧
      (∀ k (h : k < bytes.length), t.fb.byte k = bytes[k]) ∧
      (∀ k, bytes.length ≤ k → t.fb.byte k = s.fb.byte k) ∧
      t = { s with pending := rest, response := .written, frameLen := t.frameLen, fb := t.fb }) ∧
  (∀ (s : State) (sched : List (List Event)) (ops : List HostOp),
    runHost ([] :: sched) (waitDone ++ ops) s =
      runHost sched (if s.done = true then ops else waitDone ++ ops)
        { s with response := .data (readValue s 0x0008 .w32) }) ∧
  ∀ (s : State) (op : LastOp) (reads : Nat), op ≠ .none → s.phase = .busy → s.lastOp = op → s.done = false →
    ∃ t u, step { s with pending := .complete :: s.pending } = .next t ∧ t.done = true ∧
      runHost (List.replicate reads [] ++ [[.complete]]) waitDone s = .next ([], u) ∧ sameResults t u ∧
      u.response = .data (readValue t 0x0008 .w32)

/-- Instances share nothing (R277): a step of one instance leaves every other as it was and is that instance's own
step. -/
def Obligations.InstancesShareNothing : Prop :=
  ∀ (k : Nat) (ps qs : List Placed), platformStep k ps = .next qs →
    qs.length = ps.length ∧ (∀ j, j ≠ k → qs[j]? = ps[j]?) ∧
    ∀ p, ps[k]? = some p → ∃ s, step p.state = .next s ∧ qs[k]? = some { p with state := s }
end

