-- ==== Sys2Proof/Laws/State.lean ====
section
/-! SUPPORT. One lemma per field per named update of the state, each true by unfolding the update once. -/

namespace Sys2Proof.Machine

variable (s : State)

/-! ## `startOperation` -/

@[simp] theorem startOperation_phase (op : LastOp) : (startOperation op s).phase = .busy := rfl
@[simp] theorem startOperation_done (op : LastOp) : (startOperation op s).done = false := rfl
@[simp] theorem startOperation_badCmd (op : LastOp) : (startOperation op s).badCmd = s.badCmd := rfl
@[simp] theorem startOperation_wErr (op : LastOp) : (startOperation op s).wErr = s.wErr := rfl
@[simp] theorem startOperation_result (op : LastOp) : (startOperation op s).result = .none := rfl
@[simp] theorem startOperation_lastOp (op : LastOp) : (startOperation op s).lastOp = op := rfl
@[simp] theorem startOperation_ieDone (op : LastOp) : (startOperation op s).ieDone = s.ieDone := rfl
@[simp] theorem startOperation_ieErr (op : LastOp) : (startOperation op s).ieErr = s.ieErr := rfl
@[simp] theorem startOperation_frameLen (op : LastOp) : (startOperation op s).frameLen = s.frameLen := rfl
@[simp] theorem startOperation_results (op : LastOp) : (startOperation op s).results = zeroResults := rfl
@[simp] theorem startOperation_fb (op : LastOp) : (startOperation op s).fb = s.fb := rfl
@[simp] theorem startOperation_recTable (op : LastOp) : (startOperation op s).recTable = s.recTable := rfl
@[simp] theorem startOperation_elemTable (op : LastOp) : (startOperation op s).elemTable = s.elemTable := rfl
@[simp] theorem startOperation_walk (op : LastOp) : (startOperation op s).walk = s.walk := rfl
@[simp] theorem startOperation_c8Stride (op : LastOp) : (startOperation op s).c8Stride = s.c8Stride := rfl
@[simp] theorem startOperation_pending (op : LastOp) : (startOperation op s).pending = s.pending := rfl
@[simp] theorem startOperation_response (op : LastOp) : (startOperation op s).response = s.response := rfl

/-! ## `refuseCommand` -/

@[simp] theorem refuseCommand_phase : (refuseCommand s).phase = s.phase := rfl
@[simp] theorem refuseCommand_done : (refuseCommand s).done = s.done := rfl
@[simp] theorem refuseCommand_badCmd : (refuseCommand s).badCmd = true := rfl
@[simp] theorem refuseCommand_wErr : (refuseCommand s).wErr = s.wErr := rfl
@[simp] theorem refuseCommand_result : (refuseCommand s).result = s.result := rfl
@[simp] theorem refuseCommand_lastOp : (refuseCommand s).lastOp = s.lastOp := rfl
@[simp] theorem refuseCommand_ieDone : (refuseCommand s).ieDone = s.ieDone := rfl
@[simp] theorem refuseCommand_ieErr : (refuseCommand s).ieErr = s.ieErr := rfl
@[simp] theorem refuseCommand_frameLen : (refuseCommand s).frameLen = s.frameLen := rfl
@[simp] theorem refuseCommand_results : (refuseCommand s).results = s.results := rfl
@[simp] theorem refuseCommand_fb : (refuseCommand s).fb = s.fb := rfl
@[simp] theorem refuseCommand_recTable : (refuseCommand s).recTable = s.recTable := rfl
@[simp] theorem refuseCommand_elemTable : (refuseCommand s).elemTable = s.elemTable := rfl
@[simp] theorem refuseCommand_walk : (refuseCommand s).walk = s.walk := rfl
@[simp] theorem refuseCommand_c8Stride : (refuseCommand s).c8Stride = s.c8Stride := rfl
@[simp] theorem refuseCommand_pending : (refuseCommand s).pending = s.pending := rfl
@[simp] theorem refuseCommand_response : (refuseCommand s).response = s.response := rfl

/-! ## `clearOperation` -/

@[simp] theorem clearOperation_phase : (clearOperation s).phase = .idle := rfl
@[simp] theorem clearOperation_done : (clearOperation s).done = false := rfl
@[simp] theorem clearOperation_badCmd : (clearOperation s).badCmd = false := rfl
@[simp] theorem clearOperation_wErr : (clearOperation s).wErr = false := rfl
@[simp] theorem clearOperation_result : (clearOperation s).result = .none := rfl
@[simp] theorem clearOperation_lastOp : (clearOperation s).lastOp = .none := rfl
@[simp] theorem clearOperation_ieDone : (clearOperation s).ieDone = s.ieDone := rfl
@[simp] theorem clearOperation_ieErr : (clearOperation s).ieErr = s.ieErr := rfl
@[simp] theorem clearOperation_frameLen : (clearOperation s).frameLen = s.frameLen := rfl
@[simp] theorem clearOperation_results : (clearOperation s).results = zeroResults := rfl
@[simp] theorem clearOperation_fb : (clearOperation s).fb = s.fb := rfl
@[simp] theorem clearOperation_recTable : (clearOperation s).recTable = s.recTable := rfl
@[simp] theorem clearOperation_elemTable : (clearOperation s).elemTable = s.elemTable := rfl
@[simp] theorem clearOperation_walk : (clearOperation s).walk = none := rfl
@[simp] theorem clearOperation_c8Stride : (clearOperation s).c8Stride = s.c8Stride := rfl
@[simp] theorem clearOperation_pending : (clearOperation s).pending = s.pending := rfl
@[simp] theorem clearOperation_response : (clearOperation s).response = s.response := rfl

/-! ## `resetRegisters` -/

@[simp] theorem resetRegisters_phase : (resetRegisters s).phase = .idle := rfl
@[simp] theorem resetRegisters_done : (resetRegisters s).done = false := rfl
@[simp] theorem resetRegisters_badCmd : (resetRegisters s).badCmd = false := rfl
@[simp] theorem resetRegisters_wErr : (resetRegisters s).wErr = false := rfl
@[simp] theorem resetRegisters_result : (resetRegisters s).result = .none := rfl
@[simp] theorem resetRegisters_lastOp : (resetRegisters s).lastOp = .none := rfl
@[simp] theorem resetRegisters_ieDone : (resetRegisters s).ieDone = false := rfl
@[simp] theorem resetRegisters_ieErr : (resetRegisters s).ieErr = false := rfl
@[simp] theorem resetRegisters_frameLen : (resetRegisters s).frameLen = 0 := rfl
@[simp] theorem resetRegisters_results : (resetRegisters s).results = zeroResults := rfl
@[simp] theorem resetRegisters_fb : (resetRegisters s).fb = s.fb := rfl
@[simp] theorem resetRegisters_recTable : (resetRegisters s).recTable = s.recTable := rfl
@[simp] theorem resetRegisters_elemTable : (resetRegisters s).elemTable = s.elemTable := rfl
@[simp] theorem resetRegisters_walk : (resetRegisters s).walk = none := rfl
@[simp] theorem resetRegisters_c8Stride : (resetRegisters s).c8Stride = s.c8Stride := rfl
@[simp] theorem resetRegisters_pending : (resetRegisters s).pending = s.pending := rfl
@[simp] theorem resetRegisters_response : (resetRegisters s).response = .idle := rfl

/-! ## `powerOnReset` -/

@[simp] theorem powerOnReset_phase : (powerOnReset s).phase = .idle := rfl
@[simp] theorem powerOnReset_done : (powerOnReset s).done = false := rfl
@[simp] theorem powerOnReset_badCmd : (powerOnReset s).badCmd = false := rfl
@[simp] theorem powerOnReset_wErr : (powerOnReset s).wErr = false := rfl
@[simp] theorem powerOnReset_result : (powerOnReset s).result = .none := rfl
@[simp] theorem powerOnReset_lastOp : (powerOnReset s).lastOp = .none := rfl
@[simp] theorem powerOnReset_ieDone : (powerOnReset s).ieDone = false := rfl
@[simp] theorem powerOnReset_ieErr : (powerOnReset s).ieErr = false := rfl
@[simp] theorem powerOnReset_frameLen : (powerOnReset s).frameLen = 0 := rfl
@[simp] theorem powerOnReset_results : (powerOnReset s).results = zeroResults := rfl
@[simp] theorem powerOnReset_fb : (powerOnReset s).fb = s.fb.powerOn := rfl
@[simp] theorem powerOnReset_recTable : (powerOnReset s).recTable = s.recTable := rfl
@[simp] theorem powerOnReset_elemTable : (powerOnReset s).elemTable = s.elemTable := rfl
@[simp] theorem powerOnReset_walk : (powerOnReset s).walk = none := rfl
@[simp] theorem powerOnReset_c8Stride : (powerOnReset s).c8Stride = s.c8Stride := rfl
@[simp] theorem powerOnReset_pending : (powerOnReset s).pending = s.pending := rfl
@[simp] theorem powerOnReset_response : (powerOnReset s).response = .idle := rfl

/-! ## `completeOperation` -/

@[simp] theorem completeOperation_phase : (completeOperation s).phase = .idle := rfl
@[simp] theorem completeOperation_done : (completeOperation s).done = true := rfl
@[simp] theorem completeOperation_badCmd : (completeOperation s).badCmd = s.badCmd := rfl
@[simp] theorem completeOperation_wErr : (completeOperation s).wErr = s.wErr := rfl
@[simp] theorem completeOperation_result : (completeOperation s).result = s.result := rfl
@[simp] theorem completeOperation_lastOp : (completeOperation s).lastOp = s.lastOp := rfl
@[simp] theorem completeOperation_ieDone : (completeOperation s).ieDone = s.ieDone := rfl
@[simp] theorem completeOperation_ieErr : (completeOperation s).ieErr = s.ieErr := rfl
@[simp] theorem completeOperation_frameLen : (completeOperation s).frameLen = s.frameLen := rfl
@[simp] theorem completeOperation_results : (completeOperation s).results = s.results := rfl
@[simp] theorem completeOperation_fb : (completeOperation s).fb = s.fb := rfl
@[simp] theorem completeOperation_recTable : (completeOperation s).recTable = s.recTable := rfl
@[simp] theorem completeOperation_elemTable : (completeOperation s).elemTable = s.elemTable := rfl
@[simp] theorem completeOperation_walk : (completeOperation s).walk = none := rfl
@[simp] theorem completeOperation_c8Stride : (completeOperation s).c8Stride = s.c8Stride := rfl
@[simp] theorem completeOperation_pending : (completeOperation s).pending = s.pending := rfl
@[simp] theorem completeOperation_response : (completeOperation s).response = s.response := rfl

/-! ## `finish` -/

@[simp] theorem finish_phase (code : ResultCode) : (finish code s).phase = .idle := rfl
@[simp] theorem finish_done (code : ResultCode) : (finish code s).done = true := rfl
@[simp] theorem finish_badCmd (code : ResultCode) : (finish code s).badCmd = s.badCmd := rfl
@[simp] theorem finish_wErr (code : ResultCode) : (finish code s).wErr = s.wErr := rfl
@[simp] theorem finish_result (code : ResultCode) : (finish code s).result = code := rfl
@[simp] theorem finish_lastOp (code : ResultCode) : (finish code s).lastOp = s.lastOp := rfl
@[simp] theorem finish_ieDone (code : ResultCode) : (finish code s).ieDone = s.ieDone := rfl
@[simp] theorem finish_ieErr (code : ResultCode) : (finish code s).ieErr = s.ieErr := rfl
@[simp] theorem finish_frameLen (code : ResultCode) : (finish code s).frameLen = s.frameLen := rfl
@[simp] theorem finish_results (code : ResultCode) : (finish code s).results = finishResults code s.results := rfl
@[simp] theorem finish_fb (code : ResultCode) : (finish code s).fb = s.fb := rfl
@[simp] theorem finish_recTable (code : ResultCode) : (finish code s).recTable = s.recTable := rfl
@[simp] theorem finish_elemTable (code : ResultCode) : (finish code s).elemTable = s.elemTable := rfl
@[simp] theorem finish_walk (code : ResultCode) : (finish code s).walk = none := rfl
@[simp] theorem finish_c8Stride (code : ResultCode) : (finish code s).c8Stride = s.c8Stride := rfl
@[simp] theorem finish_pending (code : ResultCode) : (finish code s).pending = s.pending := rfl
@[simp] theorem finish_response (code : ResultCode) : (finish code s).response = s.response := rfl

/-! ## `failMalformed` -/

@[simp] theorem failMalformed_phase (pos : Nat) : (failMalformed pos s).phase = .idle := rfl
@[simp] theorem failMalformed_done (pos : Nat) : (failMalformed pos s).done = true := rfl
@[simp] theorem failMalformed_badCmd (pos : Nat) : (failMalformed pos s).badCmd = s.badCmd := rfl
@[simp] theorem failMalformed_wErr (pos : Nat) : (failMalformed pos s).wErr = s.wErr := rfl
@[simp] theorem failMalformed_result (pos : Nat) : (failMalformed pos s).result = .errMalformed := rfl
@[simp] theorem failMalformed_lastOp (pos : Nat) : (failMalformed pos s).lastOp = s.lastOp := rfl
@[simp] theorem failMalformed_ieDone (pos : Nat) : (failMalformed pos s).ieDone = s.ieDone := rfl
@[simp] theorem failMalformed_ieErr (pos : Nat) : (failMalformed pos s).ieErr = s.ieErr := rfl
@[simp] theorem failMalformed_frameLen (pos : Nat) : (failMalformed pos s).frameLen = s.frameLen := rfl
@[simp] theorem failMalformed_results (pos : Nat) :
    (failMalformed pos s).results = finishResults .errMalformed { s.results with errPos := BitVec.ofNat 12 pos } := rfl
@[simp] theorem failMalformed_fb (pos : Nat) : (failMalformed pos s).fb = s.fb := rfl
@[simp] theorem failMalformed_recTable (pos : Nat) : (failMalformed pos s).recTable = s.recTable := rfl
@[simp] theorem failMalformed_elemTable (pos : Nat) : (failMalformed pos s).elemTable = s.elemTable := rfl
@[simp] theorem failMalformed_walk (pos : Nat) : (failMalformed pos s).walk = none := rfl
@[simp] theorem failMalformed_c8Stride (pos : Nat) : (failMalformed pos s).c8Stride = s.c8Stride := rfl
@[simp] theorem failMalformed_pending (pos : Nat) : (failMalformed pos s).pending = s.pending := rfl
@[simp] theorem failMalformed_response (pos : Nat) : (failMalformed pos s).response = s.response := rfl

/-! ## `writeStatus` -/

@[simp] theorem writeStatus_phase (v : Word) : (writeStatus v s).phase = s.phase := rfl
@[simp] theorem writeStatus_done (v : Word) : (writeStatus v s).done = (s.done && !v.getLsbD 1) := rfl
@[simp] theorem writeStatus_badCmd (v : Word) : (writeStatus v s).badCmd = (s.badCmd && !v.getLsbD 3) := rfl
@[simp] theorem writeStatus_wErr (v : Word) : (writeStatus v s).wErr = (s.wErr && !v.getLsbD 4) := rfl
@[simp] theorem writeStatus_result (v : Word) : (writeStatus v s).result = s.result := rfl
@[simp] theorem writeStatus_lastOp (v : Word) : (writeStatus v s).lastOp = s.lastOp := rfl
@[simp] theorem writeStatus_ieDone (v : Word) : (writeStatus v s).ieDone = s.ieDone := rfl
@[simp] theorem writeStatus_ieErr (v : Word) : (writeStatus v s).ieErr = s.ieErr := rfl
@[simp] theorem writeStatus_frameLen (v : Word) : (writeStatus v s).frameLen = s.frameLen := rfl
@[simp] theorem writeStatus_results (v : Word) : (writeStatus v s).results = s.results := rfl
@[simp] theorem writeStatus_fb (v : Word) : (writeStatus v s).fb = s.fb := rfl
@[simp] theorem writeStatus_recTable (v : Word) : (writeStatus v s).recTable = s.recTable := rfl
@[simp] theorem writeStatus_elemTable (v : Word) : (writeStatus v s).elemTable = s.elemTable := rfl
@[simp] theorem writeStatus_walk (v : Word) : (writeStatus v s).walk = s.walk := rfl
@[simp] theorem writeStatus_c8Stride (v : Word) : (writeStatus v s).c8Stride = s.c8Stride := rfl
@[simp] theorem writeStatus_pending (v : Word) : (writeStatus v s).pending = s.pending := rfl
@[simp] theorem writeStatus_response (v : Word) : (writeStatus v s).response = s.response := rfl

/-! ## `writeIrqEn` -/

@[simp] theorem writeIrqEn_phase (v : Word) : (writeIrqEn v s).phase = s.phase := rfl
@[simp] theorem writeIrqEn_done (v : Word) : (writeIrqEn v s).done = s.done := rfl
@[simp] theorem writeIrqEn_badCmd (v : Word) : (writeIrqEn v s).badCmd = s.badCmd := rfl
@[simp] theorem writeIrqEn_wErr (v : Word) : (writeIrqEn v s).wErr = s.wErr := rfl
@[simp] theorem writeIrqEn_result (v : Word) : (writeIrqEn v s).result = s.result := rfl
@[simp] theorem writeIrqEn_lastOp (v : Word) : (writeIrqEn v s).lastOp = s.lastOp := rfl
@[simp] theorem writeIrqEn_ieDone (v : Word) : (writeIrqEn v s).ieDone = v.getLsbD 0 := rfl
@[simp] theorem writeIrqEn_ieErr (v : Word) : (writeIrqEn v s).ieErr = v.getLsbD 1 := rfl
@[simp] theorem writeIrqEn_frameLen (v : Word) : (writeIrqEn v s).frameLen = s.frameLen := rfl
@[simp] theorem writeIrqEn_results (v : Word) : (writeIrqEn v s).results = s.results := rfl
@[simp] theorem writeIrqEn_fb (v : Word) : (writeIrqEn v s).fb = s.fb := rfl
@[simp] theorem writeIrqEn_recTable (v : Word) : (writeIrqEn v s).recTable = s.recTable := rfl
@[simp] theorem writeIrqEn_elemTable (v : Word) : (writeIrqEn v s).elemTable = s.elemTable := rfl
@[simp] theorem writeIrqEn_walk (v : Word) : (writeIrqEn v s).walk = s.walk := rfl
@[simp] theorem writeIrqEn_c8Stride (v : Word) : (writeIrqEn v s).c8Stride = s.c8Stride := rfl
@[simp] theorem writeIrqEn_pending (v : Word) : (writeIrqEn v s).pending = s.pending := rfl
@[simp] theorem writeIrqEn_response (v : Word) : (writeIrqEn v s).response = s.response := rfl

/-! ## `dropWrite` -/

@[simp] theorem dropWrite_phase : (dropWrite s).phase = s.phase := rfl
@[simp] theorem dropWrite_done : (dropWrite s).done = s.done := rfl
@[simp] theorem dropWrite_badCmd : (dropWrite s).badCmd = s.badCmd := rfl
@[simp] theorem dropWrite_wErr : (dropWrite s).wErr = true := rfl
@[simp] theorem dropWrite_result : (dropWrite s).result = s.result := rfl
@[simp] theorem dropWrite_lastOp : (dropWrite s).lastOp = s.lastOp := rfl
@[simp] theorem dropWrite_ieDone : (dropWrite s).ieDone = s.ieDone := rfl
@[simp] theorem dropWrite_ieErr : (dropWrite s).ieErr = s.ieErr := rfl
@[simp] theorem dropWrite_frameLen : (dropWrite s).frameLen = s.frameLen := rfl
@[simp] theorem dropWrite_results : (dropWrite s).results = s.results := rfl
@[simp] theorem dropWrite_fb : (dropWrite s).fb = s.fb := rfl
@[simp] theorem dropWrite_recTable : (dropWrite s).recTable = s.recTable := rfl
@[simp] theorem dropWrite_elemTable : (dropWrite s).elemTable = s.elemTable := rfl
@[simp] theorem dropWrite_walk : (dropWrite s).walk = s.walk := rfl
@[simp] theorem dropWrite_c8Stride : (dropWrite s).c8Stride = s.c8Stride := rfl
@[simp] theorem dropWrite_pending : (dropWrite s).pending = s.pending := rfl
@[simp] theorem dropWrite_response : (dropWrite s).response = s.response := rfl

/-! ## `startWalk` -/

@[simp] theorem startWalk_phase : (startWalk s).phase = s.phase := rfl
@[simp] theorem startWalk_done : (startWalk s).done = s.done := rfl
@[simp] theorem startWalk_badCmd : (startWalk s).badCmd = s.badCmd := rfl
@[simp] theorem startWalk_wErr : (startWalk s).wErr = s.wErr := rfl
@[simp] theorem startWalk_result : (startWalk s).result = s.result := rfl
@[simp] theorem startWalk_lastOp : (startWalk s).lastOp = s.lastOp := rfl
@[simp] theorem startWalk_ieDone : (startWalk s).ieDone = s.ieDone := rfl
@[simp] theorem startWalk_ieErr : (startWalk s).ieErr = s.ieErr := rfl
@[simp] theorem startWalk_frameLen : (startWalk s).frameLen = s.frameLen := rfl
@[simp] theorem startWalk_results : (startWalk s).results = s.results := rfl
@[simp] theorem startWalk_fb : (startWalk s).fb = s.fb := rfl
@[simp] theorem startWalk_recTable : (startWalk s).recTable = s.recTable := rfl
@[simp] theorem startWalk_elemTable : (startWalk s).elemTable = s.elemTable := rfl
@[simp] theorem startWalk_walk : (startWalk s).walk = some (firstWalk (bodyEnd s)) := rfl
@[simp] theorem startWalk_c8Stride : (startWalk s).c8Stride = s.c8Stride := rfl
@[simp] theorem startWalk_pending : (startWalk s).pending = s.pending := rfl
@[simp] theorem startWalk_response : (startWalk s).response = s.response := rfl

/-! ## `parseHeader` -/

@[simp] theorem parseHeader_phase : (parseHeader s).phase = s.phase := rfl
@[simp] theorem parseHeader_done : (parseHeader s).done = s.done := rfl
@[simp] theorem parseHeader_badCmd : (parseHeader s).badCmd = s.badCmd := rfl
@[simp] theorem parseHeader_wErr : (parseHeader s).wErr = s.wErr := rfl
@[simp] theorem parseHeader_result : (parseHeader s).result = s.result := rfl
@[simp] theorem parseHeader_lastOp : (parseHeader s).lastOp = s.lastOp := rfl
@[simp] theorem parseHeader_ieDone : (parseHeader s).ieDone = s.ieDone := rfl
@[simp] theorem parseHeader_ieErr : (parseHeader s).ieErr = s.ieErr := rfl
@[simp] theorem parseHeader_frameLen : (parseHeader s).frameLen = s.frameLen := rfl
@[simp] theorem parseHeader_fb : (parseHeader s).fb = s.fb := rfl
@[simp] theorem parseHeader_recTable : (parseHeader s).recTable = s.recTable := rfl
@[simp] theorem parseHeader_elemTable : (parseHeader s).elemTable = s.elemTable := rfl
@[simp] theorem parseHeader_walk : (parseHeader s).walk = s.walk := rfl
@[simp] theorem parseHeader_c8Stride : (parseHeader s).c8Stride = s.c8Stride := rfl
@[simp] theorem parseHeader_pending : (parseHeader s).pending = s.pending := rfl
@[simp] theorem parseHeader_response : (parseHeader s).response = s.response := rfl

/-! ## `succeed` -/

@[simp] theorem succeed_phase (recs : List RecEntry) (elems : List ElemEntry) (trunc : Bool) (cur : Nat) :
    (succeed recs elems trunc cur s).phase = .idle := rfl
@[simp] theorem succeed_done (recs : List RecEntry) (elems : List ElemEntry) (trunc : Bool) (cur : Nat) :
    (succeed recs elems trunc cur s).done = true := rfl
@[simp] theorem succeed_badCmd (recs : List RecEntry) (elems : List ElemEntry) (trunc : Bool) (cur : Nat) :
    (succeed recs elems trunc cur s).badCmd = s.badCmd := rfl
@[simp] theorem succeed_wErr (recs : List RecEntry) (elems : List ElemEntry) (trunc : Bool) (cur : Nat) :
    (succeed recs elems trunc cur s).wErr = s.wErr := rfl
@[simp] theorem succeed_result (recs : List RecEntry) (elems : List ElemEntry) (trunc : Bool) (cur : Nat) :
    (succeed recs elems trunc cur s).result = .ok := rfl
@[simp] theorem succeed_lastOp (recs : List RecEntry) (elems : List ElemEntry) (trunc : Bool) (cur : Nat) :
    (succeed recs elems trunc cur s).lastOp = s.lastOp := rfl
@[simp] theorem succeed_ieDone (recs : List RecEntry) (elems : List ElemEntry) (trunc : Bool) (cur : Nat) :
    (succeed recs elems trunc cur s).ieDone = s.ieDone := rfl
@[simp] theorem succeed_ieErr (recs : List RecEntry) (elems : List ElemEntry) (trunc : Bool) (cur : Nat) :
    (succeed recs elems trunc cur s).ieErr = s.ieErr := rfl
@[simp] theorem succeed_frameLen (recs : List RecEntry) (elems : List ElemEntry) (trunc : Bool) (cur : Nat) :
    (succeed recs elems trunc cur s).frameLen = s.frameLen := rfl
@[simp] theorem succeed_fb (recs : List RecEntry) (elems : List ElemEntry) (trunc : Bool) (cur : Nat) :
    (succeed recs elems trunc cur s).fb = s.fb := rfl
@[simp] theorem succeed_recTable (recs : List RecEntry) (elems : List ElemEntry) (trunc : Bool) (cur : Nat) :
    (succeed recs elems trunc cur s).recTable = commitTable recs s.recTable := rfl
@[simp] theorem succeed_elemTable (recs : List RecEntry) (elems : List ElemEntry) (trunc : Bool) (cur : Nat) :
    (succeed recs elems trunc cur s).elemTable = commitTable elems s.elemTable := rfl
@[simp] theorem succeed_walk (recs : List RecEntry) (elems : List ElemEntry) (trunc : Bool) (cur : Nat) :
    (succeed recs elems trunc cur s).walk = none := rfl
@[simp] theorem succeed_c8Stride (recs : List RecEntry) (elems : List ElemEntry) (trunc : Bool) (cur : Nat) :
    (succeed recs elems trunc cur s).c8Stride = s.c8Stride := rfl
@[simp] theorem succeed_pending (recs : List RecEntry) (elems : List ElemEntry) (trunc : Bool) (cur : Nat) :
    (succeed recs elems trunc cur s).pending = s.pending := rfl
@[simp] theorem succeed_response (recs : List RecEntry) (elems : List ElemEntry) (trunc : Bool) (cur : Nat) :
    (succeed recs elems trunc cur s).response = s.response := rfl

@[simp] theorem parseHeader_results_preamble :
    (parseHeader s).results.preamble = beField 32 s.fb 0 4 := rfl
@[simp] theorem parseHeader_results_dfl :
    (parseHeader s).results.dfl = beField 32 s.fb 4 4 := rfl
@[simp] theorem parseHeader_results_hdr :
    (parseHeader s).results.hdr = ⟨s.fb.byte 8, s.fb.byte 9, s.fb.byte (s.frameLen.toNat - 5), true⟩ := rfl
@[simp] theorem parseHeader_results_crcCalc :
    (parseHeader s).results.crcCalc = frameCrc s.fb s.frameLen.toNat := rfl
@[simp] theorem parseHeader_results_crcRecv :
    (parseHeader s).results.crcRecv = frameChecksum s.fb s.frameLen.toNat := rfl
@[simp] theorem parseHeader_results_body :
    (parseHeader s).results.body = ⟨10, BitVec.ofNat 12 (s.frameLen.toNat - 5)⟩ := rfl
@[simp] theorem parseHeader_results_anomaly :
    (parseHeader s).results.anomaly = headerAnomaly s.fb s.frameLen.toNat s.results.anomaly := rfl
@[simp] theorem parseHeader_results_ack :
    (parseHeader s).results.ack = s.results.ack := rfl
@[simp] theorem parseHeader_results_recCount :
    (parseHeader s).results.recCount = s.results.recCount := rfl
@[simp] theorem parseHeader_results_elemCount :
    (parseHeader s).results.elemCount = s.results.elemCount := rfl
@[simp] theorem parseHeader_results_errPos :
    (parseHeader s).results.errPos = s.results.errPos := rfl

@[simp] theorem succeed_results_preamble (recs : List RecEntry) (elems : List ElemEntry) (trunc : Bool) (cur : Nat) :
    (succeed recs elems trunc cur s).results.preamble =
      s.results.preamble := rfl
@[simp] theorem succeed_results_dfl (recs : List RecEntry) (elems : List ElemEntry) (trunc : Bool) (cur : Nat) :
    (succeed recs elems trunc cur s).results.dfl =
      s.results.dfl := rfl
@[simp] theorem succeed_results_hdr (recs : List RecEntry) (elems : List ElemEntry) (trunc : Bool) (cur : Nat) :
    (succeed recs elems trunc cur s).results.hdr =
      s.results.hdr := rfl
@[simp] theorem succeed_results_crcCalc (recs : List RecEntry) (elems : List ElemEntry) (trunc : Bool) (cur : Nat) :
    (succeed recs elems trunc cur s).results.crcCalc =
      s.results.crcCalc := rfl
@[simp] theorem succeed_results_crcRecv (recs : List RecEntry) (elems : List ElemEntry) (trunc : Bool) (cur : Nat) :
    (succeed recs elems trunc cur s).results.crcRecv =
      s.results.crcRecv := rfl
@[simp] theorem succeed_results_body (recs : List RecEntry) (elems : List ElemEntry) (trunc : Bool) (cur : Nat) :
    (succeed recs elems trunc cur s).results.body =
      s.results.body := rfl
@[simp] theorem succeed_results_errPos (recs : List RecEntry) (elems : List ElemEntry) (trunc : Bool) (cur : Nat) :
    (succeed recs elems trunc cur s).results.errPos =
      s.results.errPos := rfl
@[simp] theorem succeed_results_ack (recs : List RecEntry) (elems : List ElemEntry) (trunc : Bool) (cur : Nat) :
    (succeed recs elems trunc cur s).results.ack =
      (s.fb.byte 9).setWidth 32 := rfl
@[simp] theorem succeed_results_recCount (recs : List RecEntry) (elems : List ElemEntry) (trunc : Bool) (cur : Nat) :
    (succeed recs elems trunc cur s).results.recCount =
      BitVec.ofNat 9 recs.length := rfl
@[simp] theorem succeed_results_elemCount (recs : List RecEntry) (elems : List ElemEntry) (trunc : Bool) (cur : Nat) :
    (succeed recs elems trunc cur s).results.elemCount =
      BitVec.ofNat 11 elems.length := rfl
@[simp] theorem succeed_results_anomaly (recs : List RecEntry) (elems : List ElemEntry) (trunc : Bool) (cur : Nat) :
    (succeed recs elems trunc cur s).results.anomaly =
      resultAnomaly (recordCount1 s) (recordCount2 s) recs.length trunc (decide (cur < bodyEnd s)) s.results.anomaly := rfl

/-! ## Results of an operation's end -/

@[simp] theorem finishResults_ok (r : Results) : finishResults .ok r = r := rfl

/-- An error end on zero results leaves them zero. -/
@[simp] theorem finishResults_zero (code : ResultCode) : finishResults code zeroResults = zeroResults := by
  cases code <;> rfl

/-- An error end leaves the header registers as they are. -/
theorem finishResults_header (code : ResultCode) (r : Results) :
    (finishResults code r).preamble = r.preamble ∧ (finishResults code r).dfl = r.dfl ∧
      (finishResults code r).hdr = r.hdr ∧ (finishResults code r).crcCalc = r.crcCalc ∧
      (finishResults code r).crcRecv = r.crcRecv ∧ (finishResults code r).body = r.body ∧
      (finishResults code r).errPos = r.errPos := by
  cases code <;> exact ⟨rfl, rfl, rfl, rfl, rfl, rfl, rfl⟩

/-- What an end with an error code leaves of records, elements, acknowledgment and flags (R226). -/
theorem finishResults_error (code : ResultCode) (h : code ≠ .ok) (r : Results) :
    (finishResults code r).recCount = 0 ∧ (finishResults code r).elemCount = 0 ∧ (finishResults code r).ack = 0 ∧
      noResultFlags (finishResults code r).anomaly ∧
      (finishResults code r).anomaly.cnt12Mismatch = r.anomaly.cnt12Mismatch ∧
      (finishResults code r).anomaly.dflGtBody = r.anomaly.dflGtBody ∧
      (finishResults code r).anomaly.preambleNz = r.anomaly.preambleNz ∧
      (finishResults code r).anomaly.crcHiNz = r.anomaly.crcHiNz := by
  cases code <;> first | exact absurd rfl h | exact ⟨rfl, rfl, rfl, ⟨rfl, rfl, rfl, rfl⟩, rfl, rfl, rfl, rfl⟩

end Sys2Proof.Machine
end

