-- ==== Sys2Proof/Laws/Memory.lean ====
section
/-! SUPPORT. The frame buffer: read after write, and that every operation keeps the canonical form. -/

namespace Sys2Proof.Machine

theorem cellAt_putCell_same (k : Nat) (b : Byte) (cs : List Host.Cell) : cellAt (putCell k b cs) k = some b := by
  induction cs with
  | nil => simp [putCell, cellAt]
  | cons c rest ih =>
    obtain ⟨j, d⟩ := c
    simp only [putCell]
    split
    · simp [cellAt]
    · split
      · simp [cellAt]
      · rename_i h1 h2
        simp [cellAt, Ne.symm h2, ih]

theorem cellAt_putCell_other (k j : Nat) (h : j ≠ k) (b : Byte) (cs : List Host.Cell) :
    cellAt (putCell k b cs) j = cellAt cs j := by
  induction cs with
  | nil => simp [putCell, cellAt, Ne.symm h]
  | cons c rest ih =>
    obtain ⟨i, d⟩ := c
    simp only [putCell]
    split
    · simp [cellAt, Ne.symm h]
    · split
      · rename_i _ h2
        subst h2
        simp [cellAt, Ne.symm h]
      · simp [cellAt, ih]

theorem cellsFrom_mono (cs : List Host.Cell) {lo lo' : Nat} (h : lo ≤ lo') (hc : cellsFrom lo' cs = true) :
    cellsFrom lo cs = true := by
  cases cs with
  | nil => rfl
  | cons c rest =>
    obtain ⟨j, d⟩ := c
    simp only [cellsFrom, Bool.and_eq_true, decide_eq_true_eq] at hc ⊢
    exact ⟨⟨by omega, hc.1.2⟩, hc.2⟩

theorem cellsFrom_putCell (k : Nat) (hk : k < Config.frameMax) (b : Byte) (cs : List Host.Cell) :
    ∀ lo, lo ≤ k → cellsFrom lo cs = true → cellsFrom lo (putCell k b cs) = true := by
  induction cs with
  | nil => intro lo h _; simp [putCell, cellsFrom, h, hk]
  | cons c rest ih =>
    obtain ⟨j, d⟩ := c
    intro lo h hc
    simp only [cellsFrom, Bool.and_eq_true, decide_eq_true_eq] at hc
    obtain ⟨⟨h1, h2⟩, h3⟩ := hc
    simp only [putCell]
    split
    · rename_i hkj
      simp only [cellsFrom, Bool.and_eq_true, decide_eq_true_eq]
      exact ⟨⟨h, hk⟩, ⟨by omega, h2⟩, h3⟩
    · split
      · rename_i _ hkj
        subst hkj
        simp only [cellsFrom, Bool.and_eq_true, decide_eq_true_eq]
        exact ⟨⟨h, hk⟩, h3⟩
      · simp only [cellsFrom, Bool.and_eq_true, decide_eq_true_eq]
        exact ⟨⟨h1, h2⟩, ih (j + 1) (by omega) h3⟩

@[simp] theorem byte_write_same (m : Memory) (k : Nat) (b : Byte) : (m.write k b).byte k = b := by
  simp [Memory.byte, Memory.write, cellAt_putCell_same]

theorem byte_write_other (m : Memory) (k j : Nat) (h : j ≠ k) (b : Byte) : (m.write k b).byte j = m.byte j := by
  simp [Memory.byte, Memory.write, cellAt_putCell_other k j h]

theorem write_wf (m : Memory) (k : Nat) (hk : k < Config.frameMax) (b : Byte) (h : m.wf = true) :
    (m.write k b).wf = true :=
  cellsFrom_putCell k hk b m.cells 0 (Nat.zero_le k) h

theorem writeList_wf (bs : List Byte) (m : Memory) (k : Nat) (hk : k + bs.length ≤ Config.frameMax)
    (h : m.wf = true) : (m.writeList k bs).wf = true := by
  induction bs generalizing m k with
  | nil => exact h
  | cons b bs ih =>
    simp only [List.length_cons] at hk
    exact ih (m.write k b) (k + 1) (by omega) (write_wf m k (by omega) b h)

theorem byte_writeList_outside (bs : List Byte) (m : Memory) (k j : Nat) (h : j < k ∨ k + bs.length ≤ j) :
    (m.writeList k bs).byte j = m.byte j := by
  induction bs generalizing m k with
  | nil => rfl
  | cons b bs ih =>
    simp only [List.length_cons] at h
    simp only [Memory.writeList]
    rw [ih (m.write k b) (k + 1) (by omega), byte_write_other m k j (by omega)]

theorem byte_writeList_inside (bs : List Byte) (m : Memory) (k i : Nat) (h : i < bs.length) :
    (m.writeList k bs).byte (k + i) = bs[i] := by
  induction bs generalizing m k i with
  | nil => simp at h
  | cons b bs ih =>
    simp only [Memory.writeList]
    cases i with
    | zero => rw [byte_writeList_outside bs _ _ _ (by omega)]; simp
    | succ i =>
      have := ih (m.write k b) (k + 1) i (by simpa using h)
      rw [show k + (i + 1) = k + 1 + i by omega, this]
      simp

theorem powerOn_wf (m : Memory) : m.powerOn.wf = true := rfl

/-- The memory of the reset state is in canonical form. -/
theorem reset_memory_wf : State.reset.fb.wf = true := rfl

@[simp] theorem laneBytes_length (n : Width) (v : Word) : (laneBytes n v).length = n.bytes := by
  simp [laneBytes]

@[simp] theorem range_length (m : Memory) (a b : Nat) : (m.range a b).length = b - a := by
  simp [Memory.range]

/-- `FB[a..b)` depends on the bytes from `a` to below `b` alone. -/
theorem range_congr (m m' : Memory) (a b : Nat) (h : ∀ k, a ≤ k → k < b → m.byte k = m'.byte k) :
    m.range a b = m'.range a b := by
  apply List.map_congr_left
  intro k hk
  have := List.mem_range'_1.mp hk
  exact h k (by omega) (by omega)

/-- `be(off, n)` depends on the `n` bytes from `off` alone. -/
theorem be_congr (m m' : Memory) (off n : Nat) (h : ∀ k, off ≤ k → k < off + n → m.byte k = m'.byte k) :
    be m off n = be m' off n := by
  induction n with
  | zero => rfl
  | succ n ih =>
    simp only [be]
    rw [ih (fun k h1 h2 => h k h1 (by omega)), h (off + n) (by omega) (by omega)]

/-- `be(off, n)` is below `256^n` (R113). -/
theorem be_lt (m : Memory) (off n : Nat) : be m off n < 256 ^ n := by
  induction n with
  | zero => simp [be]
  | succ n ih =>
    have := (m.byte (off + n)).isLt
    simp only [be, Nat.pow_succ]
    omega

end Sys2Proof.Machine
end

