-- ==== Sys2Proof/Laws/Walk.lean ====
section
/-! SUPPORT. The record walk of Codec 8E: what one `take` can do, what each piece can do, and the walk of many records as
one function. -/

namespace Sys2Proof.Machine

/-! ## Sequencing -/

/-- Two pieces of the walk in sequence. -/
def chain (f g : Memory → Walk → Except Nat Walk) (m : Memory) (w : Walk) : Except Nat Walk :=
  match f m w with
  | .ok w' => g m w'
  | .error pos => .error pos

/-- Running two pieces on the state one after the other is running their sequence: a failed piece leaves no walk for
the second. -/
theorem runWalk_chain (f g : Memory → Walk → Except Nat Walk) (s : State) :
    runWalk g (runWalk f s) = runWalk (chain f g) s := by
  unfold runWalk chain
  cases hw : s.walk with
  | none => simp [hw]
  | some w =>
    simp only
    cases hf : f s.fb w with
    | error pos => simp
    | ok w' => 
      simp only
      cases g s.fb w' <;> rfl

/-- A record of Codec 8E as one piece. -/
def recordPiece : Memory → Walk → Except Nat Walk :=
  chain (chain (chain (chain (chain (chain fixedPart group1B) group2B) group4B) group8B) nxGroup) closeRecord

/-- `n` records as one piece. -/
def recordsPiece : Nat → Memory → Walk → Except Nat Walk
  | 0 => fun _ w => .ok w
  | n + 1 => chain recordPiece (recordsPiece n)

theorem runWalk_ok (s : State) : runWalk (fun _ w => .ok w) s = s := by
  unfold runWalk
  cases h : s.walk with
  | none => rfl
  | some w => simp only; rw [← h]

theorem record8E_eq (s : State) : record8E s = .next (runWalk recordPiece s) := by
  simp only [record8E, andThen, execIo1B, execIo2B, execIo4B, execIo8B, execIoNX, recordPiece, runWalk_chain]

theorem decode8ELoop_eq (n : Nat) (s : State) : decode8ELoop n s = .next (runWalk (recordsPiece n) s) := by
  induction n generalizing s with
  | zero => simp only [decode8ELoop, recordsPiece]; exact congrArg _ (runWalk_ok s).symm
  | succ n ih => simp only [decode8ELoop, record8E_eq, andThen, ih, recordsPiece, runWalk_chain]

/-- Every case of `CODEC8E` in one equation. -/
theorem execCodec8E_eq (s : State) (hd : dispatches codec8EByte s = true) :
    execCodec8E s =
      if checksumVerifies s.fb s.frameLen.toNat then
        match recordsPiece (recordCount1 s) s.fb (firstWalk (bodyEnd s)) with
        | .ok w => .next (succeed w.recs w.elems false w.cur s)
        | .error pos => .next (failMalformed pos s)
      else .next (finish .errCrc s) := by
  unfold execCodec8E
  simp only [hd, if_true]
  split
  · rw [decode8ELoop_eq]
    simp only [andThen, runWalk, startWalk_walk, startWalk_fb]
    cases recordsPiece (recordCount1 s) s.fb (firstWalk (bodyEnd s)) <;> rfl
  · rfl

/-! ## One `take` -/

/-- Everything `take` can do (R13). -/
theorem take_cases (m : Memory) (n : Nat) (w : Walk) :
    (w.cur + n ≤ w.bodyEnd ∧ take m n w = .ok (be m w.cur n, w.cur, { w with cur := w.cur + n })) ∨
      (w.bodyEnd < w.cur + n ∧ take m n w = .error w.cur) := by
  unfold take
  split
  · exact .inr ⟨‹_›, rfl⟩
  · exact .inl ⟨by omega, rfl⟩

theorem take_ok (m : Memory) (n : Nat) (w : Walk) (h : w.cur + n ≤ w.bodyEnd) :
    take m n w = .ok (be m w.cur n, w.cur, { w with cur := w.cur + n }) := by
  unfold take
  rw [if_neg (by omega)]

theorem take_error (m : Memory) (n : Nat) (w : Walk) (h : w.bodyEnd < w.cur + n) : take m n w = .error w.cur := by
  unfold take
  rw [if_pos h]

/-! ## What a piece can do -/

/-- Where a walk can stand after a piece that began at `w`. If the piece ended, it keeps the end of the body, does not
pass it, added `recs` records, and added elements of at least 3 bytes each (R198) beside `least` bytes; if it failed,
it did so at a cursor within the body. -/
def GrewFrom (least recs : Nat) (w : Walk) : Except Nat Walk → Prop
  | .ok w' => w'.bodyEnd = w.bodyEnd ∧ w'.cur ≤ w'.bodyEnd ∧ w'.recs.length = w.recs.length + recs ∧
      ∃ new, w'.elems = w.elems ++ new ∧ w.cur + least + 3 * new.length ≤ w'.cur
  | .error pos => w.cur ≤ pos ∧ pos ≤ w.bodyEnd

/-- A piece that grows from every walk whose cursor is within the body. -/
def Grows (least recs : Nat) (piece : Memory → Walk → Except Nat Walk) : Prop :=
  ∀ m w, w.cur ≤ w.bodyEnd → GrewFrom least recs w (piece m w)

theorem grewFrom_here (w : Walk) (h : w.cur ≤ w.bodyEnd) : GrewFrom 0 0 w (.ok w) :=
  ⟨rfl, h, rfl, [], by simp, by simp⟩

/-- Growth from a walk that stands `n` bytes and `k` elements (of at least 3 bytes each, with `slack` more bytes) past
`w` is growth from `w`. -/
theorem GrewFrom.extend {a r : Nat} {w v : Walk} {o : Except Nat Walk} (h : GrewFrom a r v o) (slack t : Nat)
    (new : List ElemEntry) (hb : v.bodyEnd = w.bodyEnd) (hr : v.recs.length = w.recs.length + t)
    (he : v.elems = w.elems ++ new) (hc : w.cur + slack + 3 * new.length ≤ v.cur) :
    GrewFrom (slack + a) (t + r) w o := by
  cases o with
  | error pos => exact ⟨by have := h.1; omega, by have := h.2; omega⟩
  | ok w' =>
    obtain ⟨h1, h2, h3, new', h4, h5⟩ := h
    refine ⟨h1.trans hb, h2, by omega, new ++ new', by rw [h4, he, List.append_assoc], ?_⟩
    rw [List.length_append]
    omega

/-- A `take` and then the rest. -/
theorem grewFrom_take {a r n : Nat} {m : Memory} {w : Walk} {k : Nat × Nat × Walk → Except Nat Walk}
    (hw : w.cur ≤ w.bodyEnd)
    (h : w.cur + n ≤ w.bodyEnd → GrewFrom a r { w with cur := w.cur + n }
      (k (be m w.cur n, w.cur, { w with cur := w.cur + n }))) :
    GrewFrom (n + a) r w (take m n w >>= k) := by
  rcases take_cases m n w with ⟨hn, e⟩ | ⟨hn, e⟩
  · rw [e]
    have := (h hn).extend (w := w) n 0 [] rfl rfl (by simp) (by simp)
    rw [Nat.zero_add] at this
    exact this
  · rw [e]
    exact ⟨Nat.le_refl _, hw⟩

theorem Grows.chain {a b r t : Nat} {f g : Memory → Walk → Except Nat Walk} (hf : Grows a r f) (hg : Grows b t g) :
    Grows (a + b) (r + t) (chain f g) := by
  intro m w hw
  have h1 := hf m w hw
  unfold Machine.chain
  cases hfw : f m w with
  | error pos => rw [hfw] at h1; exact h1
  | ok w1 =>
    rw [hfw] at h1
    obtain ⟨he, hc, hr, new, hn, hl⟩ := h1
    exact (hg m w1 hc).extend a r new he hr hn hl

theorem grows_closeRecord : Grows 0 1 closeRecord :=
  fun _ w hw => ⟨rfl, hw, by simp, [], by simp, by simp⟩

theorem grows_fixedPart : Grows 28 0 fixedPart := by
  intro m w hw
  unfold fixedPart
  refine grewFrom_take (a := 20) hw fun h => ?_
  refine grewFrom_take (a := 19) h fun h => ?_
  refine grewFrom_take (a := 15) h fun h => ?_
  refine grewFrom_take (a := 11) h fun h => ?_
  refine grewFrom_take (a := 9) h fun h => ?_
  refine grewFrom_take (a := 7) h fun h => ?_
  refine grewFrom_take (a := 6) h fun h => ?_
  refine grewFrom_take (a := 4) h fun h => ?_
  refine grewFrom_take (a := 2) h fun h => ?_
  refine grewFrom_take (a := 0) h fun h => ?_
  exact ⟨rfl, h, rfl, [], by simp, by simp⟩

theorem grows_fixedElems (width : Nat) (hwidth : 1 ≤ width) (kind : BitVec 3) (n : Nat) :
    Grows 0 0 fun m w => fixedElems m width kind n w := by
  induction n with
  | zero => exact fun m w hw => grewFrom_here w hw
  | succ n ih =>
    intro m w hw
    simp only [fixedElems]
    rcases take_cases m 2 w with ⟨h2, e⟩ | ⟨h2, e⟩
    · simp only [e, bind, Except.bind]
      rcases take_cases m width { w with cur := w.cur + 2 } with ⟨hv, e'⟩ | ⟨hv, e'⟩
      · simp only [e']
        simp only at hv
        refine (ih m _ hv).extend (w := w) 0 0 [_] rfl rfl rfl ?_
        simp only [List.length_singleton]
        omega
      · simp only [e']
        exact ⟨by simp, h2⟩
    · simp only [e, bind, Except.bind]
      exact ⟨Nat.le_refl _, hw⟩

theorem grows_nxElems (n : Nat) : Grows 0 0 fun m w => nxElems m n w := by
  induction n with
  | zero => exact fun m w hw => grewFrom_here w hw
  | succ n ih =>
    intro m w hw
    simp only [nxElems]
    rcases take_cases m 2 w with ⟨h2, e⟩ | ⟨h2, e⟩
    · simp only [e, bind, Except.bind]
      rcases take_cases m 2 { w with cur := w.cur + 2 } with ⟨h4, e'⟩ | ⟨h4, e'⟩
      · simp only [e']
        simp only at h4
        rcases take_cases m (be m (w.cur + 2) 2) { w with cur := w.cur + 2 + 2 } with ⟨hv, e''⟩ | ⟨hv, e''⟩
        · simp only [e'']
          simp only at hv
          refine (ih m _ hv).extend (w := w) 0 0 [_] rfl rfl rfl ?_
          simp only [List.length_singleton]
          omega
        · simp only [e'']
          exact ⟨by omega, by omega⟩
      · simp only [e']
        exact ⟨by simp, h2⟩
    · simp only [e, bind, Except.bind]
      exact ⟨Nat.le_refl _, hw⟩

theorem grows_fixedGroup (width : Nat) (hwidth : 1 ≤ width) (kind : BitVec 3)
    (setCount : Half → RecEntry → RecEntry) : Grows 2 0 (fixedGroup width kind setCount) := by
  intro m w hw
  refine grewFrom_take (a := 0) hw fun h => ?_
  exact grows_fixedElems width hwidth kind _ m _ h

theorem grows_nxGroup : Grows 2 0 nxGroup := by
  intro m w hw
  refine grewFrom_take (a := 0) hw fun h => ?_
  exact grows_nxElems _ m _ h

/-- A record takes at least 38 bytes (R112). -/
theorem grows_recordPiece : Grows 38 1 recordPiece :=
  (((((grows_fixedPart.chain (grows_fixedGroup 1 (by decide) _ _)).chain
    (grows_fixedGroup 2 (by decide) _ _)).chain (grows_fixedGroup 4 (by decide) _ _)).chain
    (grows_fixedGroup 8 (by decide) _ _)).chain grows_nxGroup).chain grows_closeRecord

theorem grows_recordsPiece (n : Nat) : Grows (38 * n) n (recordsPiece n) := by
  induction n with
  | zero => exact fun m w hw => grewFrom_here w hw
  | succ n ih =>
    have := grows_recordPiece.chain ih
    rwa [show 38 + 38 * n = 38 * (n + 1) by omega, show 1 + n = n + 1 by omega] at this

/-- What the walk of a whole body can do: end with one entry per record and at most a third of the body in elements
(R189, R198), or fail inside the body (R187). -/
theorem recordsPiece_firstWalk (n stop : Nat) (h : 10 ≤ stop) (m : Memory) :
    match recordsPiece n m (firstWalk stop) with
    | .ok w => w.bodyEnd = stop ∧ 10 ≤ w.cur ∧ w.cur ≤ stop ∧ w.recs.length = n ∧
        10 + 38 * n + 3 * w.elems.length ≤ w.cur
    | .error pos => 10 ≤ pos ∧ pos ≤ stop := by
  have hg := grows_recordsPiece n m (firstWalk stop) h
  cases hr : recordsPiece n m (firstWalk stop) with
  | error pos => rw [hr] at hg; exact hg
  | ok w =>
    rw [hr] at hg
    obtain ⟨h1, h2, h3, new, h4, h5⟩ := hg
    simp only [firstWalk, Config.hdrLen, List.length_nil, List.nil_append] at h1 h3 h4 h5
    refine ⟨h1, by omega, by omega, by omega, ?_⟩
    rw [h4]
    omega

/-! ## Codec 8 -/

/-- Everything the Codec 8 loop can do (R161, R169): it appends as many records as fit, at consecutive strides. -/
theorem decode8Loop_eq (m : Memory) (stride stop : Nat) (hs : 0 < stride) (n cur : Nat) (recs : List RecEntry) :
    decode8Loop m stride stop n cur recs =
      let k := min n ((stop - cur) / stride)
      (recs ++ (List.range k).map (fun i => record8 m stride (cur + i * stride)), decide (k < n), cur + k * stride) := by
  induction n generalizing cur recs with
  | zero => simp [decode8Loop]
  | succ n ih =>
    simp only [decode8Loop]
    split
    · rename_i hlt
      rw [Nat.div_eq_of_lt hlt]
      simp
    · rename_i hge
      have hdiv : (stop - cur) / stride = (stop - (cur + stride)) / stride + 1 := by
        rw [← Nat.sub_sub, Nat.div_eq_sub_div hs (by omega)]
      rw [ih, hdiv]
      simp only [Nat.succ_min_succ]
      generalize min n ((stop - (cur + stride)) / stride) = k
      have hlist : (List.range (k + 1)).map (fun i => record8 m stride (cur + i * stride)) =
          record8 m stride cur :: (List.range k).map (fun i => record8 m stride (cur + stride + i * stride)) := by
        rw [List.range_succ_eq_map, List.map_cons, List.map_map, Nat.zero_mul, Nat.add_zero]
        refine congrArg (List.cons (record8 m stride cur)) ?_
        apply List.map_congr_left
        intro i _
        have hi : cur + (i + 1) * stride = cur + stride + i * stride := by rw [Nat.succ_mul]; omega
        simp only [Function.comp_apply, Nat.succ_eq_add_one, hi]
      rw [hlist, List.append_assoc, List.singleton_append, Nat.succ_mul]
      refine Prod.ext rfl (Prod.ext ?_ ?_)
      · simp
      · simp only
        omega

end Sys2Proof.Machine
end

