-- ==== Sys2Proof/Laws/Groups.lean ====
section
/-! SUPPORT. Everything the element loops of the I/O groups can do, in terms of the offsets of Machine/Layout.lean. -/

namespace Sys2Proof.Machine

/-- Everything the loop of a fixed-width group can do (R183, R190): all `n` elements fit and are appended, or element `k`
is the first that does not fit, and the failure is at its id or at its value. -/
theorem fixedElems_cases (m : Memory) (width : Nat) (kind : BitVec 3) (n : Nat) (w : Walk) (h : w.cur ≤ w.bodyEnd) :
    (w.cur + n * (2 + width) ≤ w.bodyEnd ∧
      fixedElems m width kind n w = .ok { w with
        cur := w.cur + n * (2 + width)
        elems := w.elems ++ (List.range n).map fun k =>
          fixedElemAt m w.recs.length width kind (w.cur + k * (2 + width)) }) ∨
    (∃ k, k < n ∧ w.cur + k * (2 + width) ≤ w.bodyEnd ∧ w.bodyEnd < w.cur + k * (2 + width) + 2 + width ∧
      fixedElems m width kind n w =
        .error (if w.bodyEnd < w.cur + k * (2 + width) + 2 then w.cur + k * (2 + width)
          else w.cur + k * (2 + width) + 2)) := by
  induction n generalizing w with
  | zero => exact .inl ⟨by simpa using h, by simp [fixedElems]⟩
  | succ n ih =>
    simp only [fixedElems]
    rcases take_cases m 2 w with ⟨h2, e⟩ | ⟨h2, e⟩
    · simp only [e, bind, Except.bind]
      rcases take_cases m width { w with cur := w.cur + 2 } with ⟨hv, e'⟩ | ⟨hv, e'⟩
      · simp only [e']
        simp only at hv
        have hcur : ∀ k, w.cur + 2 + width + k * (2 + width) = w.cur + (k + 1) * (2 + width) := by
          intro k; rw [Nat.succ_mul]; omega
        rcases ih { w with
          cur := w.cur + 2 + width
          elems := w.elems ++ [fixedElemAt m w.recs.length width kind w.cur] } hv with
          ⟨hn, e''⟩ | ⟨k, hk, hp, hq, e''⟩
        · refine .inl ⟨by rw [← hcur]; exact hn, e''.trans ?_⟩
          simp only [hcur, List.append_assoc, List.singleton_append]
          refine congrArg _ ?_
          rw [List.range_succ_eq_map, List.map_cons, List.map_map]
          simp only [fixedElemAt, beField, Nat.zero_mul, Nat.add_zero, Function.comp_def]
        · simp only [hcur] at hp hq e''
          exact .inr ⟨k + 1, by omega, hp, hq, e''⟩
      · simp only [e']
        simp only at hv
        refine .inr ⟨0, by omega, by simpa using h, by simp; omega, ?_⟩
        rw [if_neg (by simp; omega)]
        simp
    · simp only [e, bind, Except.bind]
      refine .inr ⟨0, by omega, by simpa using h, by simp; omega, ?_⟩
      rw [if_pos (by simpa using h2)]
      simp

/-- The NX offsets from the first element on. -/
theorem nxFrom_succ (m : Memory) (q k : Nat) : nxFrom m q (k + 1) = nxFrom m (q + 4 + be m (q + 2) 2) k := by
  induction k with
  | zero => rfl
  | succ k ih => rw [nxFrom, ih]; rfl

theorem nxFrom_mono (m : Memory) (q : Nat) {j k : Nat} (h : j ≤ k) : nxFrom m q j ≤ nxFrom m q k := by
  induction h with
  | refl => exact Nat.le_refl _
  | step _ ih => exact Nat.le_trans ih (by simp only [nxFrom]; omega)

/-- Everything the loop of the NX group can do (R184, R190): all `n` elements fit and are appended, or element `k` is the
first that does not fit, and the failure is at its id, its length or its value. -/
theorem nxElems_cases (m : Memory) (n : Nat) (w : Walk) (h : w.cur ≤ w.bodyEnd) :
    (nxFrom m w.cur n ≤ w.bodyEnd ∧
      nxElems m n w = .ok { w with
        cur := nxFrom m w.cur n
        elems := w.elems ++ (List.range n).map fun k => nxElemAt m w.recs.length (nxFrom m w.cur k) }) ∨
    (∃ k, k < n ∧ nxFrom m w.cur k ≤ w.bodyEnd ∧ w.bodyEnd < nxFrom m w.cur (k + 1) ∧
      nxElems m n w =
        .error (if w.bodyEnd < nxFrom m w.cur k + 2 then nxFrom m w.cur k
          else if w.bodyEnd < nxFrom m w.cur k + 4 then nxFrom m w.cur k + 2
          else nxFrom m w.cur k + 4)) := by
  induction n generalizing w with
  | zero => exact .inl ⟨by simpa [nxFrom] using h, by simp [nxElems, nxFrom]⟩
  | succ n ih =>
    simp only [nxElems]
    rcases take_cases m 2 w with ⟨h2, e⟩ | ⟨h2, e⟩
    · simp only [e, bind, Except.bind]
      rcases take_cases m 2 { w with cur := w.cur + 2 } with ⟨h4, e'⟩ | ⟨h4, e'⟩
      · simp only [e']
        simp only at h4
        rcases take_cases m (be m (w.cur + 2) 2) { w with cur := w.cur + 2 + 2 } with ⟨hv, e''⟩ | ⟨hv, e''⟩
        · simp only [e'']
          simp only at hv
          have hcur : ∀ k, nxFrom m (w.cur + 2 + 2 + be m (w.cur + 2) 2) k = nxFrom m w.cur (k + 1) := by
            intro k; rw [nxFrom_succ]
          rcases ih { w with
            cur := w.cur + 2 + 2 + be m (w.cur + 2) 2
            elems := w.elems ++ [nxElemAt m w.recs.length w.cur] } hv with ⟨hn, e3⟩ | ⟨k, hk, hp, hq, e3⟩
          · refine .inl ⟨by rw [← hcur]; exact hn, e3.trans ?_⟩
            simp only [hcur, List.append_assoc, List.singleton_append]
            refine congrArg _ ?_
            rw [List.range_succ_eq_map, List.map_cons, List.map_map]
            simp only [nxElemAt, beField, nxFrom, Function.comp_def, Nat.add_assoc]
          · simp only [hcur] at hp hq e3
            exact .inr ⟨k + 1, by omega, hp, hq, e3⟩
        · simp only [e'']
          simp only at hv
          refine .inr ⟨0, by omega, h, by simp only [nxFrom]; omega, ?_⟩
          rw [if_neg (by simp only [nxFrom]; omega), if_neg (by simp only [nxFrom]; omega)]
          rfl
      · simp only [e']
        simp only at h4
        refine .inr ⟨0, by omega, h, by simp only [nxFrom]; omega, ?_⟩
        rw [if_neg (by simp only [nxFrom]; omega), if_pos (by simp only [nxFrom]; omega)]
        rfl
    · simp only [e, bind, Except.bind]
      refine .inr ⟨0, by omega, h, by simp only [nxFrom]; omega, ?_⟩
      rw [if_pos (by simp only [nxFrom]; omega)]
      rfl

end Sys2Proof.Machine
end

