-- ==== Sys2Proof/Laws/Body.lean ====
section
/-! SUPPORT. The record walk in terms of the offsets of Machine/Layout.lean: what a group, a record and a whole body do
when they fit, and that they fail when they do not (spec/43_codec8e.md R181-R187). -/

namespace Sys2Proof.Machine

/-! ## Failing at a field -/

/-- A failure at the field, of a list of offsets and lengths, that the end of the body cuts (R187, R190). -/
def FailsIn (fields : List (Nat × Nat)) (stop : Nat) (o : Except Nat Walk) : Prop :=
  ∃ pos n, o = .error pos ∧ (pos, n) ∈ fields ∧ pos ≤ stop ∧ stop < pos + n

theorem FailsIn.mono {fields fields' : List (Nat × Nat)} {stop : Nat} {o : Except Nat Walk} (h : FailsIn fields stop o)
    (hs : ∀ x ∈ fields, x ∈ fields') : FailsIn fields' stop o := by
  obtain ⟨pos, n, e, hm, h1, h2⟩ := h
  exact ⟨pos, n, e, hs _ hm, h1, h2⟩

/-- A `take` of a field and then the rest: the failure is at that field or in the rest. -/
theorem failsIn_take {fields : List (Nat × Nat)} {n stop : Nat} {m : Memory} {w : Walk}
    {k : Nat × Nat × Walk → Except Nat Walk} (hb : w.bodyEnd = stop) (hm : (w.cur, n) ∈ fields) (hw : w.cur ≤ stop)
    (h : w.cur + n ≤ stop → FailsIn fields stop (k (be m w.cur n, w.cur, { w with cur := w.cur + n }))) :
    FailsIn fields stop (take m n w >>= k) := by
  subst hb
  rcases take_cases m n w with ⟨hn, e⟩ | ⟨hn, e⟩
  · rw [e]
    exact h hn
  · rw [e]
    exact ⟨w.cur, n, rfl, hm, hw, hn⟩

/-! ## Groups -/

theorem fixedGroup_fits (width : Nat) (kind : BitVec 3) (setCount : Half → RecEntry → RecEntry) (m : Memory) (w : Walk)
    (h : fixedGroupEnd m width w.cur ≤ w.bodyEnd) :
    fixedGroup width kind setCount m w = .ok { w with
      cur := fixedGroupEnd m width w.cur
      entry := setCount (beField 16 m w.cur 2) w.entry
      elems := w.elems ++ fixedElemsAt m w.recs.length width kind w.cur } := by
  unfold fixedGroupEnd at h
  unfold fixedGroup
  rw [take_ok m 2 w (by omega)]
  simp only [bind, Except.bind]
  rcases fixedElems_cases m width kind (be m w.cur 2)
    { w with cur := w.cur + 2, entry := setCount (BitVec.ofNat 16 (be m w.cur 2)) w.entry } (by simp only; omega) with
    ⟨-, e⟩ | ⟨k, hk, -, hlt, -⟩
  · exact e
  · have : (k + 1) * (2 + width) ≤ be m w.cur 2 * (2 + width) := Nat.mul_le_mul_right _ hk
    rw [Nat.succ_mul] at this
    simp only at hlt
    omega

theorem fixedGroup_overruns (width : Nat) (kind : BitVec 3) (setCount : Half → RecEntry → RecEntry) (m : Memory)
    (w : Walk) (hw : w.cur ≤ w.bodyEnd) (h : w.bodyEnd < fixedGroupEnd m width w.cur) :
    FailsIn (fixedGroupFields m width w.cur) w.bodyEnd (fixedGroup width kind setCount m w) := by
  unfold fixedGroupEnd at h
  refine failsIn_take rfl (List.mem_cons_self ..) hw fun h2 => ?_
  simp only
  rcases fixedElems_cases m width kind (be m w.cur 2)
    { w with cur := w.cur + 2, entry := setCount (BitVec.ofNat 16 (be m w.cur 2)) w.entry } h2 with
    ⟨hn, -⟩ | ⟨k, hk, h3, h4, e⟩
  · simp only at hn
    omega
  · have hmem : ∀ x ∈ [(w.cur + 2 + k * (2 + width), 2), (w.cur + 2 + k * (2 + width) + 2, width)],
        x ∈ fixedGroupFields m width w.cur := fun x hx =>
      List.mem_cons_of_mem _ (List.mem_flatMap.mpr ⟨k, List.mem_range.mpr hk, hx⟩)
    simp only at h3 h4 e
    rw [e]
    split
    · exact ⟨_, 2, rfl, hmem _ (by simp), h3, ‹_›⟩
    · exact ⟨_, width, rfl, hmem _ (by simp), by omega, h4⟩

theorem nxGroup_fits (m : Memory) (w : Walk) (h : nxGroupEnd m w.cur ≤ w.bodyEnd) :
    nxGroup m w = .ok { w with
      cur := nxGroupEnd m w.cur
      entry := { w.entry with cntNX := beField 16 m w.cur 2 }
      elems := w.elems ++ nxElemsAt m w.recs.length w.cur } := by
  unfold nxGroupEnd nxElemStart at h
  have hge := nxFrom_mono m (w.cur + 2) (Nat.zero_le (be m w.cur 2))
  rw [nxFrom] at hge
  unfold nxGroup
  rw [take_ok m 2 w (by omega)]
  simp only [bind, Except.bind]
  rcases nxElems_cases m (be m w.cur 2)
    { w with cur := w.cur + 2, entry := { w.entry with cntNX := BitVec.ofNat 16 (be m w.cur 2) } }
    (by simp only; omega) with ⟨-, e⟩ | ⟨k, hk, -, hlt, -⟩
  · exact e
  · have := nxFrom_mono m (w.cur + 2) (show k + 1 ≤ be m w.cur 2 from hk)
    simp only at hlt
    omega

theorem nxGroup_overruns (m : Memory) (w : Walk) (hw : w.cur ≤ w.bodyEnd) (h : w.bodyEnd < nxGroupEnd m w.cur) :
    FailsIn (nxGroupFields m w.cur) w.bodyEnd (nxGroup m w) := by
  unfold nxGroupEnd nxElemStart at h
  refine failsIn_take rfl (List.mem_cons_self ..) hw fun h2 => ?_
  simp only
  rcases nxElems_cases m (be m w.cur 2)
    { w with cur := w.cur + 2, entry := { w.entry with cntNX := BitVec.ofNat 16 (be m w.cur 2) } } h2 with
    ⟨hn, -⟩ | ⟨k, hk, h3, h4, e⟩
  · simp only at hn
    omega
  · have hmem : ∀ x ∈ [(nxElemStart m w.cur k, 2), (nxElemStart m w.cur k + 2, 2),
        (nxElemStart m w.cur k + 4, be m (nxElemStart m w.cur k + 2) 2)], x ∈ nxGroupFields m w.cur := fun x hx =>
      List.mem_cons_of_mem _ (List.mem_flatMap.mpr ⟨k, List.mem_range.mpr hk, hx⟩)
    simp only [nxElemStart] at hmem
    simp only [nxFrom] at h3 h4 e
    rw [e]
    split
    · exact ⟨_, 2, rfl, hmem _ (by simp), h3, ‹_›⟩
    split
    · exact ⟨_, 2, rfl, hmem _ (by simp), by omega, by omega⟩
    · exact ⟨_, be m (nxFrom m (w.cur + 2) k + 2) 2, rfl, hmem _ (by simp), by omega, h4⟩

/-! ## Offsets rise -/

theorem fixedGroupEnd_ge (m : Memory) (width p : Nat) : p + 2 ≤ fixedGroupEnd m width p := by
  unfold fixedGroupEnd
  omega

theorem nxGroupEnd_ge (m : Memory) (p : Nat) : p + 2 ≤ nxGroupEnd m p := by
  have := nxFrom_mono m (p + 2) (Nat.zero_le (be m p 2))
  rwa [nxFrom] at this

theorem start2B_ge (m : Memory) (p : Nat) : p + 30 ≤ start2B m p := fixedGroupEnd_ge m 1 (p + 28)

theorem start4B_ge (m : Memory) (p : Nat) : start2B m p + 2 ≤ start4B m p := fixedGroupEnd_ge m 2 _

theorem start8B_ge (m : Memory) (p : Nat) : start4B m p + 2 ≤ start8B m p := fixedGroupEnd_ge m 4 _

theorem startNX_ge (m : Memory) (p : Nat) : start8B m p + 2 ≤ startNX m p := fixedGroupEnd_ge m 8 _

theorem recordEnd_ge_startNX (m : Memory) (p : Nat) : startNX m p + 2 ≤ recordEnd m p := nxGroupEnd_ge m _

/-- A record takes at least 38 bytes (R112). -/
theorem recordEnd_ge (m : Memory) (p : Nat) : p + 38 ≤ recordEnd m p := by
  have := start2B_ge m p
  have := start4B_ge m p
  have := start8B_ge m p
  have := startNX_ge m p
  have := recordEnd_ge_startNX m p
  omega

theorem recordStart_mono (m : Memory) {i j : Nat} (h : i ≤ j) : recordStart m i ≤ recordStart m j := by
  induction h with
  | refl => exact Nat.le_refl _
  | @step k _ ih =>
    have := recordEnd_ge m (recordStart m k)
    rw [recordStart]
    omega

theorem recordStart_ge (m : Memory) (i : Nat) : 10 + 38 * i ≤ recordStart m i := by
  induction i with
  | zero => exact Nat.le_refl _
  | succ i ih =>
    have := recordEnd_ge m (recordStart m i)
    rw [recordStart]
    omega

/-! ## Counting elements -/

@[simp] theorem fixedElemsAt_length (m : Memory) (r width : Nat) (kind : BitVec 3) (p : Nat) :
    (fixedElemsAt m r width kind p).length = be m p 2 := by
  simp [fixedElemsAt]

@[simp] theorem nxElemsAt_length (m : Memory) (r p : Nat) : (nxElemsAt m r p).length = be m p 2 := by
  simp [nxElemsAt]

@[simp] theorem recordElems_length (m : Memory) (r p : Nat) :
    (recordElems m r p).length = recordElemCount m p := by
  simp only [recordElems, List.length_append, fixedElemsAt_length, nxElemsAt_length, recordElemCount]

@[simp] theorem bodyRecords_length (m : Memory) (n : Nat) : (bodyRecords m n).length = n := by
  simp [bodyRecords]

theorem bodyRecords_succ (m : Memory) (n : Nat) :
    bodyRecords m (n + 1) = bodyRecords m n ++ [record8EAt m (recordStart m n) (elemsBefore m n)] := by
  simp [bodyRecords, List.range_succ]

theorem bodyElems_succ (m : Memory) (n : Nat) :
    bodyElems m (n + 1) = bodyElems m n ++ recordElems m n (recordStart m n) := by
  simp [bodyElems, List.range_succ]

@[simp] theorem bodyElems_length (m : Memory) (n : Nat) : (bodyElems m n).length = elemsBefore m n := by
  induction n with
  | zero => rfl
  | succ n ih => rw [bodyElems_succ, List.length_append, ih, recordElems_length, elemsBefore]

/-! ## A record -/

theorem byte_eq_be (m : Memory) (k : Nat) : BitVec.ofNat 8 (be m k 1) = m.byte k := by
  simp [be]

theorem fixedPart_fits (m : Memory) (w : Walk) (h : w.cur + 28 ≤ w.bodyEnd) :
    fixedPart m w = .ok { w with
      cur := w.cur + 28
      base := w.cur
      entry := { record8EAt m w.cur w.elems.length with
        cnt1B := 0, cnt2B := 0, cnt4B := 0, cnt8B := 0, cntNX := 0, recLen := 0 } } := by
  unfold fixedPart
  rw [take_ok m 8 w (by omega)]
  simp only [bind, Except.bind]
  rw [take_ok m 1 _ (by simp only; omega)]
  simp only
  rw [take_ok m 4 _ (by simp only; omega)]
  simp only
  rw [take_ok m 4 _ (by simp only; omega)]
  simp only
  rw [take_ok m 2 _ (by simp only; omega)]
  simp only
  rw [take_ok m 2 _ (by simp only; omega)]
  simp only
  rw [take_ok m 1 _ (by simp only; omega)]
  simp only
  rw [take_ok m 2 _ (by simp only; omega)]
  simp only
  rw [take_ok m 2 _ (by simp only; omega)]
  simp only
  rw [take_ok m 2 _ (by simp only; omega)]
  simp only [Nat.add_assoc, Nat.reduceAdd, byte_eq_be]
  rfl

theorem fixedPart_overruns (m : Memory) (w : Walk) (hw : w.cur ≤ w.bodyEnd) (h : w.bodyEnd < w.cur + 28) :
    FailsIn (fixedFields w.cur) w.bodyEnd (fixedPart m w) := by
  unfold fixedPart
  refine failsIn_take rfl (by simp [fixedFields]) hw fun h8 => ?_
  refine failsIn_take rfl (by simp [fixedFields]) h8 fun h9 => ?_
  refine failsIn_take rfl (by simp [fixedFields]) h9 fun h13 => ?_
  refine failsIn_take rfl (by simp [fixedFields]) h13 fun h17 => ?_
  refine failsIn_take rfl (by simp [fixedFields]) h17 fun h19 => ?_
  refine failsIn_take rfl (by simp [fixedFields]) h19 fun h21 => ?_
  refine failsIn_take rfl (by simp [fixedFields]) h21 fun h22 => ?_
  refine failsIn_take rfl (by simp [fixedFields]) h22 fun h24 => ?_
  refine failsIn_take rfl (by simp [fixedFields]) h24 fun h26 => ?_
  refine failsIn_take rfl (by simp [fixedFields]) h26 fun h28 => ?_
  exact absurd h28 (by simp only; omega)

theorem chain_ok {f g : Memory → Walk → Except Nat Walk} {m : Memory} {w w' : Walk} (h : f m w = .ok w') :
    chain f g m w = g m w' := by
  unfold chain
  rw [h]

/-- A record that fits (R182): its entry and its elements are appended, with the cursor at its end. -/
theorem recordPiece_fits (m : Memory) (w : Walk) (h : recordEnd m w.cur ≤ w.bodyEnd) :
    recordPiece m w = .ok { w with
      cur := recordEnd m w.cur
      base := w.cur
      entry := { record8EAt m w.cur w.elems.length with recLen := 0 }
      recs := w.recs ++ [record8EAt m w.cur w.elems.length]
      elems := w.elems ++ recordElems m w.recs.length w.cur } := by
  have h1 := start2B_ge m w.cur
  have h2 := start4B_ge m w.cur
  have h3 := start8B_ge m w.cur
  have h4 := startNX_ge m w.cur
  have h5 := recordEnd_ge_startNX m w.cur
  have e1 := fixedPart_fits m w (by omega)
  have e2 := (chain_ok (g := group1B) e1).trans (fixedGroup_fits 1 0 _ m _ (show start2B m w.cur ≤ w.bodyEnd by omega))
  have e3 := (chain_ok (g := group2B) e2).trans (fixedGroup_fits 2 1 _ m _ (show start4B m w.cur ≤ w.bodyEnd by omega))
  have e4 := (chain_ok (g := group4B) e3).trans (fixedGroup_fits 4 2 _ m _ (show start8B m w.cur ≤ w.bodyEnd by omega))
  have e5 := (chain_ok (g := group8B) e4).trans (fixedGroup_fits 8 3 _ m _ (show startNX m w.cur ≤ w.bodyEnd by omega))
  have e6 := (chain_ok (g := nxGroup) e5).trans (nxGroup_fits m _ h)
  refine (chain_ok (g := closeRecord) e6).trans ?_
  simp only [closeRecord, recordElems, List.append_assoc]
  rfl

/-- A piece that ends where `endOf` says when that lies within the body, and fails at the one of its `fields` that the
end of the body cuts when it does not. -/
def EndsAt (endOf : Memory → Nat → Nat) (fields : Memory → Nat → List (Nat × Nat))
    (piece : Memory → Walk → Except Nat Walk) : Prop :=
  ∀ m w, w.cur ≤ w.bodyEnd →
    (endOf m w.cur ≤ w.bodyEnd → ∃ w', piece m w = .ok w' ∧ w'.cur = endOf m w.cur ∧ w'.bodyEnd = w.bodyEnd) ∧
    (w.bodyEnd < endOf m w.cur → FailsIn (fields m w.cur) w.bodyEnd (piece m w))

theorem EndsAt.chain {e e' : Memory → Nat → Nat} {fs fs' : Memory → Nat → List (Nat × Nat)}
    {f g : Memory → Walk → Except Nat Walk} (hf : EndsAt e fs f) (hg : EndsAt e' fs' g) (he : ∀ m p, p ≤ e' m p) :
    EndsAt (fun m p => e' m (e m p)) (fun m p => fs m p ++ fs' m (e m p)) (chain f g) := by
  intro m w hw
  unfold Machine.chain
  rcases Nat.lt_or_ge w.bodyEnd (e m w.cur) with h | h
  · obtain ⟨pos, n, hp, hm, h1, h2⟩ := (hf m w hw).2 h
    rw [hp]
    exact ⟨fun h' => absurd (Nat.lt_of_lt_of_le h (Nat.le_trans (he m (e m w.cur)) h')) (Nat.lt_irrefl _),
      fun _ => ⟨pos, n, rfl, List.mem_append_left _ hm, h1, h2⟩⟩
  · obtain ⟨w', hp, hc, hb⟩ := (hf m w hw).1 h
    rw [hp]
    have hg' := hg m w' (by omega)
    rw [hc, hb] at hg'
    exact ⟨hg'.1, fun h' => (hg'.2 h').mono fun _ => List.mem_append_right _⟩

theorem fixedPart_endsAt : EndsAt (fun _ p => p + 28) (fun _ p => fixedFields p) fixedPart := fun m w hw =>
  ⟨fun h => ⟨_, fixedPart_fits m w h, rfl, rfl⟩, fixedPart_overruns m w hw⟩

theorem fixedGroup_endsAt (width : Nat) (kind : BitVec 3) (setCount : Half → RecEntry → RecEntry) :
    EndsAt (fun m p => fixedGroupEnd m width p) (fun m p => fixedGroupFields m width p)
      (fixedGroup width kind setCount) := fun m w hw =>
  ⟨fun h => ⟨_, fixedGroup_fits width kind setCount m w h, rfl, rfl⟩, fixedGroup_overruns width kind setCount m w hw⟩

theorem nxGroup_endsAt : EndsAt nxGroupEnd nxGroupFields nxGroup := fun m w hw =>
  ⟨fun h => ⟨_, nxGroup_fits m w h, rfl, rfl⟩, nxGroup_overruns m w hw⟩

theorem closeRecord_endsAt : EndsAt (fun _ p => p) (fun _ _ => []) closeRecord := fun _ _ hw =>
  ⟨fun _ => ⟨_, rfl, rfl, rfl⟩, fun h => absurd hw (Nat.not_le.mpr h)⟩

/-- A record ends where its counts say, or fails at the field that the end of the body cuts (R112, R187, R190). -/
theorem recordPiece_endsAt : EndsAt recordEnd recordFields recordPiece := by
  have hfix : ∀ (width : Nat) (m : Memory) (p : Nat), p ≤ fixedGroupEnd m width p := fun width m p => by
    have := fixedGroupEnd_ge m width p
    omega
  have h : EndsAt recordEnd (fun m p => recordFields m p ++ []) recordPiece :=
    (((((fixedPart_endsAt.chain (fixedGroup_endsAt 1 _ _) (hfix 1)).chain (fixedGroup_endsAt 2 _ _) (hfix 2)).chain
      (fixedGroup_endsAt 4 _ _) (hfix 4)).chain (fixedGroup_endsAt 8 _ _) (hfix 8)).chain nxGroup_endsAt
      (fun m p => by have := nxGroupEnd_ge m p; omega)).chain closeRecord_endsAt (fun _ _ => Nat.le_refl _)
  intro m w hw
  obtain ⟨h1, h2⟩ := h m w hw
  exact ⟨h1, fun hlt => (h2 hlt).mono fun x hx => by simpa using hx⟩

/-! ## A body -/

/-- The walk of records `i` to `i + n` of a body: where it is and what it holds, once it has come to record `i`. -/
def walkAt (m : Memory) (stop i : Nat) (w : Walk) : Prop :=
  w.cur = recordStart m i ∧ w.bodyEnd = stop ∧ w.recs = bodyRecords m i ∧ w.elems = bodyElems m i

theorem recordsPiece_walkAt (m : Memory) (stop n i : Nat) (w : Walk) (hw : walkAt m stop i w)
    (hi : recordStart m i ≤ stop) :
    (recordStart m (i + n) ≤ stop → ∃ w', recordsPiece n m w = .ok w' ∧ walkAt m stop (i + n) w') ∧
    (stop < recordStart m (i + n) →
      ∃ k, k < i + n ∧ FailsIn (recordFields m (recordStart m k)) stop (recordsPiece n m w)) := by
  obtain ⟨hc, hb, hr, he⟩ := hw
  induction n generalizing i w with
  | zero => exact ⟨fun _ => ⟨w, rfl, hc, hb, hr, he⟩, fun h => absurd hi (Nat.not_le.mpr h)⟩
  | succ n ih =>
    have hmono := recordStart_mono m (show i + 1 ≤ i + (n + 1) by omega)
    simp only [recordsPiece, chain]
    rcases Nat.lt_or_ge stop (recordStart m (i + 1)) with h | h
    · obtain ⟨pos, len, hp, hm, h1, h2⟩ := (recordPiece_endsAt m w (by omega)).2 (by rw [hc, hb]; exact h)
      rw [hp]
      rw [hc] at hm
      rw [hb] at h1 h2
      exact ⟨fun h' => by omega, fun _ => ⟨i, by omega, pos, len, rfl, hm, h1, h2⟩⟩
    · rw [recordPiece_fits m w (by rw [hc, hb]; exact h)]
      have := ih (i + 1) { w with
        cur := recordEnd m w.cur
        base := w.cur
        entry := { record8EAt m w.cur w.elems.length with recLen := 0 }
        recs := w.recs ++ [record8EAt m w.cur w.elems.length]
        elems := w.elems ++ recordElems m w.recs.length w.cur } h (by rw [hc]; rfl) hb
        (by rw [bodyRecords_succ, hc, hr, he, bodyElems_length])
        (by rw [bodyElems_succ, hc, hr, he, bodyRecords_length])
      rwa [show i + 1 + n = i + (n + 1) by omega] at this

/-- Everything the walk of a whole body can do: its records and elements, when they fit; a failure at the field of a
record that the end of the body cuts, when they do not (R181, R187, R189, R190, R196). -/
theorem recordsPiece_body (m : Memory) (stop n : Nat) (hs : 10 ≤ stop) :
    (recordStart m n ≤ stop → ∃ w', recordsPiece n m (firstWalk stop) = .ok w' ∧ w'.cur = recordStart m n ∧
      w'.recs = bodyRecords m n ∧ w'.elems = bodyElems m n) ∧
    (stop < recordStart m n →
      ∃ pos, 10 ≤ pos ∧ pos ≤ stop ∧ recordsPiece n m (firstWalk stop) = .error pos ∧
        ∃ k len, k < n ∧ (pos, len) ∈ recordFields m (recordStart m k) ∧ stop < pos + len) := by
  have h := recordsPiece_walkAt m stop n 0 (firstWalk stop) ⟨rfl, rfl, rfl, rfl⟩ hs
  rw [Nat.zero_add] at h
  refine ⟨fun hn => ?_, fun hn => ?_⟩
  · obtain ⟨w', e, h1, -, h3, h4⟩ := h.1 hn
    exact ⟨w', e, h1, h3, h4⟩
  · obtain ⟨k, hk, pos, len, e, hm, -, hlt⟩ := h.2 hn
    have hg := recordsPiece_firstWalk n stop hs m
    rw [e] at hg
    exact ⟨pos, hg.1, hg.2, e, k, len, hk, hm, hlt⟩

end Sys2Proof.Machine
end

