-- ==== Sys2Proof/Laws/Bus.lean ====
section
/-! SUPPORT. Host accesses: which are admitted, and what one access does, region by region (spec/20_memory.md). -/

namespace Sys2Proof.Machine

/-! ## The step of one event -/

theorem step_none {s : State} (h : s.pending = []) : step s = engineStep s := by
  simp [step, stepEvent, h]

theorem step_event {s : State} {e : Event} {rest : List Event} (h : s.pending = e :: rest) :
    step s = runEvent e { s with pending := rest } := by
  simp [step, stepEvent, h]

/-! ## Admission (R76) -/

theorem admitted_frame {a : BitVec 16} (n : Width) (h : 0x0800 ≤ a.toNat ∧ a.toNat < 0x1000) :
    admitted a n = decide (a.toNat % n.bytes = 0) := by
  unfold admitted
  exact if_pos (decide_eq_true h)

theorem admitted_other {a : BitVec 16} (n : Width) (h : ¬ (0x0800 ≤ a.toNat ∧ a.toNat < 0x1000)) :
    admitted a n = decide (n = .w32 ∧ a.toNat % 4 = 0) := by
  unfold admitted
  exact if_neg (by simpa [inFrameBuffer] using h)

theorem memRead_admitted {a : BitVec 16} {n : Width} (s : State) (h : admitted a n = true) :
    memRead a n s = .next { s with response := .data (readValue s a.toNat n) } := if_pos h

theorem memRead_refused {a : BitVec 16} {n : Width} (s : State) (h : admitted a n = false) :
    memRead a n s = .fault (.busError a) := if_neg (by simp [h])

theorem memWrite_refused {a : BitVec 16} {n : Width} (v : Word) (s : State) (h : admitted a n = false) :
    memWrite a n v s = .fault (.busError a) := if_neg (by simp [h])

/-! ## Writes by region -/

theorem memWrite_frame {a : BitVec 16} {n : Width} (v : Word) (s : State)
    (h : 0x0800 ≤ a.toNat ∧ a.toNat < 0x1000) (ha : a.toNat % n.bytes = 0) :
    memWrite a n v s = .next (writeFrame (a.toNat - 0x0800) n v s) := by
  unfold memWrite
  rw [if_pos (by rw [admitted_frame n h]; exact decide_eq_true ha)]
  exact if_pos (decide_eq_true h)

theorem memWrite_ctrl (v : Word) (s : State) : memWrite 0x0004 .w32 v s = exec (decodeCommand v) s := rfl

theorem memWrite_status (v : Word) (s : State) : memWrite 0x0008 .w32 v s = .next (writeStatus v s) := rfl

theorem memWrite_irqEn (v : Word) (s : State) : memWrite 0x000C .w32 v s = .next (writeIrqEn v s) := rfl

theorem memWrite_frameLen (v : Word) (s : State) : memWrite 0x0010 .w32 v s = .next (writeFrameLen v s) := rfl

/-- Everything an admitted write outside the frame buffer can be (R79): a register write, or ignored. -/
theorem memWrite_other_cases {a : BitVec 16} (v : Word) (s : State) (h : ¬ (0x0800 ≤ a.toNat ∧ a.toNat < 0x1000))
    (ha : a.toNat % 4 = 0) :
    (a = 0x0004 ∧ memWrite a .w32 v s = exec (decodeCommand v) s) ∨
    (a = 0x0008 ∧ memWrite a .w32 v s = .next (writeStatus v s)) ∨
    (a = 0x000C ∧ memWrite a .w32 v s = .next (writeIrqEn v s)) ∨
    (a = 0x0010 ∧ memWrite a .w32 v s = .next (writeFrameLen v s)) ∨
    (a ≠ 0x0004 ∧ a ≠ 0x0008 ∧ a ≠ 0x000C ∧ a ≠ 0x0010 ∧ memWrite a .w32 v s = .next s) := by
  have hin : ¬ inFrameBuffer a.toNat = true := by simpa [inFrameBuffer] using h
  unfold memWrite
  rw [if_pos (by rw [admitted_other _ h]; exact decide_eq_true ⟨rfl, ha⟩), if_neg hin]
  by_cases h4 : a = 0x0004
  · exact .inl ⟨h4, if_pos h4⟩
  rw [if_neg h4]
  by_cases h8 : a = 0x0008
  · exact .inr (.inl ⟨h8, if_pos h8⟩)
  rw [if_neg h8]
  by_cases hc : a = 0x000C
  · exact .inr (.inr (.inl ⟨hc, if_pos hc⟩))
  rw [if_neg hc]
  by_cases h10 : a = 0x0010
  · exact .inr (.inr (.inr (.inl ⟨h10, if_pos h10⟩)))
  · exact .inr (.inr (.inr (.inr ⟨h4, h8, hc, h10, if_neg h10⟩)))

/-- Everything a write can be: not admitted, of frame bytes, or of the word at a register or other offset. -/
theorem memWrite_cases (a : BitVec 16) (n : Width) (v : Word) (s : State) :
    (admitted a n = false ∧ memWrite a n v s = .fault (.busError a)) ∨
    ((0x0800 ≤ a.toNat ∧ a.toNat < 0x1000) ∧ a.toNat % n.bytes = 0 ∧
      memWrite a n v s = .next (writeFrame (a.toNat - 0x0800) n v s)) ∨
    (¬ (0x0800 ≤ a.toNat ∧ a.toNat < 0x1000) ∧ n = .w32 ∧ a.toNat % 4 = 0) := by
  by_cases h : 0x0800 ≤ a.toNat ∧ a.toNat < 0x1000
  · by_cases ha : a.toNat % n.bytes = 0
    · exact .inr (.inl ⟨h, ha, memWrite_frame v s h ha⟩)
    · have hr : admitted a n = false := by rw [admitted_frame n h]; exact decide_eq_false ha
      exact .inl ⟨hr, memWrite_refused v s hr⟩
  · by_cases ha : n = .w32 ∧ a.toNat % 4 = 0
    · exact .inr (.inr ⟨h, ha⟩)
    · have hr : admitted a n = false := by rw [admitted_other n h]; exact decide_eq_false ha
      exact .inl ⟨hr, memWrite_refused v s hr⟩

theorem writeFrame_idle {s : State} (h : s.phase = .idle) (k : Nat) (n : Width) (v : Word) :
    writeFrame k n v s = { s with fb := s.fb.writeList k (laneBytes n v) } := if_neg (by simp [busy, h])

theorem writeFrame_busy {s : State} (h : s.phase = .busy) (k : Nat) (n : Width) (v : Word) :
    writeFrame k n v s = { s with wErr := true } := if_pos (by simp [busy, h])

theorem writeFrameLen_idle {s : State} (h : s.phase = .idle) (v : Word) :
    writeFrameLen v s = { s with frameLen := v.extractLsb' 0 12 } := if_neg (by simp [busy, h])

theorem writeFrameLen_busy {s : State} (h : s.phase = .busy) (v : Word) :
    writeFrameLen v s = { s with wErr := true } := if_pos (by simp [busy, h])

/-! ## Commands -/

/-- Everything a word written to `CTRL` can do (R240-R244). -/
theorem exec_command_cases (v : Word) (s : State) :
    (v.extractLsb' 0 4 = 0x0#4 ∧ exec (decodeCommand v) s = .next s) ∨
    (v.extractLsb' 0 4 = 0x1#4 ∧ exec (decodeCommand v) s = .next (startOrRefuse .decode s)) ∨
    (v.extractLsb' 0 4 = 0x2#4 ∧ exec (decodeCommand v) s = .next (startOrRefuse .crc s)) ∨
    (v.extractLsb' 0 4 = 0x3#4 ∧ exec (decodeCommand v) s = .next (clearOperation s)) ∨
    (0x4#4 ≤ v.extractLsb' 0 4 ∧ exec (decodeCommand v) s = .next (refuseCommand s)) := by
  have bits : ∀ c : BitVec 4,
      if c.getLsbD 3 || c.getLsbD 2 then 0x4#4 ≤ c
      else c = 0#2 ++ BitVec.ofBool (c.getLsbD 1) ++ BitVec.ofBool (c.getLsbD 0) := by decide
  have low : ∀ i, i < 4 → v.getLsbD i = (v.extractLsb' 0 4).getLsbD i := by
    intro i hi
    simp [hi]
  have hb := bits (v.extractLsb' 0 4)
  rw [← low 3 (by decide), ← low 2 (by decide), ← low 1 (by decide), ← low 0 (by decide)] at hb
  unfold decodeCommand
  cases h3 : v.getLsbD 3
  · cases h2 : v.getLsbD 2
    · cases h1 : v.getLsbD 1 <;> cases h0 : v.getLsbD 0 <;> rw [h3, h2, h1, h0] at hb
      · exact .inl ⟨hb, rfl⟩
      · exact .inr (.inl ⟨hb, rfl⟩)
      · exact .inr (.inr (.inl ⟨hb, rfl⟩))
      · exact .inr (.inr (.inr (.inl ⟨hb, rfl⟩)))
    · exact .inr (.inr (.inr (.inr ⟨by rw [h3, h2] at hb; exact hb, rfl⟩)))
  · exact .inr (.inr (.inr (.inr ⟨by rw [h3] at hb; exact hb, rfl⟩)))

end Sys2Proof.Machine
end

