-- ==== Sys2Proof/Laws/Completion.lean ====
section
/-! SUPPORT. Everything the engine's completion step can do (spec/44_frame_demux.md R210-R227, spec/41_crc16_arc.md
R147). -/

namespace Sys2Proof.Machine

/-! ## Operations -/

/-- Everything a START can do (R241, R242). -/
theorem startOrRefuse_cases (op : LastOp) (s : State) :
    (s.phase = .idle ∧ startOrRefuse op s = startOperation op s) ∨
    (s.phase = .busy ∧ startOrRefuse op s = refuseCommand s) := by
  unfold startOrRefuse
  cases h : s.phase
  · exact .inl ⟨rfl, rfl⟩
  · exact .inr ⟨rfl, rfl⟩

/-- Everything the completion of a CRC operation can do (R147). -/
theorem crcCompletion_cases (s : State) :
    (2048 < s.frameLen.toNat ∧ crcCompletion s = finish .errFrameLen s) ∨
    (s.frameLen.toNat ≤ 2048 ∧ crcCompletion s =
      finish .ok { s with results := { s.results with crcCalc := crc16arc (s.fb.range 0 s.frameLen.toNat) } }) := by
  unfold crcCompletion
  split
  · exact .inl ⟨‹_›, rfl⟩
  · exact .inr ⟨by simp only [Config.frameMax] at *; omega, rfl⟩

theorem checksumVerifies_iff (m : Memory) (len : Nat) :
    checksumVerifies m len = true ↔ (crc16arc (m.range 8 (len - 4))).setWidth 32 = BitVec.ofNat 32 (be m (len - 4) 4) :=
  decide_eq_true_iff

theorem dispatches_iff (codec : Byte) (s : State) :
    dispatches codec s = true ↔ s.phase = .busy ∧ s.lastOp = .decode ∧ 15 ≤ s.frameLen.toNat ∧
      s.frameLen.toNat ≤ 2048 ∧ s.fb.byte 8 = codec :=
  decide_eq_true_iff

/-- The Codec 8 loop never finds more records than it looks for. -/
theorem decode8Loop_length (m : Memory) (stride stop n cur : Nat) (recs : List RecEntry) :
    (decode8Loop m stride stop n cur recs).1.length ≤ recs.length + n := by
  induction n generalizing cur recs with
  | zero => simp [decode8Loop]
  | succ n ih =>
    simp only [decode8Loop]
    split
    · simp
    · have := ih (cur + stride) (recs ++ [record8 m stride cur])
      simp only [List.length_append, List.length_singleton] at this
      omega

theorem decode8_length (s : State) : (decode8 s).1.length ≤ 255 := by
  have h := decode8Loop_length s.fb s.c8Stride (bodyEnd s) (recordCount1 s) Config.hdrLen []
  have h9 := (s.fb.byte 9).isLt
  simp only [recordCount1, List.length_nil] at h
  exact Nat.le_trans h (by omega)

/-! ## Codec rows -/

/-- Everything `CODEC8` can do once the dispatch has selected it (R161, R217). -/
theorem execCodec8_cases (s : State) (hd : dispatches codec8Byte s = true) :
    (checksumVerifies s.fb s.frameLen.toNat = false ∧ execCodec8 s = .next (finish .errCrc s)) ∨
    (checksumVerifies s.fb s.frameLen.toNat = true ∧
      execCodec8 s = .next (succeed (decode8 s).1 [] (decode8 s).2.1 (decode8 s).2.2 s)) := by
  unfold execCodec8
  rw [if_pos hd]
  cases h : checksumVerifies s.fb s.frameLen.toNat
  · exact .inl ⟨rfl, rfl⟩
  · exact .inr ⟨rfl, rfl⟩

/-- Everything `CODEC8E` can do once the dispatch has selected it (R181, R187, R217): the whole body, or one failure
position within it. -/
theorem execCodec8E_cases (s : State) (hd : dispatches codec8EByte s = true) :
    (checksumVerifies s.fb s.frameLen.toNat = false ∧ execCodec8E s = .next (finish .errCrc s)) ∨
    (checksumVerifies s.fb s.frameLen.toNat = true ∧ recordStart s.fb (recordCount1 s) ≤ bodyEnd s ∧
      execCodec8E s = .next (succeed (bodyRecords s.fb (recordCount1 s)) (bodyElems s.fb (recordCount1 s)) false
        (recordStart s.fb (recordCount1 s)) s)) ∨
    (checksumVerifies s.fb s.frameLen.toNat = true ∧ bodyEnd s < recordStart s.fb (recordCount1 s) ∧
      ∃ pos, 10 ≤ pos ∧ pos ≤ bodyEnd s ∧
        (∃ k len, k < recordCount1 s ∧ (pos, len) ∈ recordFields s.fb (recordStart s.fb k) ∧ bodyEnd s < pos + len) ∧
        recordsPiece (recordCount1 s) s.fb (firstWalk (bodyEnd s)) = .error pos ∧
        execCodec8E s = .next (failMalformed pos s)) := by
  obtain ⟨-, -, hl, -, -⟩ := (dispatches_iff codec8EByte s).mp hd
  have hstop : 10 ≤ bodyEnd s := by
    simp only [bodyEnd, Config.trlLen]
    omega
  obtain ⟨hfit, hover⟩ := recordsPiece_body s.fb (bodyEnd s) (recordCount1 s) hstop
  rw [execCodec8E_eq s hd]
  cases h : checksumVerifies s.fb s.frameLen.toNat
  · exact .inl ⟨rfl, rfl⟩
  · rcases Nat.lt_or_ge (bodyEnd s) (recordStart s.fb (recordCount1 s)) with hn | hn
    · obtain ⟨pos, h1, h2, e, hf⟩ := hover hn
      exact .inr (.inr ⟨rfl, hn, pos, h1, h2, hf, e, by rw [e]; rfl⟩)
    · obtain ⟨w, e, hc, hr, he⟩ := hfit hn
      exact .inr (.inl ⟨rfl, hn, by rw [e, ← hc, ← hr, ← he]; rfl⟩)

/-! ## The completion of a DECODE -/

/-- What the completion step runs, whether its event is the next or no event is left. -/
theorem step_completing {op : LastOp} {s : State} (h : completing op s) :
    step s = engineStep { s with pending := s.pending.tail } := by
  obtain ⟨-, -, hp | ⟨rest, hp⟩⟩ := h
  · rw [show ({ s with pending := s.pending.tail } : State) = s by rw [hp, List.tail_nil, ← hp]]
    simp only [step, stepEvent, hp]
  · simp only [step, stepEvent, hp, runEvent, List.tail_cons]

/-- The completion step of a DECODE is `decodeCompletion`. -/
theorem step_completing_decode {s : State} (h : completing .decode s) :
    step s = decodeCompletion { s with pending := s.pending.tail } := by
  rw [step_completing h]
  simp only [engineStep, h.1, h.2.1]

/-- Everything the completion of a DECODE can do (R210): one of the two length errors, or, with the header parsed, one
of the codec error, the checksum error, an OK end of either codec, or a malformed Codec 8E body. -/
theorem decodeCompletion_cases (s : State) (hb : s.phase = .busy) (hl : s.lastOp = .decode) :
    (2048 < s.frameLen.toNat ∧ decodeCompletion s = .next (finish .errFrameLen s)) ∨
    (s.frameLen.toNat < 15 ∧ decodeCompletion s = .next (finish .errShortFrame s)) ∨
    (15 ≤ s.frameLen.toNat ∧ s.frameLen.toNat ≤ 2048 ∧
      ((s.fb.byte 8 ≠ 0x08 ∧ s.fb.byte 8 ≠ 0x8E ∧ decodeCompletion s = .next (finish .errCodec (parseHeader s))) ∨
       ((s.fb.byte 8 = 0x08 ∨ s.fb.byte 8 = 0x8E) ∧ checksumVerifies s.fb s.frameLen.toNat = false ∧
        decodeCompletion s = .next (finish .errCrc (parseHeader s))) ∨
       (s.fb.byte 8 = 0x08 ∧ checksumVerifies s.fb s.frameLen.toNat = true ∧
        decodeCompletion s =
          .next (succeed (decode8 s).1 [] (decode8 s).2.1 (decode8 s).2.2 (parseHeader s))) ∨
       (s.fb.byte 8 = 0x8E ∧ checksumVerifies s.fb s.frameLen.toNat = true ∧
        recordStart s.fb (recordCount1 s) ≤ bodyEnd s ∧
        decodeCompletion s = .next (succeed (bodyRecords s.fb (recordCount1 s)) (bodyElems s.fb (recordCount1 s)) false
          (recordStart s.fb (recordCount1 s)) (parseHeader s))) ∨
       (s.fb.byte 8 = 0x8E ∧ checksumVerifies s.fb s.frameLen.toNat = true ∧
        bodyEnd s < recordStart s.fb (recordCount1 s) ∧
        ∃ pos, 10 ≤ pos ∧ pos ≤ bodyEnd s ∧
          recordsPiece (recordCount1 s) s.fb (firstWalk (bodyEnd s)) = .error pos ∧
          decodeCompletion s = .next (failMalformed pos (parseHeader s))))) := by
  unfold decodeCompletion
  simp only [Config.frameMax, Config.minFrame]
  split
  · exact .inl ⟨‹_›, rfl⟩
  split
  · exact .inr (.inl ⟨‹_›, rfl⟩)
  rename_i h1 h2
  refine .inr (.inr ⟨by omega, by omega, ?_⟩)
  have hd : ∀ c, s.fb.byte 8 = c → dispatches c (parseHeader s) = true := fun c hc =>
    (dispatches_iff c (parseHeader s)).mpr ⟨hb, hl, Nat.le_of_not_lt h2, Nat.le_of_not_lt h1, hc⟩
  unfold decodeCodec
  split
  · rename_i hc
    rcases execCodec8_cases (parseHeader s) (hd _ hc) with ⟨hv, e⟩ | ⟨hv, e⟩
    · exact .inr (.inl ⟨.inl hc, hv, e⟩)
    · exact .inr (.inr (.inl ⟨hc, hv, e⟩))
  split
  · rename_i hc
    rcases execCodec8E_cases (parseHeader s) (hd _ hc) with ⟨hv, e⟩ | ⟨hv, hn, e⟩ | ⟨hv, hn, pos, h3, h4, -, h5, e⟩
    · exact .inr (.inl ⟨.inr hc, hv, e⟩)
    · exact .inr (.inr (.inr (.inl ⟨hc, hv, hn, e⟩)))
    · exact .inr (.inr (.inr (.inr ⟨hc, hv, hn, pos, h3, h4, h5, e⟩)))
  · rename_i h8 h8e
    exact .inl ⟨h8, h8e, if_pos (hd _ rfl)⟩

/-- The elements of a body that fits are at most a third of it (R198). -/
theorem elemsBefore_le (m : Memory) (n stop : Nat) (hs : 10 ≤ stop) (h : recordStart m n ≤ stop) :
    10 + 38 * n + 3 * elemsBefore m n ≤ stop := by
  have hg := recordsPiece_firstWalk n stop hs m
  obtain ⟨w, e, -, -, he⟩ := (recordsPiece_body m stop n hs).1 h
  rw [e] at hg
  obtain ⟨-, -, h1, -, h2⟩ := hg
  rw [he, bodyElems_length] at h2
  omega

/-- Everything the engine's step can do to the control state: take no step, or end the operation (R227, R249). -/
theorem engineStep_cases {s t : State} (h : engineStep s = .next t) :
    t = s ∨ (s.phase = .busy ∧ t.phase = .idle ∧ t.done = true ∧ t.badCmd = s.badCmd ∧ t.wErr = s.wErr ∧
      t.lastOp = s.lastOp ∧ t.fb = s.fb ∧ t.c8Stride = s.c8Stride ∧ t.pending = s.pending) := by
  unfold engineStep at h
  split at h
  · rename_i hb hl
    right
    rcases decodeCompletion_cases s hb hl with ⟨-, e⟩ | ⟨-, e⟩ | ⟨-, -, hc⟩
    · rw [e] at h; cases h; exact ⟨hb, rfl, rfl, rfl, rfl, rfl, rfl, rfl, rfl⟩
    · rw [e] at h; cases h; exact ⟨hb, rfl, rfl, rfl, rfl, rfl, rfl, rfl, rfl⟩
    · rcases hc with ⟨-, -, e⟩ | ⟨-, -, e⟩ | ⟨-, -, e⟩ | ⟨-, -, -, e⟩ | ⟨-, -, -, _, -, -, -, e⟩ <;>
        (rw [e] at h; cases h; exact ⟨hb, rfl, rfl, rfl, rfl, rfl, rfl, rfl, rfl⟩)
  · rename_i hb _
    right
    cases h
    rcases crcCompletion_cases s with ⟨-, e⟩ | ⟨-, e⟩ <;>
      (rw [e]; exact ⟨hb, rfl, rfl, rfl, rfl, rfl, rfl, rfl, rfl⟩)
  · cases h; exact .inl rfl
  · cases h; exact .inl rfl

end Sys2Proof.Machine
end

