-- ==== Sys2Proof/Laws/HostProgram.lean ====
section
/-! SUPPORT. Host programs under a schedule: what one entry of the schedule does (spec/30_encoding.md R134). -/

namespace Sys2Proof.Machine

@[simp] theorem andThen_next {α β : Type} (a : α) (f : α → Host.Outcome β Fault Refusal) : andThen (.next a) f = f a := rfl

@[simp] theorem andThen_fault {α β : Type} (r : Fault) (f : α → Host.Outcome β Fault Refusal) :
    andThen (.fault r) f = .fault r := rfl

@[simp] theorem andThen_refused {α β : Type} (r : Refusal) (f : α → Host.Outcome β Fault Refusal) :
    andThen (.refused r) f = .refused r := rfl

/-- A step whose event comes next runs that event. -/
theorem step_arrive (e : Event) (s : State) : step { s with pending := e :: s.pending } = runEvent e s := rfl

@[simp] theorem runEvents_nil (s : State) : runEvents [] s = .next s := rfl

theorem runEvents_cons (e : Event) (es : List Event) (s : State) :
    runEvents (e :: es) s = andThen (runEvent e s) (runEvents es) := rfl

@[simp] theorem runHost_done (sched : List (List Event)) (s : State) : runHost sched [] s = .next ([], s) := by
  cases sched <;> rfl

@[simp] theorem runHost_waits (op : HostOp) (ops : List HostOp) (s : State) :
    runHost [] (op :: ops) s = .next (op :: ops, s) := rfl

theorem runHost_cons (before : List Event) (sched : List (List Event)) (op : HostOp) (ops : List HostOp) (s : State) :
    runHost (before :: sched) (op :: ops) s =
      andThen (runEvents (before ++ [op.event]) s) fun t => runHost sched (if op.over t then ops else op :: ops) t := rfl

/-- Bit 1 of `STATUS` as read is DONE (R24). -/
theorem statusWord_done (s : State) : (statusWord s).getLsbD 1 = s.done := by
  unfold statusWord busy ackValid
  cases s.phase <;> cases s.done <;> cases s.badCmd <;> cases s.wErr <;> cases s.lastOp <;> cases s.result <;> decide

end Sys2Proof.Machine
end

