-- ==== Sys2Proof/Laws/PerInstr.lean ====
section
/-! SUPPORT. Families of laws with one lemma per constructor of `Instr`. -/

namespace Sys2Proof.Laws

/-! ## `MatchesRow`: what an instruction encodes to matches its own row of the opcode table (R135) -/

/-- The field value a well-formed instruction encodes to agrees with the row's match value under its mask. -/
def MatchesRow.Statement (i : Instr) : Prop := i.wellFormed = true → rowMatches (rowOf i) (encode i) = true

/-- The low four bits of a command word. -/
theorem command_low (ignored : BitVec 28) (c : BitVec 4) (mask : Nat) (hm : mask < 16) :
    (ignored ++ c).toNat &&& mask = c.toNat &&& mask := by
  have h : (ignored ++ c).toNat % 16 = c.toNat := by
    rw [BitVec.toNat_append, ← Nat.shiftLeft_add_eq_or_of_lt c.isLt, Nat.shiftLeft_eq]
    have := c.isLt
    omega
  calc (ignored ++ c).toNat &&& mask = ((ignored ++ c).toNat &&& mask) % 2 ^ 4 :=
        (Nat.mod_eq_of_lt (Nat.lt_of_le_of_lt Nat.and_le_right hm)).symm
    _ = ((ignored ++ c).toNat % 2 ^ 4) &&& (mask % 2 ^ 4) := Nat.and_mod_two_pow
    _ = c.toNat &&& mask := by
        rw [show (2 : Nat) ^ 4 = 16 from rfl, h, Nat.mod_eq_of_lt hm]

theorem reserved47_low : ∀ low : BitVec 2, (0b01#2 ++ low).toNat &&& 0xC = 0x4 := by decide

theorem reserved8F_low : ∀ low : BitVec 3, (0b1#1 ++ low).toNat &&& 0x8 = 0x8 := by decide

theorem MatchesRow.cmdNop (ignored : BitVec 28) : MatchesRow.Statement (.cmdNop ignored) := fun _ =>
  decide_eq_true ⟨rfl, command_low ignored 0x0#4 0xF (by decide)⟩

theorem MatchesRow.cmdDecode (ignored : BitVec 28) : MatchesRow.Statement (.cmdDecode ignored) := fun _ =>
  decide_eq_true ⟨rfl, command_low ignored 0x1#4 0xF (by decide)⟩

theorem MatchesRow.cmdCrc (ignored : BitVec 28) : MatchesRow.Statement (.cmdCrc ignored) := fun _ =>
  decide_eq_true ⟨rfl, command_low ignored 0x2#4 0xF (by decide)⟩

theorem MatchesRow.cmdClear (ignored : BitVec 28) : MatchesRow.Statement (.cmdClear ignored) := fun _ =>
  decide_eq_true ⟨rfl, command_low ignored 0x3#4 0xF (by decide)⟩

theorem MatchesRow.cmdReserved47 (low : BitVec 2) (ignored : BitVec 28) :
    MatchesRow.Statement (.cmdReserved47 low ignored) := fun _ =>
  decide_eq_true ⟨rfl, (command_low ignored (0b01#2 ++ low) 0xC (by decide)).trans (reserved47_low low)⟩

theorem MatchesRow.cmdReserved8F (low : BitVec 3) (ignored : BitVec 28) :
    MatchesRow.Statement (.cmdReserved8F low ignored) := fun _ =>
  decide_eq_true ⟨rfl, (command_low ignored (0b1#1 ++ low) 0x8 (by decide)).trans (reserved8F_low low)⟩

theorem MatchesRow.codec8 : MatchesRow.Statement .codec8 := fun _ => rfl

theorem MatchesRow.codec8E : MatchesRow.Statement .codec8E := fun _ => rfl

theorem MatchesRow.codecUnrecognized (codec : Byte) : MatchesRow.Statement (.codecUnrecognized codec) := fun _ =>
  decide_eq_true ⟨rfl, Nat.and_zero _⟩

theorem MatchesRow.io1B : MatchesRow.Statement .io1B := fun _ => rfl

theorem MatchesRow.io2B : MatchesRow.Statement .io2B := fun _ => rfl

theorem MatchesRow.io4B : MatchesRow.Statement .io4B := fun _ => rfl

theorem MatchesRow.io8B : MatchesRow.Statement .io8B := fun _ => rfl

theorem MatchesRow.ioNX : MatchesRow.Statement .ioNX := fun _ => rfl

theorem MatchesRow.reservedKind5 : MatchesRow.Statement .reservedKind5 := fun _ => rfl

theorem MatchesRow.reservedKind67 (low : BitVec 1) : MatchesRow.Statement (.reservedKind67 low) := by
  revert low
  unfold MatchesRow.Statement
  decide

end Sys2Proof.Laws
end

