-- ==== Sys2Proof/Tests/Slice0.lean ====
section
/-! SUPPORT. Tests. Every expected value comes from spec/95_test_vectors.md or is written out from an encoding of
spec/30_encoding.md; the witnesses at the end meet the hypotheses of the obligations. -/

-- One theorem at a time: their evaluations side by side take more memory than the check allows.
set_option Elab.async false

namespace Sys2Proof.Tests

open Sys2Proof.Machine

/-! ## Well-formedness: the one check -/

theorem test_wellFormed_refuses_0x08 : (Instr.codecUnrecognized 0x08).wellFormed = false := by decide

theorem test_wellFormed_refuses_0x8E : (Instr.codecUnrecognized 0x8E).wellFormed = false := by decide

theorem test_wellFormed_admits_0x10 : (Instr.codecUnrecognized 0x10).wellFormed = true := by decide

/-! ## Decoding: each row's word, from R106, R123, R130 and, for the bytes, R75 -/

theorem test_decode_nop : decodeBytes .command [0x00, 0x00, 0x00, 0x00] = .ok (.cmdNop 0) := by decide

theorem test_decode_decode : decodeBytes .command [0x01, 0x00, 0x00, 0x00] = .ok (.cmdDecode 0) := by decide

/-- Bits [31:4] are carried and take no part: `0x80000012`, low byte first. -/
theorem test_decode_crc : decodeBytes .command [0x12, 0x00, 0x00, 0x80] = .ok (.cmdCrc 0x8000001) := by decide

theorem test_decode_clear : decodeBytes .command [0x03, 0x00, 0x00, 0x00] = .ok (.cmdClear 0) := by decide

theorem test_decode_reserved47 : decodeBytes .command [0x06, 0x00, 0x00, 0x00] = .ok (.cmdReserved47 2 0) := by decide

theorem test_decode_reserved8F : decodeBytes .command [0x0F, 0x00, 0x00, 0x00] = .ok (.cmdReserved8F 7 0) := by decide

theorem test_decode_codec8 : decodeBytes .codec [0x08] = .ok .codec8 := by decide

theorem test_decode_codec8E : decodeBytes .codec [0x8E] = .ok .codec8E := by decide

theorem test_decode_codecUnrecognized : decodeBytes .codec [0x0C] = .ok (.codecUnrecognized 0x0C) := by decide

/-- Word 0 of TE-2's ELEM[0], ELEM[2], ELEM[3], ELEM[4] and ELEM[5], low byte first. -/
theorem test_decode_kinds :
    decodeBytes .kind [0xEF, 0x00, 0x00, 0x00] = .ok .io1B ∧ decodeBytes .kind [0x43, 0x00, 0x01, 0x00] = .ok .io2B ∧
    decodeBytes .kind [0xF1, 0x00, 0x02, 0x00] = .ok .io4B ∧ decodeBytes .kind [0x10, 0x00, 0x03, 0x00] = .ok .io8B ∧
    decodeBytes .kind [0x00, 0x01, 0x04, 0x00] = .ok .ioNX := by decide

theorem test_decode_reserved_kinds :
    decodeBytes .kind [0x00, 0x00, 0x05, 0x00] = .ok .reservedKind5 ∧
    decodeBytes .kind [0x00, 0x00, 0x06, 0x00] = .ok (.reservedKind67 0) ∧
    decodeBytes .kind [0x00, 0x00, 0x07, 0x00] = .ok (.reservedKind67 1) := by decide

theorem test_decode_rejects_by_name :
    decodeBytes .command [0x01] = .error (.wrongLength .command 1) ∧
    decodeBytes .codec [] = .error (.wrongLength .codec 0) ∧
    decodeBytes .kind [0x00, 0x00] = .error (.wrongLength .kind 2) := by decide

theorem test_table_words :
    decodeTableWord 8 0x1 = some (.cmdDecode 0) ∧ decodeTableWord 8 0x8E = some .codec8E ∧
    decodeTableWord 0 0 = some (.codecUnrecognized 0) ∧ decodeTableWord 8 0x100 = none := by decide

/-! ## Frames of spec/95_test_vectors.md section 3.1 -/

/-- T8-1: Codec 8, one record. -/
def frameT81 : List Byte :=
  [0x00, 0x00, 0x00, 0x00, 0x00, 0x00, 0x00, 0x1D, 0x08, 0x01, 0x00, 0x00, 0x01, 0x6B, 0x40, 0xD8, 0xEA, 0x30, 0x01,
   0x04, 0x79, 0x62, 0xC0, 0xEB, 0xE9, 0xB7, 0x00, 0x00, 0x96, 0x00, 0xB4, 0x0B, 0x00, 0x50, 0x00, 0x00, 0x01, 0x00,
   0x00, 0xD7, 0xFD]

/-- T8-3: Codec 8, no records, the smallest frame. -/
def frameT83 : List Byte :=
  [0x00, 0x00, 0x00, 0x00, 0x00, 0x00, 0x00, 0x03, 0x08, 0x00, 0x00, 0x00, 0x00, 0xC2, 0x81]

/-- T8-8: Codec 8, `N1 = 2`, one whole record. -/
def frameT88 : List Byte :=
  [0x00, 0x00, 0x00, 0x00, 0x00, 0x00, 0x00, 0x27, 0x08, 0x02, 0x00, 0x00, 0x01, 0x6B, 0x40, 0xD8, 0xEA, 0x30, 0x01,
   0x04, 0x79, 0x62, 0xC0, 0xEB, 0xE9, 0xB7, 0x00, 0x00, 0x96, 0x00, 0xB4, 0x0B, 0x00, 0x50, 0x00, 0x00, 0x00, 0x00,
   0x01, 0x6B, 0x40, 0xD8, 0xEA, 0x30, 0x01, 0x04, 0x02, 0x00, 0x00, 0x2B, 0x46]

/-- TE-1: Codec 8E, one record with every count 0. -/
def frameTE1 : List Byte :=
  [0x00, 0x00, 0x00, 0x00, 0x00, 0x00, 0x00, 0x29, 0x8E, 0x01, 0x00, 0x00, 0x01, 0x6B, 0x40, 0xD8, 0xEA, 0x30, 0x00,
   0x00, 0x00, 0x00, 0x00, 0x00, 0x00, 0x00, 0x00, 0x00, 0x00, 0x00, 0x00, 0x00, 0x00, 0x00, 0x00, 0x00, 0x00, 0x00,
   0x00, 0x00, 0x00, 0x00, 0x00, 0x00, 0x00, 0x00, 0x00, 0x00, 0x01, 0x00, 0x00, 0x23, 0x01]

/-- TE-2: Codec 8E, one record using every group. -/
def frameTE2 : List Byte :=
  [0x00, 0x00, 0x00, 0x00, 0x00, 0x00, 0x00, 0x55, 0x8E, 0x01, 0x00, 0x00, 0x01, 0x7F, 0x8A, 0x6B, 0x5C, 0x40, 0x02,
   0x0F, 0x0E, 0xA8, 0x50, 0x20, 0x93, 0x96, 0x6A, 0x01, 0x40, 0x00, 0x5A, 0x09, 0x00, 0x3E, 0x00, 0xF0, 0x00, 0x05,
   0x00, 0x02, 0x00, 0xEF, 0x01, 0x00, 0x15, 0x04, 0x00, 0x01, 0x00, 0x43, 0x01, 0x18, 0x00, 0x01, 0x00, 0xF1, 0x00,
   0x01, 0xA2, 0xB3, 0x00, 0x01, 0x00, 0x10, 0x00, 0x00, 0x00, 0x00, 0x00, 0x12, 0x34, 0x56, 0x00, 0x02, 0x01, 0x00,
   0x00, 0x0A, 0x01, 0x02, 0x03, 0x04, 0x05, 0x06, 0x07, 0x08, 0x09, 0x0A, 0x01, 0x01, 0x00, 0x00, 0x01, 0x00, 0x00,
   0x44, 0x13]

/-- TE-5: Codec 8E, cut off after the 1B count. -/
def frameTE5 : List Byte :=
  [0x00, 0x00, 0x00, 0x00, 0x00, 0x00, 0x00, 0x21, 0x8E, 0x01, 0x00, 0x00, 0x01, 0x6B, 0x40, 0xD8, 0xEA, 0x30, 0x00,
   0x00, 0x00, 0x00, 0x00, 0x00, 0x00, 0x00, 0x00, 0x00, 0x00, 0x00, 0x00, 0x00, 0x00, 0x00, 0x00, 0x00, 0x00, 0x00,
   0x00, 0x01, 0x01, 0x00, 0x00, 0x27, 0xA1]

/-- TE-6: Codec 8E, `N1 = 2`, one whole record. -/
def frameTE6 : List Byte :=
  [0x00, 0x00, 0x00, 0x00, 0x00, 0x00, 0x00, 0x29, 0x8E, 0x02, 0x00, 0x00, 0x01, 0x6B, 0x40, 0xD8, 0xEA, 0x30, 0x00,
   0x00, 0x00, 0x00, 0x00, 0x00, 0x00, 0x00, 0x00, 0x00, 0x00, 0x00, 0x00, 0x00, 0x00, 0x00, 0x00, 0x00, 0x00, 0x00,
   0x00, 0x00, 0x00, 0x00, 0x00, 0x00, 0x00, 0x00, 0x00, 0x00, 0x02, 0x00, 0x00, 0x29, 0xB5]

/-- TE-7: Codec 8E, an NX value that overruns. -/
def frameTE7 : List Byte :=
  [0x00, 0x00, 0x00, 0x00, 0x00, 0x00, 0x00, 0x31, 0x8E, 0x01, 0x00, 0x00, 0x01, 0x6B, 0x40, 0xD8, 0xEA, 0x30, 0x00,
   0x00, 0x00, 0x00, 0x00, 0x00, 0x00, 0x00, 0x00, 0x00, 0x00, 0x00, 0x00, 0x00, 0x00, 0x00, 0x00, 0x00, 0x00, 0x00,
   0x00, 0x00, 0x00, 0x00, 0x00, 0x00, 0x00, 0x00, 0x00, 0x01, 0x01, 0x02, 0x00, 0x20, 0x00, 0x00, 0x00, 0x00, 0x01,
   0x00, 0x00, 0xB2, 0xC5]

/-- TE-9: Codec 8E, one NX element of length 0 that ends at the end of the body. -/
def frameTE9 : List Byte :=
  [0x00, 0x00, 0x00, 0x00, 0x00, 0x00, 0x00, 0x2D, 0x8E, 0x01, 0x00, 0x00, 0x01, 0x6B, 0x40, 0xD8, 0xEA, 0x30, 0x00,
   0x00, 0x00, 0x00, 0x00, 0x00, 0x00, 0x00, 0x00, 0x00, 0x00, 0x00, 0x00, 0x00, 0x00, 0x00, 0x00, 0x00, 0x00, 0x01,
   0x00, 0x00, 0x00, 0x00, 0x00, 0x00, 0x00, 0x00, 0x00, 0x01, 0x01, 0xFF, 0x00, 0x00, 0x01, 0x00, 0x00, 0xA3, 0xC1]

/-- TE-10: Codec 8E, cut off inside ANGLE. -/
def frameTE10 : List Byte :=
  [0x00, 0x00, 0x00, 0x00, 0x00, 0x00, 0x00, 0x17, 0x8E, 0x01, 0x00, 0x00, 0x01, 0x6B, 0x40, 0xD8, 0xEA, 0x30, 0x00,
   0x00, 0x00, 0x00, 0x00, 0x00, 0x00, 0x00, 0x00, 0x00, 0x00, 0x00, 0x01, 0x00, 0x00, 0x73, 0xD5]

/-- TE-12: Codec 8E, no records. -/
def frameTE12 : List Byte :=
  [0x00, 0x00, 0x00, 0x00, 0x00, 0x00, 0x00, 0x03, 0x8E, 0x00, 0x00, 0x00, 0x00, 0x2B, 0x60]

/-- TF-1: T8-1 with PRIO changed and the checksum kept. -/
def frameTF1 : List Byte :=
  [0x00, 0x00, 0x00, 0x00, 0x00, 0x00, 0x00, 0x1D, 0x08, 0x01, 0x00, 0x00, 0x01, 0x6B, 0x40, 0xD8, 0xEA, 0x30, 0x00,
   0x04, 0x79, 0x62, 0xC0, 0xEB, 0xE9, 0xB7, 0x00, 0x00, 0x96, 0x00, 0xB4, 0x0B, 0x00, 0x50, 0x00, 0x00, 0x01, 0x00,
   0x00, 0xD7, 0xFD]

/-- TF-2: codec `0x10`. -/
def frameTF2 : List Byte :=
  [0x00, 0x00, 0x00, 0x00, 0x00, 0x00, 0x00, 0x1D, 0x10, 0x01, 0x00, 0x00, 0x01, 0x6B, 0x40, 0xD8, 0xEA, 0x30, 0x01,
   0x04, 0x79, 0x62, 0xC0, 0xEB, 0xE9, 0xB7, 0x00, 0x00, 0x96, 0x00, 0xB4, 0x0B, 0x00, 0x50, 0x00, 0x00, 0x01, 0x00,
   0x00, 0xC5, 0xFD]

/-- TF-3: T8-1 with the high half of the checksum field nonzero. -/
def frameTF3 : List Byte :=
  [0x00, 0x00, 0x00, 0x00, 0x00, 0x00, 0x00, 0x1D, 0x08, 0x01, 0x00, 0x00, 0x01, 0x6B, 0x40, 0xD8, 0xEA, 0x30, 0x01,
   0x04, 0x79, 0x62, 0xC0, 0xEB, 0xE9, 0xB7, 0x00, 0x00, 0x96, 0x00, 0xB4, 0x0B, 0x00, 0x50, 0x00, 0x00, 0x01, 0x00,
   0x01, 0xD7, 0xFD]

/-- TE-1 with bit 31 of the checksum field set. -/
def frameTE1Bad : List Byte :=
  [0x00, 0x00, 0x00, 0x00, 0x00, 0x00, 0x00, 0x29, 0x8E, 0x01, 0x00, 0x00, 0x01, 0x6B, 0x40, 0xD8, 0xEA, 0x30, 0x00,
   0x00, 0x00, 0x00, 0x00, 0x00, 0x00, 0x00, 0x00, 0x00, 0x00, 0x00, 0x00, 0x00, 0x00, 0x00, 0x00, 0x00, 0x00, 0x00,
   0x00, 0x00, 0x00, 0x00, 0x00, 0x00, 0x00, 0x00, 0x00, 0x00, 0x01, 0x80, 0x00, 0x23, 0x01]

/-! ## Helpers -/

/-- Reset with a frame loaded and a DECODE running whose completion is the next event. -/
def decoding (frame : List Byte) : State :=
  { State.reset with
    fb := State.reset.fb.writeList 0 frame, frameLen := BitVec.ofNat 12 frame.length, phase := .busy,
    lastOp := .decode, pending := [.complete] }

/-- Reset with a CRC running over `len` bytes of a frame. -/
def checking (frame : List Byte) (len : BitVec 12) : State := { decoding frame with lastOp := .crc, frameLen := len }

/-- Reset with events pending. -/
def withEvents (events : List Event) : State := { State.reset with pending := events }

/-- A DECODE in its record walk, at a cursor of a frame with a body end. -/
def walking (frame : List Byte) (cur stop : Nat) : State :=
  { decoding frame with walk := some { firstWalk stop with cur := cur } }

/-- The outcome is a next state with a property. -/
def holdsNext (o : Host.Outcome State Fault Refusal) (p : State → Bool) : Bool :=
  match o with
  | .next t => p t
  | .fault _ => false
  | .refused _ => false

theorem holdsNext_elim {o : Host.Outcome State Fault Refusal} {p : State → Bool} (h : holdsNext o p = true) :
    ∃ t, o = .next t ∧ p t = true := by
  cases o with
  | next t => exact ⟨t, rfl, h⟩
  | fault r => cases h
  | refused r => cases h

/-! ## CRC vectors (section 2) -/

theorem test_crc_TC2 : crc16arc [0x31, 0x32, 0x33, 0x34, 0x35, 0x36, 0x37, 0x38, 0x39] = 0xBB3D := by decide +kernel

theorem test_crc_TC3_TC5 : crc16arc [0x01] = 0xC0C1 ∧ crc16arc [0x80] = 0xA001 := by decide +kernel

/-- TC-13. -/
theorem test_crc_command : holdsNext (step (checking frameT81 41)) (fun t =>
    decide (statusWord t = 0x2102 ∧ t.results = { zeroResults with crcCalc := 0x041A })) = true := by decide +kernel

/-! ## Commands (section 4) -/

/-- TB-11, before the completion. -/
theorem test_start_status :
    holdsNext (exec (.cmdDecode 0) State.reset) (fun t => decide (statusWord t = 0x1001)) = true := by decide +kernel

/-- TB-12, the refused START. -/
theorem test_start_while_busy :
    holdsNext (exec (.cmdCrc 0) (decoding frameT81)) (fun t => decide (statusWord t = 0x1009)) = true := by
  decide +kernel

/-- TB-14. -/
theorem test_clear_while_busy : holdsNext (exec (.cmdClear 0) (decoding frameT81)) (fun t =>
    decide (statusWord t = 0 ∧ t.frameLen = 41 ∧ t.fb = (decoding frameT81).fb)) = true := by decide +kernel

/-- TB-7, for one code of each reserved row. -/
theorem test_reserved_commands :
    holdsNext (exec (.cmdReserved47 1 0) State.reset) (fun t => decide (statusWord t = 0x8)) = true ∧
    holdsNext (exec (.cmdReserved8F 0 0) State.reset) (fun t => decide (statusWord t = 0x8)) = true := by decide +kernel

/-! ## DECODE vectors (section 3.2) -/

theorem test_T81_registers : holdsNext (step (decoding frameT81)) (fun t =>
    decide (statusWord t = 0x1106 ∧ hdrWord t.results.hdr = 0x80010108 ∧ t.results.ack = 1 ∧
      anomalyWord t.results.anomaly = 0x10 ∧ bodyWord t.results.body = 0x0024000A ∧ hostReply t = some [0, 0, 0, 1])) =
    true := by decide +kernel

theorem test_T81_record : holdsNext (step (decoding frameT81)) (fun t =>
    decide ((List.range 12).map (fun w => readValue t (0x1000 + 4 * w) .w32) =
      [0x40D8EA30, 0x0000016B, 0x047962C0, 0xEBE9B700, 0x00B40096, 0x00500B01, 0, 0, 0, 0, 0x001A000A, 0x08])) =
    true := by decide +kernel

theorem test_T88_truncated : holdsNext (step (decoding frameT88)) (fun t =>
    decide (statusWord t = 0x1106 ∧ t.results.ack = 2 ∧ t.results.recCount = 1 ∧
      anomalyWord t.results.anomaly = 0x5B)) = true := by decide +kernel

theorem test_TE1_registers : holdsNext (step (decoding frameTE1)) (fun t =>
    decide (statusWord t = 0x1106 ∧ t.results.recCount = 1 ∧ t.results.elemCount = 0 ∧
      anomalyWord t.results.anomaly = 0x10 ∧ readValue t 0x1028 .w32 = 0x0026000A)) = true := by decide +kernel

/-- The record of TE-2, from the walk alone: the kernel does not evaluate the checksum of so many bytes. -/
theorem test_TE2_record : holdsNext (decode8ELoop 1 (startWalk (decoding frameTE2))) (fun t =>
    decide (t.walk.map (fun w => (w.elems.length, w.recs.map fun e => (List.range 12).map (recWord e))) =
      some (7, [[0x8A6B5C40, 0x0000017F, 0x0F0EA850, 0x2093966A, 0x005A0140, 0x003E0902, 0x000500F0, 0x00010002,
        0x00010001, 0x00000002, 0x0052000A, 0x8E]]))) = true := by decide +kernel

theorem test_TE5_malformed : holdsNext (step (decoding frameTE5)) (fun t =>
    decide (statusWord t = 0x1602 ∧ t.results.errPos = 0x28 ∧ t.results.recCount = 0 ∧
      bodyWord t.results.body = 0x0028000A)) = true := by decide +kernel

/-- TE-10 fails at ANGLE. -/
theorem test_TE10_malformed : holdsNext (step (decoding frameTE10)) (fun t =>
    decide (statusWord t = 0x1602 ∧ t.results.errPos = 0x1D ∧ bodyWord t.results.body = 0x001E000A)) = true := by
  decide +kernel

theorem test_TF1_TF3_checksum :
    holdsNext (step (decoding frameTF1)) (fun t =>
      decide (statusWord t = 0x1502 ∧ t.results.crcCalc = 0x2BC0 ∧ anomalyWord t.results.anomaly = 0x10)) = true ∧
    holdsNext (step (decoding frameTF3)) (fun t =>
      decide (statusWord t = 0x1502 ∧ anomalyWord t.results.anomaly = 0x90)) = true := by decide +kernel

theorem test_TF2_codec : holdsNext (step (decoding frameTF2)) (fun t =>
    decide (statusWord t = 0x1402 ∧ hdrWord t.results.hdr = 0x80010110)) = true := by decide +kernel

/-! ## I/O rows, on TE-2 (section 3.4): each group's cursor follows from the VOFF of its elements -/

theorem test_io1B : holdsNext (exec .io1B (walking frameTE2 0x26 0x5C)) (fun t =>
    decide (t.walk.map (fun w => (w.cur, w.elems.map (fun e => (elemWord e 0, elemWord e 1, elemWord e 2)))) =
      some (0x2E, [(0xEF, 0x002A0001, 1), (0x15, 0x002D0001, 4)]))) = true := by decide +kernel

theorem test_io2B : holdsNext (exec .io2B (walking frameTE2 0x2E 0x5C)) (fun t =>
    decide (t.walk.map (fun w => (w.cur, w.elems.map (fun e => (elemWord e 0, elemWord e 1, elemWord e 2)))) =
      some (0x34, [(0x00010043, 0x00320002, 0x118)]))) = true := by decide +kernel

theorem test_io4B : holdsNext (exec .io4B (walking frameTE2 0x34 0x5C)) (fun t =>
    decide (t.walk.map (fun w => (w.cur, w.elems.map (fun e => (elemWord e 0, elemWord e 1, elemWord e 2)))) =
      some (0x3C, [(0x000200F1, 0x00380004, 0x0001A2B3)]))) = true := by decide +kernel

theorem test_io8B : holdsNext (exec .io8B (walking frameTE2 0x3C 0x5C)) (fun t =>
    decide (t.walk.map (fun w => (w.cur, w.elems.map (fun e => (elemWord e 0, elemWord e 1, elemWord e 2)))) =
      some (0x48, [(0x00030010, 0x00400008, 0x00123456)]))) = true := by decide +kernel

theorem test_ioNX : holdsNext (exec .ioNX (walking frameTE2 0x48 0x5C)) (fun t =>
    decide (t.walk.map (fun w => (w.cur, w.elems.map (fun e => (elemWord e 0, elemWord e 1, elemWord e 2, elemWord e 3)))) =
      some (0x5C, [(0x00040100, 0x004E000A, 0x0708090A, 0x03040506), (0x00040101, 0x005C0000, 0, 0)]))) = true := by
  decide +kernel

/-- TE-7: an NX value that overruns fails at its VOFF. -/
theorem test_TE7_position : holdsNext (step (decoding frameTE7)) (fun t =>
    decide (statusWord t = 0x1602 ∧ t.results.errPos = 0x34)) = true := by decide +kernel

theorem test_reserved_kinds_refused :
    exec .reservedKind5 State.reset = .refused (.reservedKind 5) ∧
    exec (.reservedKind67 0) State.reset = .refused (.reservedKind 6) := ⟨rfl, rfl⟩

/-! ## Bus (section 4) -/

/-- TB-4 and TB-5. -/
theorem test_bus_errors :
    memRead 0x0008 .w16 State.reset = .fault (.busError 0x0008) ∧
    memRead 0x0802 .w32 State.reset = .fault (.busError 0x0802) := ⟨rfl, rfl⟩

/-- TB-6. -/
theorem test_lanes : holdsNext (memWrite 0x0804 .w32 0x29000000 State.reset) (fun t =>
    decide (readValue t 0x0807 .w8 = 0x29 ∧ readValue t 0x0806 .w16 = 0x2900)) = true := by decide +kernel

/-- TB-9. -/
theorem test_frameLen_write : holdsNext (memWrite 0x0010 .w32 0xFFFFFFFF State.reset) (fun t =>
    decide (readValue t 0x0010 .w32 = 0x00000FFF)) = true := by decide +kernel

/-! ## How a program runs from reset (log entry 4) -/

theorem test_withFetchWord_command :
    holdsNext (step (State.reset.withFetchWord 8 0x1)) (fun t => decide (statusWord t = 0x1001)) = true := by
  decide +kernel

/-- The smallest Codec 8E frame (TE-12). -/
theorem test_withFetchWord_codec :
    holdsNext (step (State.reset.withFetchWord 8 0x8E)) (fun t =>
      decide (statusWord t = 0x1106 ∧ t.results.hdr.codec = 0x8E)) = true := by decide +kernel

/-! ## Host programs (section 5) -/

/-- What a run leaves of its program, with the words at `STATUS` and `ACK` and the byte at `FB[9]`. -/
def hostSees (o : Host.Outcome (List HostOp × State) Fault Refusal) : Option (Nat × Word × Word × Word) :=
  match o with
  | .next (ops, t) =>
    some (ops.length, readValue t 0x0008 .w32, readValue t 0x0028 .w32, readValue t 0x0809 .w8)
  | .fault _ => none
  | .refused _ => none

/-- P5 after its START, with no completion queued. -/
def startedT81 : State := { decoding frameT81 with pending := [] }

/-- P5's write of N1 and its `WAITDONE`. -/
def programP5 : List HostOp := .access (.write 0x0809 .w8 0x02) :: waitDone

/-- P5 with the completion after the write and one read that still shows `BUSY`, and before the write. -/
theorem test_P5 :
    hostSees (runHost [[], [], [.complete]] programP5 startedT81) = some (0, 0x1116, 1, 0x01) ∧
    hostSees (runHost [[.complete], []] programP5 startedT81) = some (0, 0x1106, 1, 0x02) := by decide +kernel

/-- `WAITDONE` goes on as long as DONE reads 0, and ends at once where it is 1 already. -/
theorem test_waitDone :
    hostSees (runHost [[], []] waitDone startedT81) = some (1, 0x1001, 0, 0x01) ∧
    hostSees (runHost [[]] waitDone { startedT81 with phase := .idle, result := .ok, done := true }) =
      some (0, 0x1106, 0, 0x01) := by decide +kernel

/-! ## Witnesses: concrete states and operands that meet the hypotheses of each obligation -/

theorem completing_decoding (frame : List Byte) : completing .decode (decoding frame) := ⟨rfl, rfl, .inr ⟨[], rfl⟩⟩

theorem witness_DecodeOfEncodeIsTheInstruction : (Instr.codecUnrecognized 0xFF).wellFormed = true := by decide

/-- A completion with no event left. -/
theorem completing_startedT81 : completing .decode startedT81 := ⟨rfl, rfl, .inl rfl⟩

/-- Both clauses; the second at the smallest and at the largest frame, and with no event left. -/
theorem witness_StepRunsTheDecodedInstruction :
    (withEvents [.write 0x0004 .w32 0xFFFFFFFF]).pending = .write 0x0004 .w32 0xFFFFFFFF :: [] ∧
    (completing .decode (decoding frameT83) ∧ frameFits (decoding frameT83)) ∧
    frameFits { decoding frameT83 with frameLen := 2048 } ∧ completing .decode startedT81 ∧ frameFits startedT81 :=
  ⟨rfl, ⟨completing_decoding _, by constructor <;> decide⟩, by constructor <;> decide, completing_startedT81,
    by constructor <;> decide⟩

theorem witness_NopChangesNothing : (0xFFFFFFF0 : Word).extractLsb' 0 4 = 0x0#4 := by decide

theorem witness_StartBeginsAnOperation_words :
    (0x00000001 : Word).extractLsb' 0 4 = 0x1#4 ∧ (0xFFFFFFF2 : Word).extractLsb' 0 4 = 0x2#4 := by decide

theorem witness_StartBeginsAnOperation :
    State.reset.phase = .idle ∧ exec (.cmdDecode 0) State.reset = .next (startOperation .decode State.reset) ∧
    exec (.cmdCrc 0) State.reset = .next (startOperation .crc State.reset) := ⟨rfl, rfl, rfl⟩

/-- A busy state, and the command words at both ends of the reserved codes. -/
theorem witness_RefusedCommandsSetBadCmd :
    (decoding frameT81).phase = .busy ∧ 0x4#4 ≤ (0x00000004 : Word).extractLsb' 0 4 ∧
    0x4#4 ≤ (0xFFFFFFFF : Word).extractLsb' 0 4 := ⟨rfl, by decide, by decide⟩

theorem witness_ClearCancelsAndKeepsConfiguration : (0xFFFFFFF3 : Word).extractLsb' 0 4 = 0x3#4 := by decide

theorem witness_CommandHighBitsAreIgnored :
    (0x00000001 : Word).extractLsb' 0 4 = (0xFFFFFFF1 : Word).extractLsb' 0 4 := by decide

/-- Both clauses, where they meet: 2048 and 2049 bytes; and a completion with no event left. -/
theorem witness_CrcCompletionWritesTheCrc :
    let s := checking frameT81 2048
    let t := checking frameT81 2049
    (completing .crc s ∧ s.results = zeroResults ∧ s.walk = none ∧ s.frameLen.toNat ≤ 2048) ∧
    (completing .crc t ∧ t.results = zeroResults ∧ t.walk = none ∧ 2048 < t.frameLen.toNat) ∧
    completing .crc { s with pending := [] } :=
  ⟨⟨⟨rfl, rfl, .inr ⟨[], rfl⟩⟩, rfl, rfl, by decide⟩, ⟨⟨rfl, rfl, .inr ⟨[], rfl⟩⟩, rfl, rfl, by decide⟩, rfl, rfl,
    .inl rfl⟩

theorem witness_CrcIsTheReflectedPolynomialWithItsLaws : 0 < 16 ∧ 15 < 16 := by decide

theorem witness_CrcDetectsEveryChangeOfOneByte : (0x00 : Byte) ≠ 0x01 := by decide

/-- Both clauses, at 2049 and at 14 bytes (TF-5, TF-4). -/
theorem witness_BadFrameLengthsAreReported :
    let s := { decoding frameT81 with frameLen := 2049 }
    let t := { decoding frameT81 with frameLen := 14 }
    (completing .decode s ∧ s.results = zeroResults ∧ s.walk = none ∧ 2048 < s.frameLen.toNat) ∧
    (completing .decode t ∧ t.results = zeroResults ∧ t.walk = none ∧ t.frameLen.toNat < 15) :=
  ⟨⟨⟨rfl, rfl, .inr ⟨[], rfl⟩⟩, rfl, rfl, by decide⟩, ⟨rfl, rfl, .inr ⟨[], rfl⟩⟩, rfl, rfl, by decide⟩

theorem witness_HeaderRegistersAreWrittenWhateverTheResult :
    (completing .decode (decoding frameT83) ∧ frameFits (decoding frameT83)) ∧
    completing .decode { decoding frameT83 with frameLen := 2048 } ∧
    frameFits { decoding frameT83 with frameLen := 2048 } :=
  ⟨⟨completing_decoding _, by constructor <;> decide⟩, ⟨rfl, rfl, .inr ⟨[], rfl⟩⟩, by constructor <;> decide⟩

theorem witness_DecodeResultIsTheFirstCauseThatHolds : completing .decode (decoding frameTE6) := completing_decoding _

theorem witness_CompletionEndsTheOperation :
    completing .decode (decoding frameT81) ∧ completing .crc (checking frameT81 41) :=
  ⟨completing_decoding _, rfl, rfl, .inr ⟨[], rfl⟩⟩

/-- A result that records no position (TF-1), the one that does (TE-5), and an illegal length (TF-4). -/
theorem witness_FailedDecodeShowsNothing :
    (completing .decode (decoding frameTF1) ∧ (decoding frameTF1).results = zeroResults ∧
      frameFits (decoding frameTF1) ∧
      ∃ t, step (decoding frameTF1) = .next t ∧ decide (t.result ≠ .ok ∧ t.result ≠ .errMalformed) = true) ∧
    (completing .decode (decoding frameTE5) ∧ (decoding frameTE5).results = zeroResults ∧
      ∃ t, step (decoding frameTE5) = .next t ∧ decide (t.result = .errMalformed) = true) ∧
    completing .decode { decoding frameT81 with frameLen := 14 } ∧ ¬ frameFits { decoding frameT81 with frameLen := 14 } ∧
    ∃ t, step { decoding frameT81 with frameLen := 14 } = .next t ∧ decide (t.result ≠ .ok) = true :=
  ⟨⟨completing_decoding _, rfl, by constructor <;> decide, holdsNext_elim (by decide +kernel)⟩,
    ⟨completing_decoding _, rfl, holdsNext_elim (by decide +kernel)⟩, ⟨rfl, rfl, .inr ⟨[], rfl⟩⟩,
    fun h => absurd h.1 (by decide), holdsNext_elim (by decide +kernel)⟩

theorem verifies_false {s : State} (h : checksumVerifies s.fb s.frameLen.toNat = false) :
    (crc16arc (s.fb.range 8 (s.frameLen.toNat - 4))).setWidth 32 ≠ BitVec.ofNat 32 (be s.fb (s.frameLen.toNat - 4) 4) :=
  fun e => Bool.noConfusion (h.symm.trans ((checksumVerifies_iff _ _).mpr e))

/-- TF-2 with another checksum: codec `0x10` and a checksum that differs. -/
def decodingTF2Bad : State := { decoding frameTF2 with fb := (decoding frameTF2).fb.write 40 0xFE }

/-- A checksum that differs, with a recognized codec and with another. -/
theorem witness_NothingVisibleUnlessChecksumVerifies :
    (completing .decode (decoding frameTF3) ∧ frameFits (decoding frameTF3) ∧
      (decoding frameTF3).fb.byte 8 = 0x08 ∧
      (crc16arc ((decoding frameTF3).fb.range 8 ((decoding frameTF3).frameLen.toNat - 4))).setWidth 32 ≠
        BitVec.ofNat 32 (be (decoding frameTF3).fb ((decoding frameTF3).frameLen.toNat - 4) 4)) ∧
    (completing .decode decodingTF2Bad ∧ frameFits decodingTF2Bad ∧ decodingTF2Bad.fb.byte 8 = 0x10 ∧
      (crc16arc (decodingTF2Bad.fb.range 8 (decodingTF2Bad.frameLen.toNat - 4))).setWidth 32 ≠
        BitVec.ofNat 32 (be decodingTF2Bad.fb (decodingTF2Bad.frameLen.toNat - 4) 4)) :=
  ⟨⟨completing_decoding _, by constructor <;> decide, by decide +kernel, verifies_false (by decide +kernel)⟩,
    ⟨rfl, rfl, .inr ⟨[], rfl⟩⟩, by constructor <;> decide, by decide +kernel, verifies_false (by decide +kernel)⟩

theorem witness_AcknowledgmentIsRecordCountOne :
    completing .decode (decoding frameT88) ∧
    ∃ t, step (decoding frameT88) = .next t ∧ decide (t.result = .ok) = true :=
  ⟨completing_decoding _, holdsNext_elim (by decide +kernel)⟩

/-- An OK result and another. -/
theorem witness_AnomalyFlagsAreAsTheTableSays :
    (completing .decode (decoding frameT88) ∧ frameFits (decoding frameT88) ∧ 24 ≤ (decoding frameT88).c8Stride ∧
      (decoding frameT88).results = zeroResults ∧
      ∃ t, step (decoding frameT88) = .next t ∧ decide (t.result = .ok) = true) ∧
    (completing .decode (decoding frameTF3) ∧ frameFits (decoding frameTF3) ∧ 24 ≤ (decoding frameTF3).c8Stride ∧
      (decoding frameTF3).results = zeroResults ∧
      ∃ t, step (decoding frameTF3) = .next t ∧ decide (t.result ≠ .ok) = true) :=
  ⟨⟨completing_decoding _, by constructor <;> decide, by decide, rfl, holdsNext_elim (by decide +kernel)⟩,
    completing_decoding _, by constructor <;> decide, by decide, rfl, holdsNext_elim (by decide +kernel)⟩

/-- Two states with one frame and different bytes after it. -/
theorem witness_ResultsDependOnTheFrameAlone :
    let s := decoding frameT83
    let s' := { decoding frameT83 with fb := (decoding frameT83).fb.write 15 0xAA, badCmd := true }
    completing .decode s ∧ completing .decode s' ∧ 24 ≤ s.c8Stride ∧ s.results = zeroResults ∧
    s'.results = zeroResults ∧ s.frameLen = s'.frameLen ∧ s.c8Stride = s'.c8Stride ∧
    ∀ k, k < s.frameLen.toNat → s.fb.byte k = s'.fb.byte k := by
  refine ⟨completing_decoding _, ⟨rfl, rfl, .inr ⟨[], rfl⟩⟩, by decide, rfl, rfl, rfl, rfl, fun k hk => ?_⟩
  exact (byte_write_other _ 15 k (Nat.ne_of_lt hk) _).symm

theorem witness_UnrecognizedCodecEndsWithErrCodec :
    (0x10 : Byte) ≠ 0x08 ∧ (0x10 : Byte) ≠ 0x8E ∧ (decoding frameTF2).phase = .busy ∧
    (decoding frameTF2).lastOp = .decode ∧ frameFits (decoding frameTF2) ∧ (decoding frameTF2).fb.byte 8 = 0x10 :=
  ⟨by decide, by decide, rfl, rfl, by constructor <;> decide, by decide +kernel⟩

/-- Both codecs. -/
theorem witness_ChecksumMismatchEndsWithErrCrc :
    ((decoding frameTF1).phase = .busy ∧ (decoding frameTF1).lastOp = .decode ∧ frameFits (decoding frameTF1) ∧
      (decoding frameTF1).fb.byte 8 = 0x08 ∧
      (crc16arc ((decoding frameTF1).fb.range 8 ((decoding frameTF1).frameLen.toNat - 4))).setWidth 32 ≠
        BitVec.ofNat 32 (be (decoding frameTF1).fb ((decoding frameTF1).frameLen.toNat - 4) 4)) ∧
    ((decoding frameTE1Bad).phase = .busy ∧ (decoding frameTE1Bad).lastOp = .decode ∧
      frameFits (decoding frameTE1Bad) ∧ (decoding frameTE1Bad).fb.byte 8 = 0x8E ∧
      (crc16arc ((decoding frameTE1Bad).fb.range 8 ((decoding frameTE1Bad).frameLen.toNat - 4))).setWidth 32 ≠
        BitVec.ofNat 32 (be (decoding frameTE1Bad).fb ((decoding frameTE1Bad).frameLen.toNat - 4) 4)) :=
  ⟨⟨rfl, rfl, by constructor <;> decide, by decide +kernel, verifies_false (by decide +kernel)⟩,
    rfl, rfl, by constructor <;> decide, by decide +kernel, verifies_false (by decide +kernel)⟩

/-- No record (T8-3), as many as declared (T8-1), fewer than declared (T8-8). -/
theorem witness_Codec8UnpacksTheRecordsThatFit :
    ∀ frame ∈ [frameT83, frameT81, frameT88], (decoding frame).phase = .busy ∧ (decoding frame).lastOp = .decode ∧
      frameFits (decoding frame) ∧ (decoding frame).fb.byte 8 = 0x08 ∧ 24 ≤ (decoding frame).c8Stride ∧
      frameVerified (decoding frame) := by
  unfold frameFits frameVerified
  decide +kernel

/-- Record 0, which is visible, and record 1, which is not. -/
theorem witness_Codec8RecordWordsRead :
    completing .decode (decoding frameT81) ∧ (decoding frameT81).fb.byte 8 = 0x08 ∧
    24 ≤ (decoding frameT81).c8Stride ∧
    ∃ t, step (decoding frameT81) = .next t ∧
      decide (t.result = .ok ∧ 0 < t.results.recCount.toNat ∧ t.results.recCount.toNat ≤ 1) = true :=
  ⟨completing_decoding _, by decide +kernel, by decide, holdsNext_elim (by decide +kernel)⟩

/-- Two memories that differ at offset 24 of a record at 10, the first byte past its fields. -/
theorem witness_Codec8RecordIgnoresItsLastBytes :
    let m := (decoding frameT81).fb
    let m' := m.write 34 0xFF
    m.byte 34 ≠ m'.byte 34 ∧ ∀ k, 10 ≤ k → k < 10 + 24 → m.byte k = m'.byte k :=
  ⟨by decide +kernel, fun k _ h => (byte_write_other _ 34 k (Nat.ne_of_lt h) _).symm⟩

/-- No record in an empty body (TE-12), one that ends at the end of the body (TE-1). -/
theorem witness_Codec8EUnpacksTheWholeBody :
    ∀ frame ∈ [frameTE12, frameTE1], (decoding frame).phase = .busy ∧ (decoding frame).lastOp = .decode ∧
      frameFits (decoding frame) ∧ (decoding frame).fb.byte 8 = 0x8E ∧ frameVerified (decoding frame) ∧
      recordStart (decoding frame).fb ((decoding frame).fb.byte 9).toNat ≤ (decoding frame).frameLen.toNat - 5 := by
  unfold frameFits frameVerified
  decide +kernel

/-- TE-6: two records declared, one in the body. -/
theorem witness_Codec8EOverrunFailsWhole :
    (decoding frameTE6).phase = .busy ∧ (decoding frameTE6).lastOp = .decode ∧ frameFits (decoding frameTE6) ∧
    (decoding frameTE6).fb.byte 8 = 0x8E ∧ frameVerified (decoding frameTE6) ∧
    (decoding frameTE6).frameLen.toNat - 5 < recordStart (decoding frameTE6).fb ((decoding frameTE6).fb.byte 9).toNat := by
  refine ⟨rfl, rfl, by constructor <;> decide, by decide +kernel, by unfold frameVerified; decide +kernel, ?_⟩
  have h2 : ((decoding frameTE6).fb.byte 9).toNat = 1 + 1 := by decide +kernel
  have h1 : recordStart (decoding frameTE6).fb 1 = (decoding frameTE6).frameLen.toNat - 5 := by decide +kernel
  have h := recordEnd_ge (decoding frameTE6).fb (recordStart (decoding frameTE6).fb 1)
  rw [h2, recordStart]
  exact Nat.lt_of_lt_of_le (by rw [h1]; exact Nat.lt_add_of_pos_right (by decide)) h

theorem witness_Codec8EShortOfARecordFailsAtBodyEnd :
    (decoding frameTE6).phase = .busy ∧ (decoding frameTE6).lastOp = .decode ∧ frameFits (decoding frameTE6) ∧
    (decoding frameTE6).fb.byte 8 = 0x8E ∧ frameVerified (decoding frameTE6) ∧
    1 < ((decoding frameTE6).fb.byte 9).toNat ∧
    recordStart (decoding frameTE6).fb 1 = (decoding frameTE6).frameLen.toNat - 5 := by
  unfold frameFits frameVerified
  decide +kernel

/-- The five groups of TE-2's record, from its first byte. -/
theorem witness_RecordRunsTheFiveGroupsInOrder :
    ∃ s1 s2 s4 s8 sx, exec .io1B (runWalk fixedPart (walking frameTE2 10 0x5C)) = .next s1 ∧
      exec .io2B s1 = .next s2 ∧ exec .io4B s2 = .next s4 ∧ exec .io8B s4 = .next s8 ∧ exec .ioNX s8 = .next sx :=
  ⟨_, _, _, _, _, rfl, rfl, rfl, rfl, rfl⟩

/-- TE-9 has one element, so it is its first and its last. -/
theorem witness_ElementsAreBoundedAndInRecordOrder :
    completing .decode (decoding frameTE9) ∧ (decoding frameTE9).fb.byte 8 = 0x8E ∧
    ∃ t, step (decoding frameTE9) = .next t ∧
      decide (t.result = .ok ∧ 0 < t.results.elemCount.toNat ∧ t.elemTable[0]?.isSome) = true :=
  ⟨completing_decoding _, by decide +kernel, holdsNext_elim (by decide +kernel)⟩

theorem witness_RecordLengthFollowsItsCounts :
    completing .decode (decoding frameTE9) ∧ (decoding frameTE9).fb.byte 8 = 0x8E ∧
    ∃ t, step (decoding frameTE9) = .next t ∧
      decide (t.result = .ok ∧ 0 < t.results.recCount.toNat ∧ t.recTable[0]?.isSome) = true :=
  ⟨completing_decoding _, by decide +kernel, holdsNext_elim (by decide +kernel)⟩

/-- The four fixed-width groups of TE-2, each with the end of the body at its own end. -/
theorem witness_FixedGroupsDecodeTheirElements :
    ∀ g ∈ [(0x26, 1, 0x2E), (0x2E, 2, 0x34), (0x34, 4, 0x3C), (0x3C, 8, 0x48)],
      (walking frameTE2 g.1 g.2.2).walk = some { firstWalk g.2.2 with cur := g.1 } ∧
      g.1 + 2 + be (walking frameTE2 g.1 g.2.2).fb g.1 2 * (2 + g.2.1) ≤ g.2.2 := by decide +kernel

theorem witness_NxGroupDecodesItsElements :
    (walking frameTE2 0x48 0x5C).walk = some { firstWalk 0x5C with cur := 0x48 } ∧
    nxGroupEnd (walking frameTE2 0x48 0x5C).fb 0x48 ≤ 0x5C := by decide +kernel

/-- The first and the last field of a record's fixed part with the body cut at its first and at its last byte. -/
theorem witness_RecordOverrunPosition_fixedPart :
    (walking frameTE10 10 10).walk = some { firstWalk 10 with cur := 10 } ∧
    ((10, 8) ∈ fixedFields 10 ∧ 10 ≤ 10 ∧ 10 < 10 + 8) ∧ ((29, 2) ∈ fixedFields 10 ∧ 29 ≤ 30 ∧ 30 < 29 + 2) ∧
    ((36, 2) ∈ fixedFields 10 ∧ 36 ≤ 37 ∧ 37 < 36 + 2) := by decide +kernel

/-- TE-2's 1B and NX groups with the body cut short: inside the count; and for element 0 right before its id, its
length (NX) and its value. -/
theorem witness_RecordOverrunPosition :
    (walking frameTE2 0x26 0x27).walk = some { firstWalk 0x27 with cur := 0x26 } ∧
    (0x27 < 0x26 + 2 ∧ 0 < be (walking frameTE2 0x26 0x27).fb 0x26 2) ∧
    (0x26 + 2 + 0 * (2 + 1) ≤ 0x28 ∧ 0x28 < 0x26 + 2 + 0 * (2 + 1) + 2) ∧
    (0x26 + 2 + 0 * (2 + 1) + 2 ≤ 0x2A ∧ 0x2A < 0x26 + 2 + 0 * (2 + 1) + 2 + 1) ∧
    (0x49 < 0x48 + 2 ∧ 0 < be (walking frameTE2 0x48 0x49).fb 0x48 2 ∧
      nxElemStart (walking frameTE2 0x48 0x49).fb 0x48 0 = 0x4A) ∧
    (0x4A ≤ 0x4A ∧ 0x4A < 0x4A + 2) ∧ (0x4A + 2 ≤ 0x4C ∧ 0x4C < 0x4A + 4) ∧
    0x4A + 4 ≤ 0x4E ∧ 0x4E < 0x4A + 4 + be (walking frameTE2 0x48 0x49).fb (0x4A + 2) 2 := by decide +kernel

/-- Refused at the ends of the frame buffer and next to it; admitted at the ends of every region. -/
theorem witness_AccessesAreAdmittedOrRaiseBusError :
    (∀ c ∈ [((0x0801 : BitVec 16), Width.w16), (0x0FFE, .w32), (0x0000, .w8), (0x07FF, .w8), (0x1000, .w16),
        (0xFFFE, .w32)],
      0x0800 ≤ c.1.toNat ∧ c.1.toNat < 0x1000 ∧ c.1.toNat % c.2.bytes ≠ 0 ∨
        ¬ (0x0800 ≤ c.1.toNat ∧ c.1.toNat < 0x1000) ∧ (c.2 ≠ .w32 ∨ c.1.toNat % 4 ≠ 0)) ∧
    (∀ c ∈ [((0x0800 : BitVec 16), Width.w8), (0x0FFF, .w8), (0x0FFC, .w32), (0x0000, .w32), (0x07FC, .w32),
        (0x1000, .w32), (0xFFFC, .w32)],
      0x0800 ≤ c.1.toNat ∧ c.1.toNat < 0x1000 ∧ c.1.toNat % c.2.bytes = 0 ∨
        ¬ (0x0800 ≤ c.1.toNat ∧ c.1.toNat < 0x1000) ∧ c.2 = .w32 ∧ c.1.toNat % 4 = 0) ∧
    (withEvents [.read 0x0FFF .w8]).pending = .read 0x0FFF .w8 :: [] ∧
    (withEvents [.write 0x0801 .w16 0]).pending = .write 0x0801 .w16 0 :: [] := by decide

theorem witness_FrameBufferReadsAreLittleEndian :
    0 < 2048 ∧ 2047 < 2048 ∧ (2046 < 2048 ∧ 2046 % 2 = 0) ∧ 2044 < 2048 ∧ 2044 % 4 = 0 := by decide

/-- The first byte and the last word of the frame buffer. -/
theorem witness_FrameBufferWritesStoreTheirBytes :
    (withEvents [.write 0x0800 .w8 0x55]).phase = .idle ∧ 0x0800 ≤ (0x0FFC : BitVec 16).toNat ∧
    (0x0FFC : BitVec 16).toNat < 0x1000 ∧ (0x0FFC : BitVec 16).toNat % Width.w32.bytes = 0 ∧
    0x0800 ≤ (0x0800 : BitVec 16).toNat ∧ (0x0800 : BitVec 16).toNat % Width.w8.bytes = 0 ∧
    (withEvents [.write 0x0800 .w8 0x55]).pending = .write 0x0800 .w8 0x55 :: [] := by decide

/-- A frame byte at each end of the buffer, and `FRAME_LEN`. -/
theorem witness_InputWritesWhileBusyAreDropped :
    let s := { decoding frameT81 with pending := [.write 0x0010 .w32 7] }
    s.phase = .busy ∧ s.pending = .write 0x0010 .w32 7 :: [] ∧
    (0x0800 ≤ (0x0800 : BitVec 16).toNat ∧ (0x0800 : BitVec 16).toNat % Width.w32.bytes = 0) ∧
    (0x0FFF : BitVec 16).toNat < 0x1000 ∧ (0x0FFF : BitVec 16).toNat % Width.w8.bytes = 0 :=
  ⟨rfl, rfl, by decide, by decide, by decide⟩

theorem witness_RegisterWritesTakeEffect :
    (withEvents [.write 0x0008 .w32 0x1A]).pending = .write 0x0008 .w32 0x1A :: [] ∧
    (withEvents [.write 0x000C .w32 0x3]).pending = .write 0x000C .w32 0x3 :: [] ∧
    (withEvents [.write 0x0010 .w32 0xFFFFFFFF]).pending = .write 0x0010 .w32 0xFFFFFFFF :: [] ∧
    (withEvents [.write 0x0010 .w32 0xFFFFFFFF]).phase = .idle := ⟨rfl, rfl, rfl, rfl⟩

/-- Writes to `ID`, the first result register, a reserved offset and the table regions; reads at both ends of each
reserved range. -/
theorem witness_ReservedOffsetsReadZeroAndWritesElsewhereAreIgnored :
    (withEvents [.read 0x0040 .w32]).pending = .read 0x0040 .w32 :: [] ∧
    (∀ n ∈ [0x0040, 0x07FC, 0x5000, 0x7FFC, 0xC000, 0xFFFC], (BitVec.ofNat 16 n).toNat % 4 = 0 ∧
      (0x40 ≤ (BitVec.ofNat 16 n).toNat ∧ (BitVec.ofNat 16 n).toNat < 0x0800 ∨
        0x5000 ≤ (BitVec.ofNat 16 n).toNat ∧ (BitVec.ofNat 16 n).toNat < 0x8000 ∨
        0xC000 ≤ (BitVec.ofNat 16 n).toNat)) ∧
    (withEvents [.write 0x0000 .w32 0x12345678]).pending = .write 0x0000 .w32 0x12345678 :: [] ∧
    ∀ n ∈ [0x0000, 0x0014, 0x0040, 0x07FC, 0x1000, 0xBFFC, 0xFFFC],
      (BitVec.ofNat 16 n).toNat % 4 = 0 ∧ ¬ (0x0800 ≤ (BitVec.ofNat 16 n).toNat ∧ (BitVec.ofNat 16 n).toNat < 0x1000) ∧
      BitVec.ofNat 16 n ≠ 0x0004 ∧ BitVec.ofNat 16 n ≠ 0x0008 ∧ BitVec.ofNat 16 n ≠ 0x000C ∧
      BitVec.ofNat 16 n ≠ 0x0010 := by decide +kernel

theorem witness_RegistersReadTheirFields :
    ∀ a ∈ [0x40, 0x7FC, 0x4FC0, 0x7FFC, 0xC000, 0xFFFC],
      a % 4 = 0 ∧ (0x40 ≤ a ∧ a < 0x800 ∨ 0x4FC0 ≤ a ∧ a < 0x8000 ∨ 0xC000 ≤ a ∧ a < 0x10000) := by decide

/-- A state with one visible record and one visible element, and the first entries past them. -/
def showing : State :=
  { State.reset with
    done := true, result := .ok, lastOp := .decode,
    results := { zeroResults with recCount := 1, elemCount := 1 }
    recTable := [record8EAt (decoding frameTE9).fb 10 0]
    elemTable := [nxElemAt (decoding frameTE9).fb 0 0x30] }

theorem witness_ResultTablesAreGated :
    (0 < 256 ∧ 255 < 256 ∧ 15 < 16 ∧ 0 < 1024 ∧ 1023 < 1024 ∧ 3 < 4) ∧ showing.phase = .idle ∧ showing.lastOp = .decode ∧ showing.result = .ok ∧
    0 < showing.results.recCount.toNat ∧ showing.recTable[0]?.isSome = true ∧
    0 < showing.results.elemCount.toNat ∧ showing.elemTable[0]?.isSome = true ∧
    ¬ (showing.phase = .idle ∧ showing.lastOp = .decode ∧ showing.result = .ok ∧
      1 < showing.results.recCount.toNat) ∧
    ¬ (showing.phase = .idle ∧ showing.lastOp = .decode ∧ showing.result = .ok ∧
      1 < showing.results.elemCount.toNat) :=
  ⟨by decide, rfl, rfl, rfl, by decide, rfl, by decide, rfl, by decide, by decide⟩

theorem witness_TableWordsHoldTheirFields : (12 : Nat) ≤ 12 := by decide

/-- A busy state that satisfies the invariant. -/
theorem inv_busy : Inv (decoding frameT81) where
  memory := by decide +kernel
  stride := by decide
  noWalk := rfl
  busyClean := fun _ => ⟨by decide, rfl, rfl, rfl⟩
  noneClean := fun h => by cases h
  completed := fun h => by cases h
  crcOnly := fun h => by cases h
  failedClean := fun _ => ⟨rfl, rfl, rfl, rfl, rfl, rfl, rfl⟩
  noPosition := fun _ => rfl
  position := fun h => by cases h
  ackIsN1 := fun _ h => by cases h
  records := ⟨Nat.zero_le _, Nat.zero_le _⟩
  elements := ⟨Nat.zero_le _, Nat.zero_le _⟩
  headerParsed := fun _ => rfl

theorem witness_ResetStateReadsAsTheTableSays : (4 ≤ 4 ∧ 4 < 0x800) ∧ (4 ≤ 0x7FF ∧ 0x7FF < 0x800) ∧ 0x1000 ≤ 0x1000 := by
  decide

theorem witness_ResetEventPutsEveryRegisterAtItsResetValue :
    (withEvents [.reset]).pending = .reset :: [] ∧ (withEvents [.powerOn]).pending = .powerOn :: [] := ⟨rfl, rfl⟩

theorem witness_EveryStepKeepsTheInvariant :
    Inv (decoding frameT81) ∧ ∃ t, step (decoding frameT81) = .next t ∧ decide (t.result = .ok) = true :=
  ⟨inv_busy, holdsNext_elim (by decide +kernel)⟩

theorem witness_ResultsReadZeroWhileBusy :
    Inv (decoding frameT81) ∧ (decoding frameT81).phase = .busy ∧ (0x14 ≤ 0x14 ∧ 0x14 < 0x40 ∧ 0x14 % 4 = 0) ∧
    (0x3C < 0x40 ∧ 0x3C % 4 = 0) ∧ (0x1000 ≤ 0x1000 ∧ 0x1000 < 0xC000 ∧ 0x1000 % 4 = 0) ∧ 0xBFFC < 0xC000 ∧
    0xBFFC % 4 = 0 ∧ exec (.cmdDecode 0) (decoding frameT81) = .next { decoding frameT81 with badCmd := true } :=
  ⟨inv_busy, rfl, by decide, by decide, by decide, by decide, by decide, rfl⟩

/-- To busy, by a START of either operation. -/
theorem witness_ControlStateChangesOnlyAsListed_start :
    (withEvents []).phase = .idle ∧
    holdsNext (step (withEvents [.write 0x0004 .w32 0x1])) (fun t => decide (t.phase = .busy)) = true ∧
    holdsNext (step (withEvents [.write 0x0004 .w32 0x2])) (fun t => decide (t.phase = .busy)) = true :=
  ⟨rfl, by decide +kernel, by decide +kernel⟩

/-- To idle, by the completion step and by a CLEAR; and busy still after a refused START. -/
theorem witness_ControlStateChangesOnlyAsListed_end :
    (checking frameT83 0).phase = .busy ∧
    holdsNext (step (checking frameT83 0)) (fun t => decide (t.phase = .idle)) = true ∧
    holdsNext (step { checking frameT83 0 with pending := [.write 0x0004 .w32 0x3] }) (fun t =>
      decide (t.phase = .idle)) = true ∧
    holdsNext (step { checking frameT83 0 with pending := [.write 0x0004 .w32 0x2] }) (fun t =>
      decide (t.phase = .busy)) = true :=
  ⟨rfl, by decide +kernel, by decide +kernel, by decide +kernel⟩

/-- Both bits, each cleared by `STATUS`, by CLEAR and by a reset. -/
theorem witness_StickyBitsAreClearedOnlyByTheHost :
    ∀ e ∈ [Event.write 0x0008 .w32 0x18, .write 0x0004 .w32 0x3, .reset],
      holdsNext (step { withEvents [e] with badCmd := true, wErr := true }) (fun t =>
        decide (t.badCmd = false ∧ t.wErr = false)) = true := by decide +kernel

theorem witness_OnlyTheHostWritesTheFrameBuffer :
    holdsNext (step (withEvents [.write 0x0800 .w8 0x55])) (fun t => decide (t.fb ≠ State.reset.fb)) = true ∧
    holdsNext (step (withEvents [.powerOn])) (fun t => decide (t.fb ≠ State.reset.fb)) = true := by decide +kernel

theorem witness_IdleEngineTakesNoStep :
    (withEvents [.complete]).phase = .idle ∧ (withEvents [.complete]).pending = .complete :: [] ∧
    State.reset.phase = .idle ∧ State.reset.pending = [] := ⟨rfl, rfl, rfl, rfl⟩

/-- Polls, a refused START and a dropped write between START and completion, for both operations. -/
theorem witness_ResultsDoNotDependOnTheSchedule :
    let between : List Event :=
      [.read 0x0008 .w32, .write 0x0004 .w32 0x1, .write 0x0800 .w8 0xAA, .write 0x0008 .w32 0x2]
    let s := { decoding frameT81 with pending := between ++ [Event.complete] }
    (∀ e ∈ between, letsRun e = true) ∧ s.phase = .busy ∧ s.lastOp = .decode ∧ s.results = zeroResults ∧
    s.pending = between ++ .complete :: [] ∧ { s with lastOp := LastOp.crc }.lastOp = .crc ∧
    { s with pending := between }.pending = between ++ [] :=
  ⟨by decide, rfl, rfl, rfl, rfl, rfl, by decide⟩

/-- The empty frame, a frame, and one of the largest length. -/
theorem witness_LoadFrameLoadsAndWaitDoneWaits :
    ∀ n ∈ [0, 41, 2048], (List.replicate n (0xAA : Byte)).length ≤ 2048 ∧
      (withEvents (loadFrame (List.replicate n 0xAA) ++ [])).phase = .idle ∧
      (withEvents (loadFrame (List.replicate n 0xAA) ++ [])).pending = loadFrame (List.replicate n 0xAA) ++ [] := by
  intro n hn
  refine ⟨?_, rfl, rfl⟩
  rw [List.length_replicate]
  fin_cases hn <;> decide

/-- A running operation, of either kind, whose DONE is 0. -/
theorem witness_LoadFrameLoadsAndWaitDoneWaits_wait :
    startedT81.phase = .busy ∧ startedT81.lastOp = .decode ∧ startedT81.done = false ∧
    { startedT81 with lastOp := LastOp.crc }.lastOp = .crc ∧ LastOp.decode ≠ .none ∧ LastOp.crc ≠ .none :=
  ⟨rfl, rfl, rfl, rfl, by decide, by decide⟩

/-- Two instances, of which the second steps. -/
theorem witness_InstancesShareNothing :
    ∃ qs, platformStep 1 [⟨0, 5, State.reset⟩, ⟨65536, 6, withEvents [.write 0x000C .w32 0x1]⟩] = .next qs :=
  ⟨_, rfl⟩

end Sys2Proof.Tests
end

/-! SUPPORT. Proofs about the registers of spec/10_state.md: the interrupt level (R54), the register writes (R32-R34),
and what reads 0 while busy (R46). -/

namespace Sys2Proof.Machine

/-! ## The interrupt output (R54) -/

theorem isError_iff (r : ResultCode) : isError r = true ↔ r ≠ .none ∧ r ≠ .ok := decide_eq_true_iff

theorem irq_iff (s : State) :
    irq s = true ↔ s.done = true ∧ (s.ieDone = true ∨ s.ieErr = true ∧ isError s.result = true) := by
  simp only [irq, Bool.and_eq_true, Bool.or_eq_true]

theorem irq_of_done_false {s : State} (h : s.done = false) : irq s = false := by
  rw [irq, h, Bool.false_and]

/-- Settles O48: the gates of `irq` read as propositions, and a state whose DONE is 0 drives no interrupt. -/
theorem interruptIsTheLevelOfDone : Obligations.InterruptIsTheLevelOfDone := by
  refine ⟨fun s => ?_, irq_of_done_false rfl⟩
  rw [irq_iff, isError_iff]

/-! ## Writes to `STATUS`, `IRQ_EN` and `FRAME_LEN` (R32-R34) -/

/-- A step whose next event is a write runs the write, with the event taken off the list and the bus's answer set. -/
theorem step_write {s : State} {a : BitVec 16} {n : Width} {v : Word} {rest : List Event}
    (h : s.pending = .write a n v :: rest) :
    step s = memWrite a n v { s with pending := rest, response := .written } := step_event h

/-- The three write-one-to-clear bits (R32). -/
theorem writeStatus_eq (v : Word) (s : State) :
    writeStatus v s =
      { s with done := if v.getLsbD 1 then false else s.done
               badCmd := if v.getLsbD 3 then false else s.badCmd
               wErr := if v.getLsbD 4 then false else s.wErr } := by
  simp only [writeStatus, Bool.if_false_left, Bool.decide_eq_true, Bool.and_comm]

/-- The low bits of a word, as `FRAME_LEN` stores them (R34). -/
theorem extractLsb'_zero_eq_ofNat (v : Word) (k : Nat) : v.extractLsb' 0 k = BitVec.ofNat k v.toNat := rfl

/-- Settles O43: each of the three writes reaches its register's own update, `FRAME_LEN` the one it has while idle. -/
theorem registerWritesTakeEffect : Obligations.RegisterWritesTakeEffect := by
  intro s v rest
  refine ⟨fun hp => ?status, fun hp => ?irqEn, fun hidle hp => ?frameLen⟩
  case status => rw [step_write hp, memWrite_status, writeStatus_eq]
  case irqEn => rw [step_write hp, memWrite_irqEn, writeIrqEn]
  case frameLen =>
    rw [step_write hp, memWrite_frameLen, writeFrameLen_idle, extractLsb'_zero_eq_ofNat]
    exact hidle

/-! ## Reads while busy (R46) -/

/-- The register block is read below offset `0x100` (R70). -/
theorem readValue_register (s : State) {a : Nat} (n : Width) (h : a < 0x0100) : readValue s a n = readRegister s a :=
  if_pos h

theorem readRegister_of_zeroResults {s : State} (hz : s.results = zeroResults) {a : Nat} (hlo : 0x14 ≤ a)
    (hhi : a < 0x40) (h4 : a % 4 = 0) : readRegister s a = 0 := by
  have offsets : a = 0x14 ∨ a = 0x18 ∨ a = 0x1C ∨ a = 0x20 ∨ a = 0x24 ∨ a = 0x28 ∨ a = 0x2C ∨ a = 0x30 ∨ a = 0x34 ∨
      a = 0x38 ∨ a = 0x3C := by omega
  unfold readRegister
  rw [hz]
  rcases offsets with rfl | rfl | rfl | rfl | rfl | rfl | rfl | rfl | rfl | rfl | rfl <;> rfl

theorem ackValid_of_busy {s : State} (h : s.phase = .busy) : ackValid s = false :=
  decide_eq_false fun ⟨hidle, _⟩ => by simp [h] at hidle

theorem readRecTable_of_not_ackValid {s : State} (h : ackValid s = false) (i w : Nat) : readRecTable s i w = 0 :=
  if_neg (by simp [h])

theorem readElemTable_of_not_ackValid {s : State} (h : ackValid s = false) (j w : Nat) : readElemTable s j w = 0 :=
  if_neg (by simp [h])

/-- With the tables' gate closed (R49, R50) nothing from the record table up reads anything but 0 (R70, R79). -/
theorem readValue_tables_of_not_ackValid {s : State} (h : ackValid s = false) {a : Nat} (n : Width) (ha : 0x1000 ≤ a) :
    readValue s a n = 0 := by
  unfold readValue
  rw [if_neg (by omega), if_neg (by omega), if_neg (by omega), readRecTable_of_not_ackValid h,
    readElemTable_of_not_ackValid h]
  simp only [ite_self]

theorem exec_cmdDecode (ignored : BitVec 28) (s : State) :
    exec (.cmdDecode ignored) s = .next (startOrRefuse .decode s) := rfl

theorem exec_cmdCrc (ignored : BitVec 28) (s : State) : exec (.cmdCrc ignored) s = .next (startOrRefuse .crc s) := rfl

/-- START zeroes the result registers, and one refused while busy finds them 0 (R46, R241, R242). -/
theorem startOrRefuse_results (op : LastOp) {s : State} (hi : Inv s) : (startOrRefuse op s).results = zeroResults := by
  rcases startOrRefuse_cases op s with ⟨-, e⟩ | ⟨hb, e⟩
  · rw [e, startOperation_results]
  · obtain ⟨-, -, -, hz⟩ := hi.busyClean hb
    rw [e, refuseCommand_results, hz]

/-- Settles O53: while busy the invariant gives zero result registers and the tables' gate is closed; a START leaves the
result registers 0 whether it begins an operation or is refused. -/
theorem resultsReadZeroWhileBusy : Obligations.ResultsReadZeroWhileBusy := by
  intro s hi
  refine ⟨fun hb => ⟨fun a hlo hhi h4 => ?registers, fun a hlo _ _ => ?tables⟩, fun ignored t h => ?start⟩
  case registers =>
    obtain ⟨-, -, -, hz⟩ := hi.busyClean hb
    rw [readValue_register s _ (by omega), readRegister_of_zeroResults hz hlo hhi h4]
  case tables => exact readValue_tables_of_not_ackValid (ackValid_of_busy hb) _ hlo
  case start =>
    rcases h with h | h
    · rw [exec_cmdDecode] at h
      cases h
      exact startOrRefuse_results .decode hi
    · rw [exec_cmdCrc] at h
      cases h
      exact startOrRefuse_results .crc hi

end Sys2Proof.Machine

/-! SUPPORT. Proofs about the host bus of spec/20_memory.md: which accesses are admitted (R76, R77), the reserved and
read-only offsets (R79), and the result tables' addresses and gate (R73, R74 with R49, R50). -/

namespace Sys2Proof.Machine

/-! ## Admission (R76, R77) -/

theorem admitted_eq_true_iff (a : BitVec 16) (n : Width) :
    admitted a n = true ↔ 0x0800 ≤ a.toNat ∧ a.toNat < 0x1000 ∧ a.toNat % n.bytes = 0 ∨
      ¬ (0x0800 ≤ a.toNat ∧ a.toNat < 0x1000) ∧ n = .w32 ∧ a.toNat % 4 = 0 := by
  by_cases h : 0x0800 ≤ a.toNat ∧ a.toNat < 0x1000
  · rw [admitted_frame n h, decide_eq_true_iff]
    simp only [h, true_and, not_true, false_and, or_false, and_self]
  · rw [admitted_other n h, decide_eq_true_iff, ← and_assoc]
    simp only [h, false_and, not_false_eq_true, true_and, false_or]

/-- What is not admitted, as R77 names it: misaligned in the frame buffer, misaligned or not 32-bit elsewhere. -/
theorem admitted_eq_false_iff (a : BitVec 16) (n : Width) :
    admitted a n = false ↔ 0x0800 ≤ a.toNat ∧ a.toNat < 0x1000 ∧ a.toNat % n.bytes ≠ 0 ∨
      ¬ (0x0800 ≤ a.toNat ∧ a.toNat < 0x1000) ∧ (n ≠ .w32 ∨ a.toNat % 4 ≠ 0) := by
  rw [← Bool.not_eq_true, admitted_eq_true_iff]
  tauto

/-- A step whose next event is a read runs the read, with the event taken off the list. -/
theorem step_read {s : State} {a : BitVec 16} {n : Width} {rest : List Event} (h : s.pending = .read a n :: rest) :
    step s = memRead a n { s with pending := rest } := step_event h

theorem readValue_pending (s : State) (rest : List Event) (a : Nat) (n : Width) :
    readValue { s with pending := rest } a n = readValue s a n := rfl

theorem step_read_admitted {s : State} {a : BitVec 16} {n : Width} {rest : List Event}
    (hp : s.pending = .read a n :: rest) (h : admitted a n = true) :
    step s = .next { s with pending := rest, response := .data (readValue s a.toNat n) } := by
  rw [step_read hp, memRead_admitted _ h, readValue_pending]

/-- Settles O39: the two conditions are those under which `admitted` is false or true, and reads and writes alike fault
when it is false. -/
theorem accessesAreAdmittedOrRaiseBusError : Obligations.AccessesAreAdmittedOrRaiseBusError := by
  intro s a n v rest
  refine ⟨fun hp hbad => ?refused, fun hp hok => ?admitted⟩
  case refused =>
    have hr : admitted a n = false := (admitted_eq_false_iff a n).mpr hbad
    rcases hp with hread | hwrite
    · rw [step_read hread, memRead_refused _ hr]
    · rw [step_write hwrite, memWrite_refused v _ hr]
  case admitted => exact step_read_admitted hp ((admitted_eq_true_iff a n).mpr hok)

/-! ## Reserved and read-only offsets (R79) -/

theorem readRegister_reserved (s : State) {a : Nat} (h : 0x40 ≤ a) : readRegister s a = 0 := by
  unfold readRegister
  split
  case h_17 => rfl
  all_goals omega

/-- The three reserved ranges of the window: behind the registers, between the tables, and behind the element table
(R47, R70). -/
theorem readValue_reserved (s : State) {a : Nat} (n : Width)
    (h : 0x40 ≤ a ∧ a < 0x0800 ∨ 0x5000 ≤ a ∧ a < 0x8000 ∨ 0xC000 ≤ a) : readValue s a n = 0 := by
  unfold readValue
  rcases h with ⟨hlo, hhi⟩ | ⟨hlo, hhi⟩ | hlo
  · rw [readRegister_reserved s hlo, if_pos hhi, ite_self]
  · rw [if_neg (by omega), if_neg (by omega), if_neg (by omega), if_neg (by omega), if_pos hhi]
  · rw [if_neg (by omega), if_neg (by omega), if_neg (by omega), if_neg (by omega), if_neg (by omega),
      if_neg (by omega)]

/-- Of the writes outside the frame buffer only those to `CTRL`, `STATUS`, `IRQ_EN` and `FRAME_LEN` do anything. -/
theorem memWrite_ignored {a : BitVec 16} (v : Word) (s : State) (h : ¬ (0x0800 ≤ a.toNat ∧ a.toNat < 0x1000))
    (ha : a.toNat % 4 = 0) (h4 : a ≠ 0x0004) (h8 : a ≠ 0x0008) (hc : a ≠ 0x000C) (h10 : a ≠ 0x0010) :
    memWrite a .w32 v s = .next s := by
  rcases memWrite_other_cases v s h ha with ⟨e, -⟩ | ⟨e, -⟩ | ⟨e, -⟩ | ⟨e, -⟩ | ⟨-, -, -, -, hw⟩
  · exact absurd e h4
  · exact absurd e h8
  · exact absurd e hc
  · exact absurd e h10
  · exact hw

/-- Settles O44: a write outside the frame buffer that reaches none of the four writable registers is ignored, and an
aligned read of a reserved range is admitted and reads 0. -/
theorem reservedOffsetsReadZeroAndWritesElsewhereAreIgnored :
    Obligations.ReservedOffsetsReadZeroAndWritesElsewhereAreIgnored := by
  intro s a v rest ha
  refine ⟨fun hp hout h4 h8 hc h10 => ?write, fun hp hres => ?read⟩
  case write => rw [step_write hp, memWrite_ignored v _ hout ha h4 h8 hc h10]
  case read =>
    have hok : admitted a .w32 = true := (admitted_eq_true_iff a .w32).mpr (.inr ⟨by omega, rfl, ha⟩)
    rw [step_read_admitted hp hok, readValue_reserved s .w32 hres]

/-! ## The result tables (R73, R74) -/

/-- The address of R73 names word `w` of record slot `i`. -/
theorem readValue_recWord (s : State) (n : Width) {i w : Nat} (hi : i < 256) (hw : w < 16) :
    readValue s (0x1000 + 64 * i + 4 * w) n = readRecTable s i w := by
  have hslot : (0x1000 + 64 * i + 4 * w - 0x1000) / 64 = i := by omega
  have hword : (0x1000 + 64 * i + 4 * w - 0x1000) % 64 / 4 = w := by omega
  unfold readValue
  rw [if_neg (by omega), if_neg (by omega), if_neg (by omega), if_pos (by omega), hslot, hword]

/-- The address of R74 names word `w` of element entry `j`. -/
theorem readValue_elemWord (s : State) (n : Width) {j w : Nat} (hj : j < 1024) (hw : w < 4) :
    readValue s (0x8000 + 16 * j + 4 * w) n = readElemTable s j w := by
  have hentry : (0x8000 + 16 * j + 4 * w - 0x8000) / 16 = j := by omega
  have hword : (0x8000 + 16 * j + 4 * w - 0x8000) % 16 / 4 = w := by omega
  unfold readValue
  rw [if_neg (by omega), if_neg (by omega), if_neg (by omega), if_neg (by omega), if_neg (by omega),
    if_pos (by omega), hentry, hword]

theorem ackValid_iff (s : State) : ackValid s = true ↔ s.phase = .idle ∧ s.lastOp = .decode ∧ s.result = .ok :=
  decide_eq_true_iff

theorem readRecTable_hidden {s : State} {i : Nat}
    (h : ¬ (ackValid s = true ∧ i < 255 ∧ i < s.results.recCount.toNat)) (w : Nat) : readRecTable s i w = 0 :=
  if_neg (by simpa [and_assoc] using h)

theorem readRecTable_visible {s : State} {i : Nat} {e : RecEntry} (hv : ackValid s = true) (hslot : i < 255)
    (hcount : i < s.results.recCount.toNat) (he : s.recTable[i]? = some e) (w : Nat) :
    readRecTable s i w = recWord e w := by
  unfold readRecTable
  rw [if_pos (by simp [hv, hslot, hcount]), he]

theorem readElemTable_hidden {s : State} {j : Nat} (h : ¬ (ackValid s = true ∧ j < s.results.elemCount.toNat))
    (w : Nat) : readElemTable s j w = 0 :=
  if_neg (by simpa using h)

theorem readElemTable_visible {s : State} {j : Nat} {e : ElemEntry} (hv : ackValid s = true)
    (hcount : j < s.results.elemCount.toNat) (he : s.elemTable[j]? = some e) (w : Nat) :
    readElemTable s j w = elemWord e w := by
  unfold readElemTable
  rw [if_pos (by simp [hv, hcount]), he]

/-- Settles O46: the addresses of R73 and R74 select an entry and a word, and the gates of R49 and R50 decide between
the stored entry and 0. -/
theorem resultTablesAreGated : Obligations.ResultTablesAreGated := by
  intro s i w
  refine ⟨fun hi hw => ?records, fun hi hw => ?elements⟩
  case records =>
    rw [readValue_recWord s .w32 hi hw]
    constructor
    · intro hhidden
      apply readRecTable_hidden
      rintro ⟨hv, hslot, hcount⟩
      obtain ⟨hidle, hop, hok⟩ := (ackValid_iff s).mp hv
      rcases hhidden with hlast | hgate
      · omega
      · exact hgate ⟨hidle, hop, hok, hcount⟩
    · intro e hidle hop hok hcount hslot he
      exact readRecTable_visible ((ackValid_iff s).mpr ⟨hidle, hop, hok⟩) hslot hcount he w
  case elements =>
    rw [readValue_elemWord s .w32 hi hw]
    constructor
    · intro hgate
      apply readElemTable_hidden
      rintro ⟨hv, hcount⟩
      obtain ⟨hidle, hop, hok⟩ := (ackValid_iff s).mp hv
      exact hgate ⟨hidle, hop, hok, hcount⟩
    · intro e hidle hop hok hcount he
      exact readElemTable_visible ((ackValid_iff s).mpr ⟨hidle, hop, hok⟩) hcount he w

end Sys2Proof.Machine

/-! SUPPORT. Proofs about Codec 8 of spec/42_codec8.md: the records that fit with the count of R169, the OK end they
lead to, and the words of R120 in which the host reads the fields of R162. -/

namespace Sys2Proof.Machine

/-! ## The records that fit (R161, R169) -/

/-- The number of records a Codec 8 DECODE of the frame in the buffer finds (R169). -/
def codec8Count (s : State) : Nat := min (recordCount1 s) ((s.frameLen.toNat - 15) / s.c8Stride)

/-- Those records, at consecutive strides from the first body byte (R161). -/
def codec8Records (s : State) : List RecEntry :=
  (List.range (codec8Count s)).map fun i => record8 s.fb s.c8Stride (10 + i * s.c8Stride)

/-- What the loop of the model returns (R161): the records that fit, whether they are fewer than declared, the cursor. -/
theorem decode8_eq {s : State} (hstride : 0 < s.c8Stride) :
    decode8 s =
      (codec8Records s, decide (codec8Count s < recordCount1 s), 10 + codec8Count s * s.c8Stride) := by
  have hroom : bodyEnd s - 10 = s.frameLen.toNat - 15 := Nat.sub_sub _ 5 10
  rw [decode8, decode8Loop_eq _ _ _ hstride, hroom]
  rfl

@[simp] theorem codec8Records_length (s : State) : (codec8Records s).length = codec8Count s := by
  simp [codec8Records]

theorem codec8Records_getElem? {s : State} {i : Nat} (hi : i < codec8Count s) :
    (codec8Records s)[i]? = some (record8 s.fb s.c8Stride (10 + i * s.c8Stride)) := by
  simp [codec8Records, hi]

theorem codec8Count_le (s : State) : codec8Count s ≤ 255 :=
  (Nat.min_le_left _ _).trans (Nat.le_of_lt_succ (s.fb.byte 9).isLt)

/-- Each record found ends within the body. -/
theorem record_end_le_of_lt_codec8Count {s : State} {i : Nat} (hi : i < codec8Count s) :
    i * s.c8Stride + s.c8Stride ≤ s.frameLen.toNat - 15 :=
  calc i * s.c8Stride + s.c8Stride
    _ = (i + 1) * s.c8Stride := (Nat.succ_mul i s.c8Stride).symm
    _ ≤ (s.frameLen.toNat - 15) / s.c8Stride * s.c8Stride :=
        Nat.mul_le_mul_right _ (Nat.le_trans hi (Nat.min_le_right _ _))
    _ ≤ s.frameLen.toNat - 15 := Nat.div_mul_le_self _ _

/-! ## The OK end of a Codec 8 DECODE (R222-R224) -/

/-- The end of a Codec 8 DECODE that verifies: the records that fit, no elements, the cursor behind the last record. -/
def codec8End (s : State) : State :=
  succeed (codec8Records s) [] (decide (codec8Count s < recordCount1 s)) (10 + codec8Count s * s.c8Stride) s

theorem succeed_decode8 {s : State} (hstride : 0 < s.c8Stride) :
    succeed (decode8 s).1 [] (decode8 s).2.1 (decode8 s).2.2 s = codec8End s := by
  rw [decode8_eq hstride, codec8End]

theorem codec8End_recCount (s : State) : (codec8End s).results.recCount.toNat = codec8Count s := by
  rw [codec8End, succeed_results_recCount, codec8Records_length, BitVec.toNat_ofNat]
  exact Nat.mod_eq_of_lt (Nat.lt_of_le_of_lt (codec8Count_le s) (by decide))

theorem codec8End_recTable_getElem? {s : State} {i : Nat} (hi : i < codec8Count s) :
    (codec8End s).recTable[i]? = some (record8 s.fb s.c8Stride (10 + i * s.c8Stride)) := by
  have hlen : i < (codec8Records s).length := by rwa [codec8Records_length]
  rw [codec8End, succeed_recTable, commitTable, List.getElem?_append_left hlen, codec8Records_getElem? hi]

/-- `CODEC8` on a verified frame ends in `codec8End`. -/
theorem exec_codec8_verified {s : State} (hd : dispatches codec8Byte s = true) (hstride : 0 < s.c8Stride)
    (hv : frameVerified s) : exec .codec8 s = .next (codec8End s) := by
  rcases execCodec8_cases s hd with ⟨hbad, -⟩ | ⟨-, e⟩
  · exact Bool.noConfusion (hbad.symm.trans hv)
  · rwa [succeed_decode8 hstride] at e

/-- Settles O25: on a verified frame the row ends in `codec8End`, whose records, count and cursor are those of the loop
in closed form. -/
theorem codec8UnpacksTheRecordsThatFit : Obligations.Codec8UnpacksTheRecordsThatFit := by
  intro s hbusy hop ⟨hmin, hmax⟩ hcodec hstride hv n1 n2 k
  have hd : dispatches codec8Byte s = true := (dispatches_iff codec8Byte s).mpr ⟨hbusy, hop, hmin, hmax, hcodec⟩
  rw [exec_codec8_verified hd (by omega) hv, codec8End, succeed, commitTable, codec8Records_length,
    ← BitVec.ofNat_toNat]
  rfl

/-! ## The words of a Codec 8 record (R107, R120, R162) -/

/-- A wire field splits into the two fields its bytes make. -/
theorem be_add (m : Memory) (off n k : Nat) : be m off (n + k) = be m off n * 256 ^ k + be m (off + n) k := by
  induction k with
  | zero => simp [be]
  | succ k ih =>
    rw [← Nat.add_assoc, be, be, ih, Nat.pow_succ, Nat.add_assoc off n k]
    ring

/-- The low word of an 8-byte field is its last four bytes (R120). -/
theorem beField_low_word (m : Memory) (off : Nat) :
    (beField 64 m off 8).extractLsb' 0 32 = BitVec.ofNat 32 (be m (off + 4) 4) := by
  apply BitVec.eq_of_toNat_eq
  have hsplit : be m off 8 = be m off 4 * 256 ^ 4 + be m (off + 4) 4 := be_add m off 4 4
  simp only [beField, BitVec.extractLsb'_toNat, BitVec.toNat_ofNat, Nat.shiftRight_zero]
  omega

/-- The high word of an 8-byte field is its first four bytes (R120). -/
theorem beField_high_word (m : Memory) (off : Nat) :
    (beField 64 m off 8).extractLsb' 32 32 = BitVec.ofNat 32 (be m off 4) := by
  apply BitVec.eq_of_toNat_eq
  have hsplit : be m off 8 = be m off 4 * 256 ^ 4 + be m (off + 4) 4 := be_add m off 4 4
  have hlow := be_lt m (off + 4) 4
  simp only [beField, BitVec.extractLsb'_toNat, BitVec.toNat_ofNat, Nat.shiftRight_eq_div_pow]
  omega

/-- A 12-bit field below four reserved bits is the 16-bit field of the same number. -/
theorem reserved_append_ofNat {x : Nat} (h : x < 4096) : 0#4 ++ BitVec.ofNat 12 x = BitVec.ofNat 16 x := by
  apply BitVec.eq_of_toNat_eq
  simp only [BitVec.toNat_append, BitVec.toNat_ofNat, Nat.zero_mod, Nat.zero_shiftLeft, Nat.zero_or]
  omega

theorem recWord_ten (e : RecEntry) : recWord e 10 = (0#4 ++ e.recLen) ++ (0#4 ++ e.recOff) := by
  simp only [recWord, BitVec.append_assoc, BitVec.cast_eq]

theorem recWord_past_fields (e : RecEntry) {w : Nat} (h : 12 ≤ w) : recWord e w = 0 := by
  unfold recWord
  split
  case h_13 => rfl
  all_goals omega

/-- Words 0 and 1 of a Codec 8 record: TIMESTAMP. -/
theorem recWord_record8_timestamp (m : Memory) (stride b : Nat) :
    recWord (record8 m stride b) 0 = BitVec.ofNat 32 (be m (b + 4) 4) ∧
      recWord (record8 m stride b) 1 = BitVec.ofNat 32 (be m b 4) :=
  ⟨beField_low_word m b, beField_high_word m b⟩

/-- Words 6 to 9 hold the event, the counts and the first element, which Codec 8 lacks (R162). -/
theorem recWord_record8_no_elements (m : Memory) (stride b : Nat) {w : Nat} (hlo : 6 ≤ w) (hhi : w ≤ 9) :
    recWord (record8 m stride b) w = 0 := by
  have words : w = 6 ∨ w = 7 ∨ w = 8 ∨ w = 9 := by omega
  have zeros : (0#16 ++ 0#16 : Word) = 0 := by decide
  rcases words with rfl | rfl | rfl | rfl <;> exact zeros

/-- Word 10 of a record in the frame buffer: its length and its offset (R120). -/
theorem recWord_record8_place (m : Memory) {stride b : Nat} (hs : stride < 4096) (hb : b < 4096) :
    recWord (record8 m stride b) 10 = BitVec.ofNat 16 stride ++ BitVec.ofNat 16 b := by
  rw [recWord_ten, ← reserved_append_ofNat hs, ← reserved_append_ofNat hb]
  rfl

/-! ## What the host reads (R49) -/

/-- An error end is no OK end. -/
theorem not_ok_of_finish {o : Host.Outcome State Fault Refusal} {t u : State} {code : ResultCode} (h : o = .next t)
    (hok : t.result = .ok) (hcode : code ≠ .ok) : o ≠ .next (finish code u) := by
  rintro rfl
  cases h
  exact hcode hok

/-- A DECODE of a Codec 8 frame that ends OK had a frame that fits, and ended in `codec8End` of the state with the
header parsed. -/
theorem step_codec8_ok {s t : State} (hc : completing .decode s) (hcodec : s.fb.byte 8 = 0x08)
    (hstride : 0 < s.c8Stride) (hstep : step s = .next t) (hok : t.result = .ok) :
    ∃ u : State, t = codec8End u ∧ u.lastOp = .decode ∧ u.frameLen.toNat ≤ 2048 ∧ u.fb = s.fb ∧
      u.c8Stride = s.c8Stride := by
  rw [step_completing_decode hc] at hstep
  obtain ⟨hbusy, hop, -⟩ := hc
  have hnot8E : s.fb.byte 8 ≠ 0x8E := by rw [hcodec]; decide
  rcases decodeCompletion_cases { s with pending := s.pending.tail } hbusy hop with
    ⟨-, e⟩ | ⟨-, e⟩ | ⟨-, hmax, ⟨h8, -⟩ | ⟨-, -, e⟩ | ⟨-, -, e⟩ | ⟨h8E, -⟩ | ⟨h8E, -⟩⟩
  · exact absurd e (not_ok_of_finish hstep hok nofun)
  · exact absurd e (not_ok_of_finish hstep hok nofun)
  · exact absurd hcodec h8
  · exact absurd e (not_ok_of_finish hstep hok nofun)
  · cases e.symm.trans hstep
    exact ⟨parseHeader { s with pending := s.pending.tail }, succeed_decode8 hstride, hop, hmax, rfl, rfl⟩
  · exact absurd h8E hnot8E
  · exact absurd h8E hnot8E

/-- What the host reads of a visible record in `codec8End`: the words of the record at its stride. -/
theorem readRecTable_codec8End {s : State} (hop : s.lastOp = .decode) {i : Nat} (hi : i < codec8Count s) (w : Nat) :
    readRecTable (codec8End s) i w = recWord (record8 s.fb s.c8Stride (10 + i * s.c8Stride)) w := by
  have hv : ackValid (codec8End s) = true := (ackValid_iff _).mpr ⟨rfl, hop, rfl⟩
  have hslot : i < 255 := Nat.lt_of_lt_of_le hi (codec8Count_le s)
  exact readRecTable_visible hv hslot (by rwa [codec8End_recCount]) (codec8End_recTable_getElem? hi) w

/-- Settles O26: an OK end is `codec8End`, whose visible entries are the records of `record8`, read word by word; a slot
past the count is hidden. -/
theorem codec8RecordWordsRead : Obligations.Codec8RecordWordsRead := by
  intro s t hc hcodec hstride hstep hok i
  obtain ⟨u, rfl, hop, hmax, hfb, hsame⟩ := step_codec8_ok hc hcodec (by omega) hstep hok
  rw [← hfb, ← hsame, codec8End_recCount]
  constructor
  case left =>
    intro hi b
    have hend := record_end_le_of_lt_codec8Count hi
    have hstrideBound : u.c8Stride < 4096 := by omega
    have hbaseBound : b < 4096 := by omega
    obtain ⟨hlow, hhigh⟩ := recWord_record8_timestamp u.fb u.c8Stride b
    simp only [readRecTable_codec8End hop hi]
    exact ⟨hlow, hhigh, rfl, rfl, rfl, rfl, fun w => recWord_record8_no_elements u.fb u.c8Stride b,
      recWord_record8_place u.fb hstrideBound hbaseBound, rfl, fun w => recWord_past_fields _⟩
  case right =>
    intro hi w
    apply readRecTable_hidden
    rintro ⟨-, -, hcount⟩
    rw [codec8End_recCount] at hcount
    omega

end Sys2Proof.Machine

/-! SUPPORT. Proofs about the completion step of a DECODE of spec/44_frame_demux.md: the four ways it ends, the header
registers of R213 and R214, what a failure leaves visible (R225), the acknowledgment of R223. -/

namespace Sys2Proof.Machine

/-! ## How a DECODE ends (R210) -/

/-- The ends of a DECODE completion step, by what they leave in the result registers: `decodeCompletion_ends` and
`step_decode_ends` say that the model has no others. -/
inductive DecodeEnd (s : State) : State → Prop where
  /-- The length is not legal, so the header step is not reached (R211, R212). -/
  | badLength (code : ResultCode) (herr : code ≠ .ok) (hlen : ¬ frameFits s) : DecodeEnd s (finish code s)
  /-- The header is parsed, and the codec byte or the checksum ends the operation (R215, R217). -/
  | rejected (code : ResultCode) (herr : code ≠ .ok) (hlen : frameFits s) : DecodeEnd s (finish code (parseHeader s))
  /-- A `take` of the record walk fails (R187). -/
  | malformed (pos : Nat) (hlen : frameFits s) : DecodeEnd s (failMalformed pos (parseHeader s))
  /-- The records are committed (R222). -/
  | committed (recs : List RecEntry) (elems : List ElemEntry) (trunc : Bool) (cur : Nat) (hlen : frameFits s) :
      DecodeEnd s (succeed recs elems trunc cur (parseHeader s))

theorem decodeCompletion_ends {s : State} (hbusy : s.phase = .busy) (hop : s.lastOp = .decode) :
    ∃ t, decodeCompletion s = .next t ∧ DecodeEnd s t := by
  rcases decodeCompletion_cases s hbusy hop with ⟨hlong, e⟩ | ⟨hshort, e⟩ | ⟨hmin, hmax, hcodec⟩
  · exact ⟨_, e, .badLength _ nofun fun hfits => Nat.not_le_of_lt hlong hfits.2⟩
  · exact ⟨_, e, .badLength _ nofun fun hfits => Nat.not_le_of_lt hshort hfits.1⟩
  · have hfits : frameFits s := ⟨hmin, hmax⟩
    rcases hcodec with ⟨-, -, e⟩ | ⟨-, -, e⟩ | ⟨-, -, e⟩ | ⟨-, -, -, e⟩ | ⟨-, -, -, pos, -, -, -, e⟩
    · exact ⟨_, e, .rejected _ nofun hfits⟩
    · exact ⟨_, e, .rejected _ nofun hfits⟩
    · exact ⟨_, e, .committed _ _ _ _ hfits⟩
    · exact ⟨_, e, .committed _ _ _ _ hfits⟩
    · exact ⟨_, e, .malformed pos hfits⟩

/-- The step that completes a DECODE reaches one of its ends, from the state with the event taken off the list. -/
theorem step_decode_ends {s : State} (hc : completing .decode s) :
    ∃ t, step s = .next t ∧ DecodeEnd { s with pending := s.pending.tail } t := by
  rw [step_completing_decode hc]
  obtain ⟨hbusy, hop, -⟩ := hc
  exact decodeCompletion_ends hbusy hop

theorem decodeEnd_of_step {s t : State} (hc : completing .decode s) (hstep : step s = .next t) :
    DecodeEnd { s with pending := s.pending.tail } t := by
  obtain ⟨u, hu, hend⟩ := step_decode_ends hc
  cases hu.symm.trans hstep
  exact hend

theorem DecodeEnd.fb_eq {s t : State} (h : DecodeEnd s t) : t.fb = s.fb := by
  cases h with
  | badLength | rejected | malformed | committed => rfl

theorem DecodeEnd.lastOp_eq {s t : State} (h : DecodeEnd s t) : t.lastOp = s.lastOp := by
  cases h with
  | badLength | rejected | malformed | committed => rfl

theorem DecodeEnd.phase_idle {s t : State} (h : DecodeEnd s t) : t.phase = .idle := by
  cases h with
  | badLength | rejected | malformed | committed => rfl

/-! ## The header registers (R213, R214) -/

theorem headerWritten_parseHeader (s : State) : headerWritten s (parseHeader s) := ⟨rfl, rfl, rfl, rfl, rfl, rfl⟩

theorem headerWritten_finish {s u : State} (code : ResultCode) (h : headerWritten s u) :
    headerWritten s (finish code u) := by
  obtain ⟨hpreamble, hdfl, hhdr, hcalc, hrecv, hbody, -⟩ := finishResults_header code u.results
  simpa only [headerWritten, finish_results, hpreamble, hdfl, hhdr, hcalc, hrecv, hbody] using h

theorem headerWritten_failMalformed {s u : State} (pos : Nat) (h : headerWritten s u) :
    headerWritten s (failMalformed pos u) :=
  headerWritten_finish .errMalformed h

theorem headerWritten_succeed {s u : State} (recs : List RecEntry) (elems : List ElemEntry) (trunc : Bool) (cur : Nat)
    (h : headerWritten s u) : headerWritten s (succeed recs elems trunc cur u) :=
  headerWritten_finish .ok h

/-- Whatever comes after the header step, its registers stay as it wrote them. -/
theorem DecodeEnd.header_written {s t : State} (h : DecodeEnd s t) (hfits : frameFits s) : headerWritten s t := by
  have hparsed := headerWritten_parseHeader s
  cases h with
  | badLength code herr hlen => exact absurd hfits hlen
  | rejected code => exact headerWritten_finish code hparsed
  | malformed pos => exact headerWritten_failMalformed pos hparsed
  | committed recs elems trunc cur => exact headerWritten_succeed recs elems trunc cur hparsed

/-- Settles O15: the step reaches one of the four ends, and each of them keeps what the header step wrote. -/
theorem headerRegistersAreWrittenWhateverTheResult : Obligations.HeaderRegistersAreWrittenWhateverTheResult := by
  intro s hc hfits
  obtain ⟨t, hstep, hend⟩ := step_decode_ends hc
  exact ⟨t, hstep, hend.header_written hfits, hend.fb_eq⟩

/-! ## After a failure (R225) -/

theorem ackValid_of_not_ok {s : State} (h : s.result ≠ .ok) : ackValid s = false :=
  decide_eq_false fun ⟨_, _, hok⟩ => h hok

/-- No records, no elements, no acknowledgment and no result flags (R226). -/
def noBodyResults (r : Results) : Prop :=
  r.recCount = 0 ∧ r.elemCount = 0 ∧ r.ack = 0 ∧ noResultFlags r.anomaly

theorem noBodyResults_finishResults {code : ResultCode} (herr : code ≠ .ok) (r : Results) :
    noBodyResults (finishResults code r) := by
  obtain ⟨hrec, helem, hack, hflags, -⟩ := finishResults_error code herr r
  exact ⟨hrec, helem, hack, hflags⟩

theorem DecodeEnd.no_body_results {s t : State} (h : DecodeEnd s t) (hfail : t.result ≠ .ok) :
    noBodyResults t.results := by
  cases h with
  | badLength code herr => exact noBodyResults_finishResults herr _
  | rejected code herr => exact noBodyResults_finishResults herr _
  | malformed pos => exact noBodyResults_finishResults (code := .errMalformed) nofun _
  | committed => exact absurd rfl hfail

theorem errPos_finishResults (code : ResultCode) (r : Results) : (finishResults code r).errPos = r.errPos := by
  obtain ⟨-, -, -, -, -, -, hkept⟩ := finishResults_header code r
  exact hkept

/-- Only a failed `take` records a position (R265). -/
theorem DecodeEnd.errPos_eq {s t : State} (h : DecodeEnd s t) (hpos : t.result ≠ .errMalformed) :
    t.results.errPos = s.results.errPos := by
  cases h with
  | badLength code => exact errPos_finishResults code s.results
  | rejected code => exact errPos_finishResults code (parseHeader s).results
  | malformed => exact absurd rfl hpos
  | committed => rfl

theorem DecodeEnd.results_of_not_fits {s t : State} (h : DecodeEnd s t) (hlen : ¬ frameFits s)
    (hzero : s.results = zeroResults) : t.results = zeroResults := by
  cases h with
  | badLength code => rw [finish_results, hzero, finishResults_zero]
  | rejected _ _ hfits | malformed _ hfits | committed _ _ _ _ hfits => exact absurd hfits hlen

/-- Settles O18: an end that is not OK clears the body's results and closes the tables' gate; the header registers are
those of the header step, and a frame of no legal length leaves every register 0. -/
theorem failedDecodeShowsNothing : Obligations.FailedDecodeShowsNothing := by
  intro s t hc hzero hstep hfail
  have hend := decodeEnd_of_step hc hstep
  obtain ⟨hrec, helem, hack, hflags⟩ := hend.no_body_results hfail
  have hgate : ackValid t = false := ackValid_of_not_ok hfail
  refine ⟨hrec, helem, hack, hflags, readRecTable_of_not_ackValid hgate, readElemTable_of_not_ackValid hgate,
    fun hpos => ?errPos, hend.header_written, fun hlen => hend.results_of_not_fits hlen hzero⟩
  case errPos =>
    calc t.results.errPos
      _ = s.results.errPos := hend.errPos_eq hpos
      _ = 0 := by rw [hzero]; rfl

/-! ## The acknowledgment (R223, R283) -/

theorem DecodeEnd.ack_of_ok {s t : State} (h : DecodeEnd s t) (hok : t.result = .ok) :
    t.results.ack = (s.fb.byte 9).setWidth 32 := by
  cases h with
  | badLength code herr | rejected code herr => exact absurd hok herr
  | malformed => nomatch hok
  | committed recs elems trunc cur => rw [succeed_results_ack, parseHeader_fb]

/-- A byte that is zero-extended into `ACK` is the last of the four bytes sent (R283). -/
theorem ackBytes_of_byte {t : State} {b : Byte} (h : t.results.ack = b.setWidth 32) : ackBytes t = [0, 0, 0, b] := by
  have hlow : (b.setWidth 32).extractLsb' 0 8 = b := by
    apply BitVec.eq_of_toNat_eq
    simp only [BitVec.extractLsb'_toNat, BitVec.toNat_setWidth, Nat.shiftRight_zero]
    omega
  have hhigh : ∀ k, 8 ≤ k → (b.setWidth 32).extractLsb' k 8 = 0 := by
    intro k hk
    ext i hi
    simp [BitVec.getLsbD_of_ge b (k + i) (by omega)]
  rw [ackBytes, h, hlow, hhigh 8 (by decide), hhigh 16 (by decide), hhigh 24 (by decide)]

/-- Settles O20: an OK end is the committed one, which opens the gate of `ACK_VALID` and acknowledges N1. -/
theorem acknowledgmentIsRecordCountOne : Obligations.AcknowledgmentIsRecordCountOne := by
  intro s t hc hstep hok
  have hend := decodeEnd_of_step hc hstep
  have hack : t.results.ack = (s.fb.byte 9).setWidth 32 := hend.ack_of_ok hok
  obtain ⟨-, hop, -⟩ := hc
  have hvalid : ackValid t = true := (ackValid_iff t).mpr ⟨hend.phase_idle, hend.lastOp_eq.trans hop, hok⟩
  refine ⟨hack, ?_⟩
  rw [hostReply, if_pos hvalid, ackBytes_of_byte hack]

end Sys2Proof.Machine

/-! SUPPORT. Proofs about the host commands of spec/45_control.md: NOP (R240), the START of an operation (R241), and the
commands that only set `BADCMD` (R242, R244). -/

namespace Sys2Proof.Machine

/-! ## The command a `CTRL` word selects (R130) -/

/-- The decoder's tests of bits [3:0] are tests of the field `CMD`. -/
theorem getLsbD_of_cmd {v : Word} {c : BitVec 4} (h : v.extractLsb' 0 4 = c) {i : Nat} (hi : i < 4) :
    v.getLsbD i = c.getLsbD i := by
  rw [← h, BitVec.getLsbD_extractLsb', decide_eq_true hi, Bool.true_and, Nat.zero_add]

/-- `CMD` 0 to 3, which have bits 3 and 2 clear: bits 1 and 0 choose the command. -/
theorem decode_command_low {v : Word} {c : BitVec 4} (h : v.extractLsb' 0 4 = c) (h3 : c.getLsbD 3 = false)
    (h2 : c.getLsbD 2 = false) :
    decode (.command v) =
      if c.getLsbD 1 then (if c.getLsbD 0 then .cmdClear (v.extractLsb' 4 28) else .cmdCrc (v.extractLsb' 4 28))
      else (if c.getLsbD 0 then .cmdDecode (v.extractLsb' 4 28) else .cmdNop (v.extractLsb' 4 28)) := by
  have hbit3 : v.getLsbD 3 ≠ true := by rw [getLsbD_of_cmd h (by decide), h3]; decide
  have hbit2 : v.getLsbD 2 ≠ true := by rw [getLsbD_of_cmd h (by decide), h2]; decide
  rw [decode, decodeCommand, if_neg hbit3, if_neg hbit2, getLsbD_of_cmd h (by decide), getLsbD_of_cmd h (by decide)]

theorem decode_command_nop {v : Word} (h : v.extractLsb' 0 4 = 0x0#4) :
    decode (.command v) = .cmdNop (v.extractLsb' 4 28) := decode_command_low h rfl rfl

theorem decode_command_decode {v : Word} (h : v.extractLsb' 0 4 = 0x1#4) :
    decode (.command v) = .cmdDecode (v.extractLsb' 4 28) := decode_command_low h rfl rfl

theorem decode_command_crc {v : Word} (h : v.extractLsb' 0 4 = 0x2#4) :
    decode (.command v) = .cmdCrc (v.extractLsb' 4 28) := decode_command_low h rfl rfl

theorem decode_command_reserved8F {v : Word} (h3 : v.getLsbD 3 = true) :
    decode (.command v) = .cmdReserved8F (v.extractLsb' 0 3) (v.extractLsb' 4 28) := if_pos h3

theorem decode_command_reserved47 {v : Word} (h3 : v.getLsbD 3 = false) (h2 : v.getLsbD 2 = true) :
    decode (.command v) = .cmdReserved47 (v.extractLsb' 0 2) (v.extractLsb' 4 28) := by
  rw [decode, decodeCommand, if_neg (by rw [h3]; decide), if_pos h2]

/-- The reserved commands are those with bit 3 or bit 2 set. -/
theorem cmd_reserved_iff : ∀ c : BitVec 4, 0x4#4 ≤ c ↔ c.getLsbD 3 = true ∨ c.getLsbD 2 = true := by decide

/-! ## NOP (R240) -/

theorem exec_cmdNop (ignored : BitVec 28) (s : State) : exec (.cmdNop ignored) s = .next s := rfl

/-- Settles O6: `CMD` 0 selects NOP whatever the other bits are, and NOP answers the state it was given. -/
theorem nopChangesNothing : Obligations.NopChangesNothing :=
  ⟨exec_cmdNop, fun _ => decode_command_nop⟩

/-! ## START (R241, R242) -/

theorem startOrRefuse_idle (op : LastOp) {s : State} (h : s.phase = .idle) :
    startOrRefuse op s = startOperation op s := by
  simp only [startOrRefuse, h]

theorem startOrRefuse_busy (op : LastOp) {s : State} (h : s.phase = .busy) : startOrRefuse op s = refuseCommand s := by
  simp only [startOrRefuse, h]

/-- A START makes the engine busy with DONE 0, which closes the gates of `ACK_VALID` (R49) and `irq` (R54). -/
theorem startOperation_drives_nothing (op : LastOp) (s : State) :
    ackValid (startOperation op s) = false ∧ irq (startOperation op s) = false :=
  ⟨ackValid_of_busy (startOperation_phase s op), irq_of_done_false (startOperation_done s op)⟩

/-- Settles O7: while idle each START is `startOperation` of its own code. -/
theorem startBeginsAnOperation : Obligations.StartBeginsAnOperation := by
  refine ⟨fun v => ⟨decode_command_decode, decode_command_crc⟩, fun ignored s hidle => ?_⟩
  have hdecode : exec (.cmdDecode ignored) s = .next (startOperation .decode s) := by
    rw [exec_cmdDecode, startOrRefuse_idle .decode hidle]
  have hcrc : exec (.cmdCrc ignored) s = .next (startOperation .crc s) := by
    rw [exec_cmdCrc, startOrRefuse_idle .crc hidle]
  refine ⟨hdecode, hcrc, fun t h => ?_⟩
  rcases h with h | h
  · cases hdecode.symm.trans h
    exact startOperation_drives_nothing .decode s
  · cases hcrc.symm.trans h
    exact startOperation_drives_nothing .crc s

/-! ## Refused commands (R242, R244) -/

theorem exec_cmdReserved47 (low : BitVec 2) (ignored : BitVec 28) (s : State) :
    exec (.cmdReserved47 low ignored) s = .next (refuseCommand s) := rfl

theorem exec_cmdReserved8F (low : BitVec 3) (ignored : BitVec 28) (s : State) :
    exec (.cmdReserved8F low ignored) s = .next (refuseCommand s) := rfl

theorem decode_command_reserved {v : Word} (h : 0x4#4 ≤ v.extractLsb' 0 4) :
    (∃ low ignored, decode (.command v) = .cmdReserved47 low ignored) ∨
    ∃ low ignored, decode (.command v) = .cmdReserved8F low ignored := by
  cases h3 : v.getLsbD 3 with
  | true => exact .inr ⟨_, _, decode_command_reserved8F h3⟩
  | false =>
    have hbits := (cmd_reserved_iff _).mp h
    rw [← getLsbD_of_cmd rfl (by decide), ← getLsbD_of_cmd rfl (by decide), h3] at hbits
    exact .inl ⟨_, _, decode_command_reserved47 h3 (hbits.resolve_left nofun)⟩

/-- Settles O8: `CMD` 4 to 15 has bit 3 or bit 2 set and selects a reserved row; that row, and a START while busy, is
`refuseCommand`. -/
theorem refusedCommandsSetBadCmd : Obligations.RefusedCommandsSetBadCmd := by
  refine ⟨fun v => decode_command_reserved, fun ignored s => ⟨fun hbusy => ⟨?decode, ?crc⟩,
    fun low => exec_cmdReserved47 low ignored s, fun low => exec_cmdReserved8F low ignored s⟩⟩
  case decode => rw [exec_cmdDecode, startOrRefuse_busy .decode hbusy, refuseCommand]
  case crc => rw [exec_cmdCrc, startOrRefuse_busy .crc hbusy, refuseCommand]

end Sys2Proof.Machine

/-! SUPPORT. Proofs about reset and hazards of spec/70_reset_and_hazards.md: the operation's input is protected while it
runs (R311), and what FDRD shows after reset (R301). -/

namespace Sys2Proof.Machine

/-! ## Input written during an operation (R311) -/

/-- Settles O42: a frame buffer write and a `FRAME_LEN` write each reach their own update, and while busy either one only
sets `WERR`. -/
theorem inputWritesWhileBusyAreDropped : Obligations.InputWritesWhileBusyAreDropped := by
  intro s a n v rest hbusy hp hinput
  have hrunning : { s with pending := rest, response := .written }.phase = .busy := hbusy
  rw [step_write hp]
  rcases hinput with ⟨hlo, hhi, haligned⟩ | ⟨rfl, rfl⟩
  case inl => rw [memWrite_frame v _ ⟨hlo, hhi⟩ haligned, writeFrame_busy hrunning]
  case inr => rw [memWrite_frameLen, writeFrameLen_busy hrunning]

/-! ## After reset (R301) -/

/-- While idle no completion step is enabled (R249). -/
theorem engineStep_idle {s : State} (h : s.phase = .idle) : engineStep s = .next s := by
  simp only [engineStep, h]

/-- With nothing pending an idle FDRD waits (R301). -/
theorem step_idle_none {s : State} (h : s.phase = .idle) (hp : s.pending = []) : step s = .next s := by
  rw [step_none hp, engineStep_idle h]

/-- `ID` is the only register whose value after reset is not 0. -/
theorem readRegister_reset {a : Nat} (h : a ≠ 0) : readRegister State.reset a = 0 := by
  unfold readRegister
  split
  case h_1 => exact absurd rfl h
  all_goals rfl

/-- Settles O49: with nothing pending the idle machine waits; below the frame buffer stand the register block and a
reserved range, and from the record table up the closed gate of the tables hides every entry. -/
theorem resetStateReadsAsTheTableSays : Obligations.ResetStateReadsAsTheTableSays := by
  refine ⟨rfl, step_idle_none rfl rfl, irq_of_done_false rfl, rfl, fun a hlo hhi => ?registers, fun a ha => ?tables⟩
  case registers =>
    by_cases hblock : a < 0x0100
    · rw [readValue_register _ _ hblock, readRegister_reset (by omega)]
    · exact readValue_reserved _ _ (.inl ⟨by omega, hhi⟩)
  case tables =>
    have hgate : ackValid State.reset = false := rfl
    exact readValue_tables_of_not_ackValid hgate _ ha

end Sys2Proof.Machine

/-! SUPPORT. Proofs about decoding and encoding of spec/30_encoding.md: both directions of the round trip (R106, R123,
R130), and that every field value selects one row of the opcode table (R135). -/

namespace Sys2Proof.Machine

/-! ## The codes of the command field (R130) -/

theorem decode_command_clear {v : Word} (h : v.extractLsb' 0 4 = 0x3#4) :
    decode (.command v) = .cmdClear (v.extractLsb' 4 28) := decode_command_low h rfl rfl

/-- A command word is its ignored bits above its code. -/
theorem command_split (v : Word) : v.extractLsb' 4 28 ++ v.extractLsb' 0 4 = v :=
  BitVec.extractLsb'_append_extractLsb' (w := 28) (len := 4)

/-- What is decoded from a command word is a command whose word it is. -/
theorem encode_decode_command (v : Word) :
    (decode (.command v)).wellFormed = true ∧ encode (decode (.command v)) = .command v := by
  have codes : ∀ c : BitVec 4, c = 0x0#4 ∨ c = 0x1#4 ∨ c = 0x2#4 ∨ c = 0x3#4 ∨
      (c.getLsbD 3 = false ∧ c.getLsbD 2 = true ∧ 0b01#2 ++ c.extractLsb' 0 2 = c) ∨
      (c.getLsbD 3 = true ∧ 0b1#1 ++ c.extractLsb' 0 3 = c) := by decide
  have low : ∀ k, k ≤ 4 → (v.extractLsb' 0 4).extractLsb' 0 k = v.extractLsb' 0 k := fun k hk => by
    rw [BitVec.extractLsb'_extractLsb'_of_le (by omega)]
  rcases codes (v.extractLsb' 0 4) with h | h | h | h | ⟨h3, h2, h⟩ | ⟨h3, h⟩
  · rw [decode_command_nop h]
    exact ⟨rfl, by rw [encode, ← h, command_split]⟩
  · rw [decode_command_decode h]
    exact ⟨rfl, by rw [encode, ← h, command_split]⟩
  · rw [decode_command_crc h]
    exact ⟨rfl, by rw [encode, ← h, command_split]⟩
  · rw [decode_command_clear h]
    exact ⟨rfl, by rw [encode, ← h, command_split]⟩
  · rw [low 2 (by decide)] at h
    rw [← getLsbD_of_cmd rfl (by decide)] at h3 h2
    rw [decode_command_reserved47 h3 h2]
    exact ⟨rfl, by rw [encode, h, command_split]⟩
  · rw [low 3 (by decide)] at h
    rw [← getLsbD_of_cmd rfl (by decide)] at h3
    rw [decode_command_reserved8F h3]
    exact ⟨rfl, by rw [encode, h, command_split]⟩

/-- The ignored bits and the code of a command word made of the two. -/
theorem command_parts (ignored : BitVec 28) (c : BitVec 4) :
    (ignored ++ c : Word).extractLsb' 4 28 = ignored ∧ (ignored ++ c : Word).extractLsb' 0 4 = c :=
  ⟨BitVec.extractLsb'_append_eq_left, BitVec.extractLsb'_append_eq_right⟩

/-! ## The codec byte (R106) -/

theorem decode_codec_unrecognized {b : Byte} (h8 : b ≠ codec8Byte) (h8E : b ≠ codec8EByte) :
    decode (.codec b) = .codecUnrecognized b := by
  rw [decode, decodeCodec, if_neg h8, if_neg h8E]

theorem wellFormed_codecUnrecognized (b : Byte) :
    (Instr.codecUnrecognized b).wellFormed = true ↔ b ≠ codec8Byte ∧ b ≠ codec8EByte := by
  simp only [Instr.wellFormed, Bool.and_eq_true, bne_iff_ne]

theorem encode_decode_codec (b : Byte) :
    (decode (.codec b)).wellFormed = true ∧ encode (decode (.codec b)) = .codec b := by
  by_cases h8 : b = codec8Byte
  · subst h8
    exact ⟨rfl, rfl⟩
  by_cases h8E : b = codec8EByte
  · subst h8E
    exact ⟨rfl, rfl⟩
  · rw [decode_codec_unrecognized h8 h8E]
    exact ⟨(wellFormed_codecUnrecognized b).mpr ⟨h8, h8E⟩, rfl⟩

/-! ## The element kind (R123) -/

theorem encode_decode_kind :
    ∀ k : BitVec 3, (decode (.kind k)).wellFormed = true ∧ encode (decode (.kind k)) = .kind k := by decide

/-! ## The round trip -/

/-- Settles O2, field by field. -/
theorem encodeOfDecodeIsTheFieldValue : Obligations.EncodeOfDecodeIsTheFieldValue
  | .command v => encode_decode_command v
  | .codec b => encode_decode_codec b
  | .kind k => encode_decode_kind k

theorem reserved47_bits : ∀ low : BitVec 2,
    (0b01#2 ++ low).getLsbD 3 = false ∧ (0b01#2 ++ low).getLsbD 2 = true := by decide

theorem reserved8F_bits : ∀ low : BitVec 3, (0b1#1 ++ low).getLsbD 3 = true := by decide

/-- Settles O1, row by row: the word of a command splits into its code, which selects the row, and its operands; the
other rows are told by their codec byte or their kind. -/
theorem decodeOfEncodeIsTheInstruction : Obligations.DecodeOfEncodeIsTheInstruction := by
  intro i hwf
  cases i with
  | cmdNop ignored =>
    obtain ⟨hi, hc⟩ := command_parts ignored 0x0#4
    rw [encode, decode_command_nop hc, hi]
  | cmdDecode ignored =>
    obtain ⟨hi, hc⟩ := command_parts ignored 0x1#4
    rw [encode, decode_command_decode hc, hi]
  | cmdCrc ignored =>
    obtain ⟨hi, hc⟩ := command_parts ignored 0x2#4
    rw [encode, decode_command_crc hc, hi]
  | cmdClear ignored =>
    obtain ⟨hi, hc⟩ := command_parts ignored 0x3#4
    rw [encode, decode_command_clear hc, hi]
  | cmdReserved47 low ignored =>
    obtain ⟨hi, hc⟩ := command_parts ignored (0b01#2 ++ low)
    obtain ⟨h3, h2⟩ := reserved47_bits low
    rw [← getLsbD_of_cmd hc (by decide)] at h3 h2
    rw [encode, decode_command_reserved47 h3 h2, hi, BitVec.extractLsb'_append_eq_of_add_le (by decide),
      BitVec.extractLsb'_append_eq_right]
  | cmdReserved8F low ignored =>
    obtain ⟨hi, hc⟩ := command_parts ignored (0b1#1 ++ low)
    have h3 := reserved8F_bits low
    rw [← getLsbD_of_cmd hc (by decide)] at h3
    rw [encode, decode_command_reserved8F h3, hi, BitVec.extractLsb'_append_eq_of_add_le (by decide),
      BitVec.extractLsb'_append_eq_right]
  | codecUnrecognized b =>
    obtain ⟨h8, h8E⟩ := (wellFormed_codecUnrecognized b).mp hwf
    exact decode_codec_unrecognized h8 h8E
  | reservedKind67 low =>
    revert low
    decide
  | codec8 | codec8E | io1B | io2B | io4B | io8B | ioNX | reservedKind5 => rfl

/-- Settles O4: each word is evaluated. -/
theorem wordsFromTheTablesDecode : Obligations.WordsFromTheTablesDecode := by
  unfold Obligations.WordsFromTheTablesDecode
  decide

/-! ## One row for every field value (R135) -/

theorem matchesRow (i : Instr) : Laws.MatchesRow.Statement i := by
  cases i with
  | cmdNop ignored => exact Laws.MatchesRow.cmdNop ignored
  | cmdDecode ignored => exact Laws.MatchesRow.cmdDecode ignored
  | cmdCrc ignored => exact Laws.MatchesRow.cmdCrc ignored
  | cmdClear ignored => exact Laws.MatchesRow.cmdClear ignored
  | cmdReserved47 low ignored => exact Laws.MatchesRow.cmdReserved47 low ignored
  | cmdReserved8F low ignored => exact Laws.MatchesRow.cmdReserved8F low ignored
  | codec8 => exact Laws.MatchesRow.codec8
  | codec8E => exact Laws.MatchesRow.codec8E
  | codecUnrecognized codec => exact Laws.MatchesRow.codecUnrecognized codec
  | io1B => exact Laws.MatchesRow.io1B
  | io2B => exact Laws.MatchesRow.io2B
  | io4B => exact Laws.MatchesRow.io4B
  | io8B => exact Laws.MatchesRow.io8B
  | ioNX => exact Laws.MatchesRow.ioNX
  | reservedKind5 => exact Laws.MatchesRow.reservedKind5
  | reservedKind67 low => exact Laws.MatchesRow.reservedKind67 low

/-- No mask of a fixed row reaches past the code of a command. -/
theorem fixedRows_command_mask : ∀ r ∈ fixedRows, r.space = .command → r.mask < 16 := by decide

/-- A fixed row sees a command word's code alone. -/
theorem rowMatches_command {r : OpcodeRow} (hr : r ∈ fixedRows) (ignored : BitVec 28) (c : BitVec 4) :
    rowMatches r (.command (ignored ++ c)) = true ↔ r.space = .command ∧ c.toNat &&& r.mask = r.pattern := by
  refine decide_eq_true_iff.trans (and_congr_right fun hs => ?_)
  rw [Laws.command_low ignored c r.mask (fixedRows_command_mask r hr hs)]

theorem rowOf_command_unique : ∀ c : BitVec 4, ∀ r ∈ fixedRows, r.space = .command ∧ c.toNat &&& r.mask = r.pattern →
    r = rowOf (decode (.command (0#28 ++ c))) := by decide

/-- What does not depend on a command's operands is the same for all words with one code (R130). -/
theorem decode_command_same_code {α : Type} (f : Instr → α) {v v' : Word} (h : v.extractLsb' 0 4 = v'.extractLsb' 0 4)
    (hnop : ∀ a b, f (.cmdNop a) = f (.cmdNop b)) (hdecode : ∀ a b, f (.cmdDecode a) = f (.cmdDecode b))
    (hcrc : ∀ a b, f (.cmdCrc a) = f (.cmdCrc b)) (hclear : ∀ a b, f (.cmdClear a) = f (.cmdClear b))
    (h47 : ∀ k l a b, f (.cmdReserved47 k a) = f (.cmdReserved47 l b))
    (h8F : ∀ k l a b, f (.cmdReserved8F k a) = f (.cmdReserved8F l b)) :
    f (decode (.command v)) = f (decode (.command v')) := by
  have bit : ∀ i, i < 4 → v.getLsbD i = v'.getLsbD i := fun i hi => by
    rw [getLsbD_of_cmd h hi, getLsbD_of_cmd rfl hi]
  simp only [decode, decodeCommand, bit 3 (by decide), bit 2 (by decide), bit 1 (by decide), bit 0 (by decide)]
  split
  · exact h8F _ _ _ _
  split
  · exact h47 _ _ _ _
  split <;> split
  · exact hclear _ _
  · exact hcrc _ _
  · exact hdecode _ _
  · exact hnop _ _

/-- The row of a command word is that of its code. -/
theorem rowOf_decode_command (ignored : BitVec 28) (c : BitVec 4) :
    rowOf (decode (.command (ignored ++ c))) = rowOf (decode (.command (0#28 ++ c))) :=
  decode_command_same_code rowOf ((command_parts ignored c).2.trans (command_parts 0#28 c).2.symm) (fun _ _ => rfl)
    (fun _ _ => rfl) (fun _ _ => rfl) (fun _ _ => rfl) (fun _ _ _ _ => rfl) (fun _ _ _ _ => rfl)

/-- The fixed codec rows are those of the two codec bytes. -/
theorem rowMatches_codec {r : OpcodeRow} (hr : r ∈ fixedRows) {b : Byte} (h : rowMatches r (.codec b) = true) :
    r = rowOf (decode (.codec b)) := by
  have rows : ∀ r ∈ fixedRows, r.space = .codec → r = rowOf .codec8 ∨ r = rowOf .codec8E := by decide
  obtain ⟨hs, hb⟩ := decide_eq_true_iff.mp h
  have whole : b.toNat &&& 0xFF = b.toNat := by
    rw [Nat.and_two_pow_sub_one_eq_mod b.toNat 8, Nat.mod_eq_of_lt b.isLt]
  rcases rows r hr hs with rfl | rfl
  · rw [show b = codec8Byte from BitVec.eq_of_toNat_eq (whole.symm.trans hb)]
    rfl
  · rw [show b = codec8EByte from BitVec.eq_of_toNat_eq (whole.symm.trans hb)]
    rfl

theorem rowMatches_kind : ∀ k : BitVec 3, ∀ r ∈ fixedRows, rowMatches r (.kind k) = true →
    r = rowOf (decode (.kind k)) := by decide

/-- Settles O3: the value decodes to an instruction whose row its encoding matches, and that encoding is the value; the
fixed rows of each field exclude one another. -/
theorem eachFieldValueSelectsOneRow : Obligations.EachFieldValueSelectsOneRow := by
  intro e
  obtain ⟨hwf, henc⟩ := encodeOfDecodeIsTheFieldValue e
  have hmatch := matchesRow (decode e) hwf
  rw [henc] at hmatch
  refine ⟨hmatch, fun r hr h => ?_⟩
  cases e with
  | command v =>
    rw [← command_split v] at h ⊢
    rw [rowOf_decode_command]
    exact rowOf_command_unique _ r hr ((rowMatches_command hr _ _).mp h)
  | codec b => exact rowMatches_codec hr h
  | kind k => exact rowMatches_kind k r hr h

end Sys2Proof.Machine

/-! SUPPORT. Proofs about one step of the machine: everything an event can do, and from it the transitions of R248, the
sticky bits of R317, who writes the frame buffer (R48), resets (R300), and the step that runs what it decodes. -/

namespace Sys2Proof.Machine

/-! ## Everything an event can do -/

/-- The effects of an event that has a next state, from the state with the event taken off the list;
`effect_of_runEvent` says that the model has no others. -/
inductive Effect (s : State) : Event → State → Prop where
  /-- An admitted read changes the bus's answer alone (R80). -/
  | read (a : BitVec 16) (n : Width) : Effect s (.read a n) { s with response := .data (readValue s a.toNat n) }
  /-- A frame buffer write while idle (R78). -/
  | storeFrame (a : BitVec 16) (n : Width) (v : Word) (hidle : s.phase = .idle)
      (hregion : 0x0800 ≤ a.toNat ∧ a.toNat < 0x1000) (haligned : a.toNat % n.bytes = 0) :
      Effect s (.write a n v)
        { s with response := .written, fb := s.fb.writeList (a.toNat - 0x0800) (laneBytes n v) }
  /-- A `FRAME_LEN` write while idle (R34). -/
  | setFrameLen (v : Word) (hidle : s.phase = .idle) :
      Effect s (.write 0x0010 .w32 v) { s with response := .written, frameLen := v.extractLsb' 0 12 }
  /-- A write to the operation's input while one is running (R311). -/
  | dropped (a : BitVec 16) (n : Width) (v : Word) (hbusy : s.phase = .busy) :
      Effect s (.write a n v) (dropWrite { s with response := .written })
  /-- NOP (R240), and a write that is ignored (R79). -/
  | ignored (a : BitVec 16) (n : Width) (v : Word) : Effect s (.write a n v) { s with response := .written }
  /-- START while idle (R241). -/
  | start (op : LastOp) (v : Word) (hidle : s.phase = .idle)
      (hop : v.extractLsb' 0 4 = 0x1#4 ∧ op = .decode ∨ v.extractLsb' 0 4 = 0x2#4 ∧ op = .crc) :
      Effect s (.write 0x0004 .w32 v) (startOperation op { s with response := .written })
  /-- A refused command (R242, R244). -/
  | refused (v : Word) : Effect s (.write 0x0004 .w32 v) (refuseCommand { s with response := .written })
  /-- CLEAR (R243). -/
  | clear (v : Word) (hcmd : v.extractLsb' 0 4 = 0x3#4) :
      Effect s (.write 0x0004 .w32 v) (clearOperation { s with response := .written })
  /-- A `STATUS` write (R32). -/
  | status (v : Word) : Effect s (.write 0x0008 .w32 v) (writeStatus v { s with response := .written })
  /-- An `IRQ_EN` write (R33). -/
  | irqEn (v : Word) : Effect s (.write 0x000C .w32 v) (writeIrqEn v { s with response := .written })
  /-- The engine's step (R227, R249). -/
  | complete (t : State) (hengine : engineStep s = .next t) : Effect s .complete t
  /-- Reset (R300). -/
  | reset : Effect s .reset (resetRegisters s)
  /-- Power-on (R302). -/
  | powerOn : Effect s .powerOn (powerOnReset s)

theorem idle_or_busy (p : Phase) : p = .idle ∨ p = .busy := by
  cases p
  · exact .inl rfl
  · exact .inr rfl

theorem idle_not_busy {p : Phase} (hidle : p = .idle) (hbusy : p = .busy) : False := nomatch hidle.symm.trans hbusy

/-- Everything a write to the frame buffer can do (R29, R78). -/
theorem writeFrame_cases (k : Nat) (n : Width) (v : Word) (s : State) :
    (s.phase = .idle ∧ writeFrame k n v s = { s with fb := s.fb.writeList k (laneBytes n v) }) ∨
    (s.phase = .busy ∧ writeFrame k n v s = dropWrite s) := by
  rcases idle_or_busy s.phase with h | h
  · exact .inl ⟨h, writeFrame_idle h k n v⟩
  · exact .inr ⟨h, writeFrame_busy h k n v⟩

/-- Everything a write to `FRAME_LEN` can do (R29, R34). -/
theorem writeFrameLen_cases (v : Word) (s : State) :
    (s.phase = .idle ∧ writeFrameLen v s = { s with frameLen := v.extractLsb' 0 12 }) ∨
    (s.phase = .busy ∧ writeFrameLen v s = dropWrite s) := by
  rcases idle_or_busy s.phase with h | h
  · exact .inl ⟨h, writeFrameLen_idle h v⟩
  · exact .inr ⟨h, writeFrameLen_busy h v⟩

theorem effect_of_start (op : LastOp) {s : State} {v : Word}
    (hop : v.extractLsb' 0 4 = 0x1#4 ∧ op = .decode ∨ v.extractLsb' 0 4 = 0x2#4 ∧ op = .crc) :
    Effect s (.write 0x0004 .w32 v) (startOrRefuse op { s with response := .written }) := by
  rcases startOrRefuse_cases op { s with response := .written } with ⟨hidle, e⟩ | ⟨-, e⟩
  · rw [e]
    exact .start op v hidle hop
  · rw [e]
    exact .refused v

/-- Every command written to `CTRL` has a next state, which is one of its effects. -/
theorem effect_of_command (s : State) (v : Word) :
    ∃ t, exec (decodeCommand v) { s with response := .written } = .next t ∧ Effect s (.write 0x0004 .w32 v) t := by
  rcases exec_command_cases v { s with response := .written } with
    ⟨-, e⟩ | ⟨hc, e⟩ | ⟨hc, e⟩ | ⟨hc, e⟩ | ⟨-, e⟩
  · exact ⟨_, e, .ignored _ _ v⟩
  · exact ⟨_, e, effect_of_start .decode (.inl ⟨hc, rfl⟩)⟩
  · exact ⟨_, e, effect_of_start .crc (.inr ⟨hc, rfl⟩)⟩
  · exact ⟨_, e, .clear v hc⟩
  · exact ⟨_, e, .refused v⟩

/-- Every admitted write has a next state, which is one of its effects. -/
theorem effect_of_write {a : BitVec 16} {n : Width} (s : State) (v : Word) (h : admitted a n = true) :
    ∃ t, memWrite a n v { s with response := .written } = .next t ∧ Effect s (.write a n v) t := by
  rcases memWrite_cases a n v { s with response := .written } with ⟨hr, -⟩ | ⟨hregion, haligned, e⟩ | ⟨hout, rfl, h4⟩
  · rw [h] at hr
    cases hr
  · refine ⟨_, e, ?_⟩
    rcases writeFrame_cases (a.toNat - 0x0800) n v { s with response := .written } with ⟨hphase, e⟩ | ⟨hphase, e⟩
    · rw [e]
      exact .storeFrame a n v hphase hregion haligned
    · rw [e]
      exact .dropped a n v hphase
  · rcases memWrite_other_cases v { s with response := .written } hout h4 with
      ⟨rfl, e⟩ | ⟨rfl, e⟩ | ⟨rfl, e⟩ | ⟨rfl, e⟩ | ⟨-, -, -, -, e⟩
    · rw [e]
      exact effect_of_command s v
    · exact ⟨_, e, .status v⟩
    · exact ⟨_, e, .irqEn v⟩
    · refine ⟨_, e, ?_⟩
      rcases writeFrameLen_cases v { s with response := .written } with ⟨hphase, e⟩ | ⟨hphase, e⟩
      · rw [e]
        exact .setFrameLen v hphase
      · rw [e]
        exact .dropped _ _ v hphase
    · exact ⟨_, e, .ignored a .w32 v⟩

/-- Every event that has a next state has one of its effects. -/
theorem effect_of_runEvent {s t : State} {e : Event} (h : runEvent e s = .next t) : Effect s e t := by
  cases e with
  | read a n =>
    rw [runEvent] at h
    cases hadm : admitted a n with
    | false =>
      rw [memRead_refused s hadm] at h
      cases h
    | true =>
      rw [memRead_admitted s hadm] at h
      cases h
      exact .read a n
  | write a n v =>
    rw [runEvent] at h
    cases hadm : admitted a n with
    | false =>
      rw [memWrite_refused v _ hadm] at h
      cases h
    | true =>
      obtain ⟨u, hu, heffect⟩ := effect_of_write s v hadm
      cases hu.symm.trans h
      exact heffect
  | complete => exact .complete t h
  | reset =>
    cases h
    exact .reset
  | powerOn =>
    cases h
    exact .powerOn

/-- Everything a step can do: the engine's step with no event left, or an effect of the next event. -/
theorem step_cases {s t : State} (h : step s = .next t) :
    (s.pending = [] ∧ engineStep s = .next t) ∨
    ∃ e rest, s.pending = e :: rest ∧ Effect { s with pending := rest } e t := by
  cases hp : s.pending with
  | nil => exact .inl ⟨rfl, by rwa [step_none hp] at h⟩
  | cons e rest => exact .inr ⟨e, rest, rfl, effect_of_runEvent (by rwa [step_event hp] at h)⟩

/-! ## The control state (R248) -/

/-- The engine's step never starts an operation, and keeps the name of one that it leaves running. -/
theorem engineStep_control {s t : State} (h : engineStep s = .next t) :
    (t.phase = .busy → s.phase = .busy) ∧ t.lastOp = s.lastOp := by
  rcases engineStep_cases h with rfl | ⟨-, hidle, -, -, -, hop, -⟩
  · exact ⟨id, rfl⟩
  · exact ⟨fun hb => (idle_not_busy hidle hb).elim, hop⟩

/-- Settles O54: of the effects only START makes the engine busy; only the engine's step, a CLEAR and the resets make it
idle; the others keep the phase and the operation's name. -/
theorem controlStateChangesOnlyAsListed : Obligations.ControlStateChangesOnlyAsListed := by
  intro s t h
  rcases step_cases h with ⟨hp, hengine⟩ | ⟨e, rest, hp, heffect⟩
  · obtain ⟨hbusy, hop⟩ := engineStep_control hengine
    refine ⟨fun hi hb => ?_, fun _ _ => .inl hp, fun _ _ => hop⟩
    exact (idle_not_busy hi (hbusy hb)).elim
  · rw [hp]
    cases heffect with
    | read | ignored | refused | status | irqEn | storeFrame | setFrameLen | dropped =>
      exact ⟨fun hi hb => (idle_not_busy hi hb).elim, fun hb hi => (idle_not_busy hi hb).elim, fun _ _ => rfl⟩
    | start op v hidle hop =>
      refine ⟨fun _ _ => ⟨v, rest, rfl, ?_⟩, fun _ hi => (idle_not_busy hi rfl).elim,
        fun hb _ => (idle_not_busy hidle hb).elim⟩
      simpa using hop
    | clear v hcmd =>
      exact ⟨fun _ hb => (idle_not_busy rfl hb).elim,
        fun _ _ => .inr (.inr (.inr (.inr ⟨v, rest, rfl, hcmd⟩))), fun _ hb => (idle_not_busy rfl hb).elim⟩
    | complete _ hengine =>
      obtain ⟨hbusy, hop⟩ := engineStep_control hengine
      exact ⟨fun hi hb => (idle_not_busy hi (hbusy hb)).elim, fun _ _ => .inr (.inl ⟨rest, rfl⟩), fun _ _ => hop⟩
    | reset =>
      exact ⟨fun _ hb => (idle_not_busy rfl hb).elim, fun _ _ => .inr (.inr (.inl ⟨rest, rfl⟩)),
        fun _ hb => (idle_not_busy rfl hb).elim⟩
    | powerOn =>
      exact ⟨fun _ hb => (idle_not_busy rfl hb).elim,
        fun _ _ => .inr (.inr (.inr (.inl ⟨rest, rfl⟩))), fun _ hb => (idle_not_busy rfl hb).elim⟩

/-! ## The sticky bits (R317) -/

theorem one_not_zero {b : Bool} (h1 : b = true) (h0 : b = false) : False := nomatch h1.symm.trans h0

theorem engineStep_sticky {s t : State} (h : engineStep s = .next t) : t.badCmd = s.badCmd ∧ t.wErr = s.wErr := by
  rcases engineStep_cases h with rfl | ⟨-, -, -, hbad, hw, -⟩
  · exact ⟨rfl, rfl⟩
  · exact ⟨hbad, hw⟩

/-- A bit that is 1 and reads 0 after `b && !c` had its write-one-to-clear bit set. -/
theorem cleared_by {b c : Bool} (hb : b = true) (h : (b && !c) = false) : c = true := by
  rw [hb] at h
  simpa using h

/-- Settles O55: the engine's step and every other effect keep both bits or set them. -/
theorem stickyBitsAreClearedOnlyByTheHost : Obligations.StickyBitsAreClearedOnlyByTheHost := by
  intro s t h
  rcases step_cases h with ⟨-, hengine⟩ | ⟨e, rest, hp, heffect⟩
  · obtain ⟨hbad, hw⟩ := engineStep_sticky hengine
    exact ⟨fun h1 h0 => (one_not_zero (hbad.trans h1) h0).elim, fun h1 h0 => (one_not_zero (hw.trans h1) h0).elim⟩
  · rw [hp]
    cases heffect with
    | read | ignored | irqEn | start | storeFrame | setFrameLen =>
      exact ⟨fun h1 h0 => (one_not_zero h1 h0).elim, fun h1 h0 => (one_not_zero h1 h0).elim⟩
    | dropped => exact ⟨fun h1 h0 => (one_not_zero h1 h0).elim, fun _ h0 => (one_not_zero rfl h0).elim⟩
    | refused => exact ⟨fun _ h0 => (one_not_zero rfl h0).elim, fun h1 h0 => (one_not_zero h1 h0).elim⟩
    | status v =>
      exact ⟨fun h1 h0 => .inl ⟨v, rest, rfl, cleared_by h1 h0⟩, fun h1 h0 => .inl ⟨v, rest, rfl, cleared_by h1 h0⟩⟩
    | clear v hcmd =>
      exact ⟨fun _ _ => .inr (.inl ⟨v, rest, rfl, hcmd⟩), fun _ _ => .inr (.inl ⟨v, rest, rfl, hcmd⟩)⟩
    | complete _ hengine =>
      obtain ⟨hbad, hw⟩ := engineStep_sticky hengine
      exact ⟨fun h1 h0 => (one_not_zero (hbad.trans h1) h0).elim, fun h1 h0 => (one_not_zero (hw.trans h1) h0).elim⟩
    | reset => exact ⟨fun _ _ => .inr (.inr ⟨rest, .inl rfl⟩), fun _ _ => .inr (.inr ⟨rest, .inl rfl⟩)⟩
    | powerOn => exact ⟨fun _ _ => .inr (.inr ⟨rest, .inr rfl⟩), fun _ _ => .inr (.inr ⟨rest, .inr rfl⟩)⟩

/-! ## The frame buffer (R48) -/

theorem engineStep_fb {s t : State} (h : engineStep s = .next t) : t.fb = s.fb := by
  rcases engineStep_cases h with rfl | ⟨-, -, -, -, -, -, hfb, -⟩
  · rfl
  · exact hfb

/-- Settles O56: only the store of a frame byte, which is enabled while idle, and power-on have another frame buffer. -/
theorem onlyTheHostWritesTheFrameBuffer : Obligations.OnlyTheHostWritesTheFrameBuffer := by
  intro s t h hne
  rcases step_cases h with ⟨-, hengine⟩ | ⟨e, rest, hp, heffect⟩
  · exact absurd (engineStep_fb hengine) hne
  · rw [hp]
    cases heffect with
    | storeFrame a n v hidle hregion => exact .inl ⟨hidle, a, n, v, rest, rfl, hregion⟩
    | powerOn => exact .inr ⟨rest, rfl⟩
    | complete _ hengine => exact absurd (engineStep_fb hengine) hne
    | read | ignored | refused | status | irqEn | setFrameLen | dropped | start | clear | reset => exact absurd rfl hne

/-! ## While idle (R249) -/

/-- Settles O57: while idle the engine's step answers the state it was given. -/
theorem idleEngineTakesNoStep : Obligations.IdleEngineTakesNoStep := by
  intro s hidle
  refine ⟨fun rest hp => ?event, step_idle_none hidle⟩
  case event =>
    rw [step_event hp, runEvent]
    exact engineStep_idle hidle

/-! ## Resets (R300, R302, R303) -/

/-- Settles O50: a reset and a power-on write every field but those that the model keeps. -/
theorem resetEventPutsEveryRegisterAtItsResetValue : Obligations.ResetEventPutsEveryRegisterAtItsResetValue :=
  fun _ _ => ⟨fun hp => step_event hp, fun hp => step_event hp⟩

/-! ## Steps that run what they decode (R219, R245) -/

/-- Settles O5: a `CTRL` write reaches the command's meaning, and the completion of a frame of legal length the row of
its codec byte. -/
theorem stepRunsTheDecodedInstruction : Obligations.StepRunsTheDecodedInstruction := by
  refine ⟨fun s v rest hp => ?command, fun s hc hfits => ?codec⟩
  case command => rw [step_write hp, memWrite_ctrl, decode]
  case codec =>
    obtain ⟨hmin, hmax⟩ := hfits
    rw [step_completing_decode hc, decodeCompletion, if_neg (Nat.not_lt.mpr hmax), if_neg (Nat.not_lt.mpr hmin), decode]

/-! ## Command words (R130, R243) -/

theorem exec_cmdClear (ignored : BitVec 28) (s : State) : exec (.cmdClear ignored) s = .next (clearOperation s) := rfl

theorem statusWord_clearOperation (s : State) : statusWord (clearOperation s) = 0 := by
  have zeros : (0#18 ++ 0#2 ++ 0#4 ++ 0#3 ++ 0#1 ++ 0#1 ++ 0#1 ++ 0#1 ++ 0#1 : Word) = 0 := by decide
  exact zeros

/-- Settles O9: CLEAR is `clearOperation`, which writes the same values again the second time. -/
theorem clearCancelsAndKeepsConfiguration : Obligations.ClearCancelsAndKeepsConfiguration :=
  ⟨fun _ => decode_command_clear, fun ignored s => ⟨clearOperation s, exec_cmdClear ignored s,
    exec_cmdClear ignored (clearOperation s), rfl, statusWord_clearOperation s, irq_of_done_false rfl⟩⟩

/-- Settles O10: no command's meaning looks at its operands, so the code alone decides. -/
theorem commandHighBitsAreIgnored : Obligations.CommandHighBitsAreIgnored := fun _ _ s hsame =>
  decode_command_same_code (exec · s) hsame (fun _ _ => rfl) (fun _ _ => rfl) (fun _ _ => rfl) (fun _ _ => rfl)
    (fun _ _ _ _ => rfl) (fun _ _ _ _ => rfl)

end Sys2Proof.Machine

/-! SUPPORT. Proofs about the invariant of all runs (spec/10_state.md, spec/44_frame_demux.md section 6): it holds in
the reset state, and every step keeps it. -/

namespace Sys2Proof.Machine

/-! ## Events that leave the results alone -/

/-- The invariant does not speak of the bus's answer, `BADCMD`, `WERR`, `IRQ_EN`, `FRAME_LEN` or the events to come, and
of the frame buffer only by its form; DONE may fall. -/
theorem Inv.of_same_results {s t : State} (hi : Inv s) (hfb : t.fb.wf = true) (hstride : t.c8Stride = s.c8Stride)
    (hwalk : t.walk = s.walk) (hphase : t.phase = s.phase) (hop : t.lastOp = s.lastOp)
    (hdone : s.done = false → t.done = false) (hresult : t.result = s.result) (hresults : t.results = s.results)
    (hrec : t.recTable = s.recTable) (helem : t.elemTable = s.elemTable) : Inv t where
  memory := hfb
  stride := hstride ▸ hi.stride
  noWalk := hwalk.trans hi.noWalk
  busyClean hb := by
    obtain ⟨hnamed, hd, hr, hz⟩ := hi.busyClean (hphase.symm.trans hb)
    exact ⟨hop ▸ hnamed, hdone hd, hresult.trans hr, hresults.trans hz⟩
  noneClean hn := by
    obtain ⟨hidle, hd, hr, hz⟩ := hi.noneClean (hop.symm.trans hn)
    exact ⟨hphase.trans hidle, hdone hd, hresult.trans hr, hresults.trans hz⟩
  completed := by rw [hphase, hop, hresult]; exact hi.completed
  crcOnly := by rw [hop, hresult, hresults]; exact hi.crcOnly
  failedClean := by rw [hresult, hresults]; exact hi.failedClean
  noPosition := by rw [hresult, hresults]; exact hi.noPosition
  position := by rw [hresult, hresults]; exact hi.position
  ackIsN1 := by rw [hop, hresult, hresults]; exact hi.ackIsN1
  records := by rw [hresults, hrec]; exact hi.records
  elements := by rw [hresults, helem]; exact hi.elements
  headerParsed := by rw [hresults]; exact hi.headerParsed

/-! ## Nothing recorded: after reset, START and CLEAR -/

theorem noBodyResults_zero : noBodyResults zeroResults := ⟨rfl, rfl, rfl, rfl, rfl, rfl, rfl⟩

/-- A state with nothing recorded, in which an operation is named exactly while it runs (R58, R241, R243). -/
theorem Inv.of_nothing_recorded {s : State} (hfb : s.fb.wf = true) (hstride : Config.c8StrideMin ≤ s.c8Stride)
    (hwalk : s.walk = none) (hnamed : s.phase = .idle ↔ s.lastOp = .none) (hdone : s.done = false)
    (hresult : s.result = .none) (hzero : s.results = zeroResults) : Inv s where
  memory := hfb
  stride := hstride
  noWalk := hwalk
  busyClean hb := ⟨fun hn => idle_not_busy (hnamed.mpr hn) hb, hdone, hresult, hzero⟩
  noneClean hn := ⟨hnamed.mpr hn, hdone, hresult, hzero⟩
  completed hidle hop := absurd (hnamed.mp hidle) hop
  crcOnly _ := by
    rw [hzero]
    exact ⟨.inl hresult, rfl⟩
  failedClean _ := by
    rw [hzero]
    exact noBodyResults_zero
  noPosition _ := by
    rw [hzero]
    rfl
  position h := nomatch hresult.symm.trans h
  ackIsN1 _ h := nomatch hresult.symm.trans h
  records := by
    rw [hzero]
    exact ⟨Nat.zero_le _, Nat.zero_le _⟩
  elements := by
    rw [hzero]
    exact ⟨Nat.zero_le _, Nat.zero_le _⟩
  headerParsed _ := by rw [hzero]

/-- Settles O51: the reset state has nothing recorded and no operation named. -/
theorem resetStateSatisfiesTheInvariant : Obligations.ResetStateSatisfiesTheInvariant :=
  .of_nothing_recorded reset_memory_wf (by decide) rfl ⟨fun _ => rfl, fun _ => rfl⟩ rfl rfl rfl

/-! ## Host accesses and resets -/

theorem writeFrame_keeps_wf {m : Memory} {a : BitVec 16} {n : Width} (v : Word)
    (hregion : 0x0800 ≤ a.toNat ∧ a.toNat < 0x1000) (haligned : a.toNat % n.bytes = 0) (h : m.wf = true) :
    (m.writeList (a.toNat - 0x0800) (laneBytes n v)).wf = true := by
  refine writeList_wf _ m _ ?_ h
  rw [laneBytes_length]
  cases n <;> simp only [Width.bytes, Config.frameMax] at haligned ⊢ <;> omega

/-- Every event but the engine's step keeps the invariant. -/
theorem Effect.keeps_inv {s t : State} {e : Event} (h : Effect s e t) (hi : Inv s)
    (hengine : ∀ u, engineStep s = .next u → Inv u) : Inv t := by
  cases h with
  | read | ignored | setFrameLen | dropped | refused | irqEn =>
    exact hi.of_same_results hi.memory rfl rfl rfl rfl id rfl rfl rfl rfl
  | storeFrame a n v _ hregion haligned =>
    exact hi.of_same_results (writeFrame_keeps_wf v hregion haligned hi.memory) rfl rfl rfl rfl id rfl rfl rfl rfl
  | status v =>
    refine hi.of_same_results hi.memory rfl rfl rfl rfl (fun hd => ?_) rfl rfl rfl rfl
    rw [writeStatus_done, hd, Bool.false_and]
  | start op v hidle hop =>
    have hnamed : op ≠ .none := by
      rcases hop with ⟨-, rfl⟩ | ⟨-, rfl⟩ <;> nofun
    exact .of_nothing_recorded hi.memory hi.stride hi.noWalk ⟨nofun, fun hn => absurd hn hnamed⟩ rfl rfl rfl
  | clear | reset =>
    exact .of_nothing_recorded hi.memory hi.stride rfl ⟨fun _ => rfl, fun _ => rfl⟩ rfl rfl rfl
  | powerOn =>
    exact .of_nothing_recorded (powerOn_wf s.fb) hi.stride rfl ⟨fun _ => rfl, fun _ => rfl⟩ rfl rfl rfl
  | complete _ hstep => exact hengine t hstep

/-! ## The end of a DECODE -/

/-- What the invariant asks of a DECODE that is over and has parsed its header. -/
theorem Inv.of_decoded {t : State} (hfb : t.fb.wf = true) (hstride : Config.c8StrideMin ≤ t.c8Stride)
    (hwalk : t.walk = none) (hidle : t.phase = .idle) (hop : t.lastOp = .decode) (hresult : t.result ≠ .none)
    (hvalid : t.results.hdr.valid = true) (hfailed : t.result ≠ .ok → noBodyResults t.results)
    (hnoPos : t.result ≠ .errMalformed → t.results.errPos = 0)
    (hpos : t.result = .errMalformed →
      Config.hdrLen ≤ t.results.errPos.toNat ∧ t.results.errPos.toNat ≤ t.results.body.stop.toNat)
    (hack : t.result = .ok → t.results.ack = t.results.hdr.n1.setWidth 32)
    (hrec : t.results.recCount.toNat ≤ t.recTable.length ∧ t.results.recCount.toNat ≤ Config.recMax)
    (helem : t.results.elemCount.toNat ≤ t.elemTable.length ∧ t.results.elemCount.toNat ≤ Config.elemBound) :
    Inv t where
  memory := hfb
  stride := hstride
  noWalk := hwalk
  busyClean hb := (idle_not_busy hidle hb).elim
  noneClean hn := nomatch hop.symm.trans hn
  completed _ _ := hresult
  crcOnly hc := nomatch hop.symm.trans hc
  failedClean := hfailed
  noPosition := hnoPos
  position := hpos
  ackIsN1 _ := hack
  records := hrec
  elements := helem
  headerParsed h := (one_not_zero hvalid h).elim

/-- An operation of an illegal length leaves every result register 0 (R211, R212). -/
theorem Inv.finish_badLength {s : State} (hi : Inv s) (hb : s.phase = .busy) {code : ResultCode}
    (hcode : code = .errFrameLen ∨ code = .errShortFrame ∧ s.lastOp = .decode) : Inv (finish code s) := by
  obtain ⟨hnamed, -, -, hz⟩ := hi.busyClean hb
  have hz' : (finish code s).results = zeroResults := by rw [finish_results, hz, finishResults_zero]
  have herr : code ≠ .none ∧ code ≠ .ok ∧ code ≠ .errMalformed := by
    rcases hcode with rfl | ⟨rfl, -⟩ <;> exact ⟨nofun, nofun, nofun⟩
  obtain ⟨hnone, hok, hmal⟩ := herr
  exact {
    memory := hi.memory
    stride := hi.stride
    noWalk := rfl
    busyClean := nofun
    noneClean := fun hn => absurd hn hnamed
    completed := fun _ _ => hnone
    crcOnly := fun hc => by
      rw [hz']
      rcases hcode with rfl | ⟨-, hd⟩
      · exact ⟨.inr (.inr rfl), rfl⟩
      · exact nomatch hd.symm.trans hc
    failedClean := fun _ => by
      rw [hz']
      exact noBodyResults_zero
    noPosition := fun _ => by
      rw [hz']
      rfl
    position := fun h => absurd h hmal
    ackIsN1 := fun _ h => absurd h hok
    records := by
      rw [hz']
      exact ⟨Nat.zero_le _, Nat.zero_le _⟩
    elements := by
      rw [hz']
      exact ⟨Nat.zero_le _, Nat.zero_le _⟩
    headerParsed := fun _ => by rw [hz'] }

theorem noBodyResults_counts {r : Results} (h : noBodyResults r) : r.recCount.toNat = 0 ∧ r.elemCount.toNat = 0 := by
  obtain ⟨hrec, helem, -⟩ := h
  rw [hrec, helem]
  exact ⟨rfl, rfl⟩

/-- A DECODE that the codec byte, the checksum or a failed `take` ends (R215, R217, R187). -/
theorem Inv.finish_failed {s u : State} (hi : Inv s) (hfb : u.fb = s.fb) (hstride : u.c8Stride = s.c8Stride)
    (hop : u.lastOp = .decode) (hvalid : u.results.hdr.valid = true) {code : ResultCode} (hnone : code ≠ .none)
    (hok : code ≠ .ok) (hnoPos : code ≠ .errMalformed → u.results.errPos = 0)
    (hpos : code = .errMalformed →
      Config.hdrLen ≤ u.results.errPos.toNat ∧ u.results.errPos.toNat ≤ u.results.body.stop.toNat) :
    Inv (finish code u) := by
  obtain ⟨-, -, hhdr, -, -, hbody, herrPos⟩ := finishResults_header code u.results
  have hclean : noBodyResults (finish code u).results := noBodyResults_finishResults hok u.results
  obtain ⟨hrec, helem⟩ := noBodyResults_counts hclean
  refine .of_decoded (hfb ▸ hi.memory) (hstride ▸ hi.stride) rfl rfl hop hnone ?_ (fun _ => hclean) (fun h => ?_)
    (fun h => ?_) (fun h => absurd h hok) ?_ ?_
  · rw [finish_results, hhdr]
    exact hvalid
  · rw [finish_results, herrPos]
    exact hnoPos h
  · rw [finish_results, herrPos, hbody]
    exact hpos h
  · rw [hrec]
    exact ⟨Nat.zero_le _, Nat.zero_le _⟩
  · rw [helem]
    exact ⟨Nat.zero_le _, Nat.zero_le _⟩

theorem length_le_commitTable {α : Type} (new old : List α) : new.length ≤ (commitTable new old).length := by
  rw [commitTable, List.length_append]
  exact Nat.le_add_right _ _

/-- A DECODE that commits at most 255 records and at most 677 elements (R198, R222). -/
theorem Inv.succeed_decoded {s : State} (hi : Inv s) (hop : s.lastOp = .decode) (hpos : s.results.errPos = 0)
    {recs : List RecEntry} {elems : List ElemEntry} (trunc : Bool) (cur : Nat) (hrecs : recs.length ≤ 255)
    (helems : elems.length ≤ 677) : Inv (succeed recs elems trunc cur (parseHeader s)) := by
  have hrec : (BitVec.ofNat 9 recs.length).toNat = recs.length := by
    rw [BitVec.toNat_ofNat, Nat.mod_eq_of_lt (by omega)]
  have helem : (BitVec.ofNat 11 elems.length).toNat = elems.length := by
    rw [BitVec.toNat_ofNat, Nat.mod_eq_of_lt (by omega)]
  refine .of_decoded hi.memory hi.stride rfl rfl hop nofun rfl (fun h => absurd rfl h) (fun _ => hpos) nofun
    (fun _ => rfl) ?_ ?_
  · rw [succeed_results_recCount, hrec]
    exact ⟨length_le_commitTable _ _, hrecs⟩
  · rw [succeed_results_elemCount, helem]
    exact ⟨length_le_commitTable _ _, helems⟩

/-- The completion of a DECODE keeps the invariant. -/
theorem decodeCompletion_keeps_inv {s t : State} (hi : Inv s) (hb : s.phase = .busy) (hop : s.lastOp = .decode)
    (h : decodeCompletion s = .next t) : Inv t := by
  obtain ⟨-, -, -, hz⟩ := hi.busyClean hb
  have herrPos : s.results.errPos = 0 := by
    rw [hz]
    rfl
  rcases decodeCompletion_cases s hb hop with ⟨-, e⟩ | ⟨-, e⟩ | ⟨hmin, hmax, hends⟩
  · cases e.symm.trans h
    exact hi.finish_badLength hb (.inl rfl)
  · cases e.symm.trans h
    exact hi.finish_badLength hb (.inr ⟨rfl, hop⟩)
  rcases hends with ⟨-, -, e⟩ | ⟨-, -, e⟩ | ⟨-, -, e⟩ | ⟨-, -, hfit, e⟩ | ⟨-, -, -, pos, hlo, hhi, -, e⟩
  · cases e.symm.trans h
    exact hi.finish_failed (u := parseHeader s) rfl rfl hop rfl nofun nofun (fun _ => herrPos) nofun
  · cases e.symm.trans h
    exact hi.finish_failed (u := parseHeader s) rfl rfl hop rfl nofun nofun (fun _ => herrPos) nofun
  · cases e.symm.trans h
    exact hi.succeed_decoded hop herrPos _ _ (decode8_length s) (Nat.zero_le _)
  · cases e.symm.trans h
    simp only [bodyEnd, Config.trlLen] at hfit
    have hbound := elemsBefore_le s.fb _ _ (by omega) hfit
    refine hi.succeed_decoded hop herrPos _ _ ?_ ?_
    · rw [bodyRecords_length]
      exact Nat.le_of_lt_succ (s.fb.byte 9).isLt
    · rw [bodyElems_length]
      omega
  · cases e.symm.trans h
    simp only [bodyEnd, Config.trlLen] at hhi
    refine hi.finish_failed (u := { parseHeader s with
      results := { (parseHeader s).results with errPos := BitVec.ofNat 12 pos } }) rfl rfl hop rfl nofun nofun
      (fun h => absurd rfl h) (fun _ => ?_)
    simp only [parseHeader_results_body, BitVec.toNat_ofNat, Config.hdrLen]
    omega

/-! ## The end of a CRC operation -/

/-- The completion of a CRC operation keeps the invariant (R147, R148). -/
theorem crcCompletion_keeps_inv {s : State} (hi : Inv s) (hb : s.phase = .busy) (hop : s.lastOp = .crc) :
    Inv (crcCompletion s) := by
  obtain ⟨-, -, -, hz⟩ := hi.busyClean hb
  rcases crcCompletion_cases s with ⟨-, e⟩ | ⟨-, e⟩
  · rw [e]
    exact hi.finish_badLength hb (.inl rfl)
  · rw [e, hz]
    exact {
      memory := hi.memory
      stride := hi.stride
      noWalk := rfl
      busyClean := nofun
      noneClean := fun hn => nomatch hop.symm.trans hn
      completed := nofun
      crcOnly := fun _ => ⟨.inr (.inl rfl), rfl⟩
      failedClean := fun h => absurd rfl h
      noPosition := fun _ => rfl
      position := nofun
      ackIsN1 := fun hd => nomatch hop.symm.trans hd
      records := ⟨Nat.zero_le _, Nat.zero_le _⟩
      elements := ⟨Nat.zero_le _, Nat.zero_le _⟩
      headerParsed := fun _ => rfl }

theorem engineStep_keeps_inv {s t : State} (hi : Inv s) (h : engineStep s = .next t) : Inv t := by
  unfold engineStep at h
  split at h
  · rename_i hb hop
    exact decodeCompletion_keeps_inv hi hb hop h
  · rename_i hb hop
    cases h
    exact crcCompletion_keeps_inv hi hb hop
  · cases h
    exact hi
  · cases h
    exact hi

theorem Inv.of_pending {s : State} (hi : Inv s) (rest : List Event) : Inv { s with pending := rest } :=
  hi.of_same_results hi.memory rfl rfl rfl rfl id rfl rfl rfl rfl

/-- Settles O52: the engine's step keeps the invariant, and so do the effects of host accesses and of resets. -/
theorem everyStepKeepsTheInvariant : Obligations.EveryStepKeepsTheInvariant := by
  intro s t hi h
  rcases step_cases h with ⟨-, hengine⟩ | ⟨e, rest, -, heffect⟩
  · exact engineStep_keeps_inv hi hengine
  · exact heffect.keeps_inv (hi.of_pending rest) fun _ => engineStep_keeps_inv (hi.of_pending rest)

end Sys2Proof.Machine

/-! SUPPORT. Proofs about the CRC of spec/41_crc16_arc.md: the function of R140 with its laws (R144, R145), the
detection of a changed byte (R146), and the completion of a CRC operation (R147). -/

namespace Sys2Proof.Machine

/-! ## One shift (R140) -/

/-- The bits of the polynomial `0xA001`. -/
theorem polynomial_getLsbD : ∀ k, k < 16 → (0xA001#16).getLsbD k = decide (k = 15 ∨ k = 13 ∨ k = 0) := by decide

/-- A shift moves every bit down by one and adds the polynomial where a 1 falls out. -/
theorem crcShift_getLsbD (c : BitVec 16) (k : Nat) (hk : k < 16) :
    (crcShift c).getLsbD k = (c.getLsbD (k + 1) ^^ (c.getLsbD 0 && decide (k = 15 ∨ k = 13 ∨ k = 0))) := by
  have hdown : (c >>> 1).getLsbD k = c.getLsbD (k + 1) := by rw [BitVec.getLsbD_ushiftRight, Nat.add_comm]
  unfold crcShift
  cases h : c.getLsbD 0 with
  | true => rw [if_pos rfl, BitVec.getLsbD_xor, hdown, polynomial_getLsbD k hk, Bool.true_and]
  | false => rw [if_neg (by decide), hdown, Bool.false_and, Bool.xor_false]

/-- The bit that falls out shows at the top, since the polynomial's bit 15 is 1. -/
theorem crcShift_getLsbD_top (c : BitVec 16) : (crcShift c).getLsbD 15 = c.getLsbD 0 := by
  rw [crcShift_getLsbD c 15 (by decide), BitVec.getLsbD_of_ge c _ (by decide)]
  simp

/-- A shift loses nothing: its top bit tells what fell out, and then the other bits tell the rest. -/
theorem crcShift_injective : Function.Injective crcShift := by
  intro c d h
  have h0 : c.getLsbD 0 = d.getLsbD 0 := by rw [← crcShift_getLsbD_top, ← crcShift_getLsbD_top, h]
  refine BitVec.eq_of_getLsbD_eq fun i hi => ?_
  cases i with
  | zero => exact h0
  | succ k =>
    have hk := congrArg (fun x => x.getLsbD k) h
    simp only [crcShift_getLsbD _ k (by omega), h0] at hk
    exact Bool.xor_left_inj.mp hk

theorem crcShift_of_even {c : BitVec 16} (h : c.getLsbD 0 = false) : crcShift c = c >>> 1 := by
  rw [crcShift, if_neg (by rw [h]; decide)]

/-- Where no 1 falls out, the shifts only move the bits down. -/
theorem crcShift_iterate_of_low_zero (k : Nat) (c : BitVec 16) (h : ∀ i, i < k → c.getLsbD i = false) :
    crcShift^[k] c = c >>> k := by
  induction k with
  | zero => rw [BitVec.ushiftRight_zero, Function.iterate_zero, id]
  | succ k ih =>
    have heven : (c >>> k).getLsbD 0 = false := by
      rw [BitVec.getLsbD_ushiftRight]
      exact h k (by omega)
    rw [Function.iterate_succ_apply', ih fun i hi => h i (by omega), crcShift_of_even heven, BitVec.shiftRight_add]

/-! ## One byte -/

theorem crcByte_eq_iterate (c : BitVec 16) (x : Byte) : crcByte c x = crcShift^[8] (c ^^^ x.setWidth 16) := rfl

theorem crcByte_injective_state (x : Byte) : Function.Injective fun c => crcByte c x := by
  intro c d h
  exact (BitVec.xor_left_inj _).mp (crcShift_injective.iterate 8 h)

theorem crcByte_injective_byte (c : BitVec 16) : Function.Injective (crcByte c) := by
  intro x y h
  have hw : x.setWidth 16 = y.setWidth 16 := (BitVec.xor_right_inj _).mp (crcShift_injective.iterate 8 h)
  calc x = (x.setWidth 16).setWidth 8 := by simp
    _ = (y.setWidth 16).setWidth 8 := by rw [hw]
    _ = y := by simp

/-- A state's own low byte cancels it, and the high byte moves down. -/
theorem crcByte_low (c : BitVec 16) : crcByte c (c.extractLsb' 0 8) = c >>> 8 := by
  have hbit : ∀ i, (c ^^^ (c.extractLsb' 0 8).setWidth 16).getLsbD i = (c.getLsbD i && decide (8 ≤ i)) := by
    intro i
    by_cases hi : i < 8
    · simp [hi, Nat.not_le.mpr hi, Nat.lt_trans hi (show 8 < 16 by decide)]
    · simp [Nat.le_of_not_lt hi]
  have hlow : ∀ i, i < 8 → (c ^^^ (c.extractLsb' 0 8).setWidth 16).getLsbD i = false := by
    intro i hi
    rw [hbit, decide_eq_false (Nat.not_le.mpr hi), Bool.and_false]
  rw [crcByte_eq_iterate, crcShift_iterate_of_low_zero 8 _ hlow]
  refine BitVec.eq_of_getLsbD_eq fun i _ => ?_
  rw [BitVec.getLsbD_ushiftRight, BitVec.getLsbD_ushiftRight, hbit, decide_eq_true (Nat.le_add_right 8 i),
    Bool.and_true]

/-- A state's own bytes, low byte first, cancel it. -/
theorem crcByte_low_high (c : BitVec 16) : crcByte (crcByte c (c.extractLsb' 0 8)) (c.extractLsb' 8 8) = 0 := by
  have hhigh : (c.extractLsb' 8 8).setWidth 16 = c >>> 8 := by
    refine BitVec.eq_of_getLsbD_eq fun i hi => ?_
    by_cases h : i < 8
    · simp [h, hi]
    · simp [h, hi, BitVec.getLsbD_of_ge c (8 + i) (by omega)]
  have hzero : crcShift^[8] 0#16 = 0 := by decide
  rw [crcByte_low, crcByte_eq_iterate, hhigh, BitVec.xor_self, hzero]

/-! ## A sequence of bytes -/

theorem crc16arc_append_singleton (d : List Byte) (x : Byte) : crc16arc (d ++ [x]) = crcByte (crc16arc d) x := by
  rw [crc16arc, List.foldl_append]
  rfl

/-- A zero byte leaves the initial value 0 as it is (R144). -/
theorem crc16arc_leading_zeros (k : Nat) (d : List Byte) : crc16arc (List.replicate k 0 ++ d) = crc16arc d := by
  have hzero : crcByte 0 0 = 0 := by decide
  induction k with
  | zero => rfl
  | succ k ih => rwa [List.replicate_succ, List.cons_append, crc16arc, List.foldl_cons, hzero]

/-- A sequence followed by its own CRC, low byte first (R145). -/
theorem crc16arc_residue (d : List Byte) :
    crc16arc (d ++ [(crc16arc d).extractLsb' 0 8, (crc16arc d).extractLsb' 8 8]) = 0 := by
  rw [List.append_cons, crc16arc_append_singleton, crc16arc_append_singleton, crcByte_low_high]

/-- Settles O12 from the lemmas on one shift, one byte and a sequence. -/
theorem crcIsTheReflectedPolynomialWithItsLaws : Obligations.CrcIsTheReflectedPolynomialWithItsLaws :=
  ⟨rfl, by decide, crc16arc_append_singleton, crcShift_getLsbD,
    fun d => ⟨fun k => crc16arc_leading_zeros k d, crc16arc_residue d⟩⟩

/-- Bytes that follow never make two states equal. -/
theorem foldl_crcByte_injective (b : List Byte) : Function.Injective fun c => b.foldl crcByte c := by
  induction b with
  | nil => exact fun _ _ h => h
  | cons x b ih => exact fun _ _ h => crcByte_injective_state x (ih h)

/-- Settles O13: the changed byte leads to another state, and the bytes after it keep the states apart. -/
theorem crcDetectsEveryChangeOfOneByte : Obligations.CrcDetectsEveryChangeOfOneByte := by
  intro a b x y hne h
  rw [crc16arc, crc16arc, List.foldl_append, List.foldl_append, List.foldl_cons, List.foldl_cons] at h
  exact hne (crcByte_injective_byte _ (foldl_crcByte_injective b h))

/-! ## The completion of a CRC operation (R147) -/

theorem step_completing_crc {s : State} (h : completing .crc s) :
    step s = .next (crcCompletion { s with pending := s.pending.tail }) := by
  rw [step_completing h]
  obtain ⟨hbusy, hop, -⟩ := h
  simp only [engineStep, hbusy, hop]

/-- An error end of an operation that has recorded nothing (R211, R212). -/
theorem finish_of_zeroResults {s : State} (hz : s.results = zeroResults) (hw : s.walk = none) (code : ResultCode) :
    finish code s = { s with phase := .idle, done := true, result := code } := by
  simp only [finish, completeOperation, hz, hw, finishResults_zero]

/-- Settles O11: the two ends of the operation, from result registers that are 0. -/
theorem crcCompletionWritesTheCrc : Obligations.CrcCompletionWritesTheCrc := by
  intro s hc hz hw
  rw [step_completing_crc hc]
  rcases crcCompletion_cases { s with pending := s.pending.tail } with ⟨hlong, e⟩ | ⟨hfits, e⟩
  · refine ⟨fun h => absurd hlong (Nat.not_lt.mpr h), fun _ => ?_⟩
    rw [e, finish_of_zeroResults (s := { s with pending := s.pending.tail }) hz hw]
  · refine ⟨fun _ => ?_, fun h => absurd hfits (Nat.not_le.mpr h)⟩
    rw [e]
    simp only [finish, completeOperation, finishResults_ok, hz, hw]

end Sys2Proof.Machine

/-! SUPPORT. Proofs about the completion step of a DECODE of spec/44_frame_demux.md: its ends in the order of R262, what
it keeps (R227), the trust boundary (R218), the anomaly flags (R224), and the codec rows that end in an error (R215,
R217). -/

namespace Sys2Proof.Machine

/-! ## What every completion keeps (R227) -/

/-- What a completion step leaves as it was, and the control state it ends in. -/
def endsOperation (s t : State) : Prop :=
  t.phase = .idle ∧ t.done = true ∧ t.lastOp = s.lastOp ∧ t.walk = none ∧ t.badCmd = s.badCmd ∧ t.wErr = s.wErr ∧
    t.ieDone = s.ieDone ∧ t.ieErr = s.ieErr ∧ t.frameLen = s.frameLen ∧ t.fb = s.fb ∧ t.c8Stride = s.c8Stride ∧
    t.pending = s.pending ∧ t.response = s.response

theorem endsOperation_finish (code : ResultCode) (s : State) : endsOperation s (finish code s) :=
  ⟨rfl, rfl, rfl, rfl, rfl, rfl, rfl, rfl, rfl, rfl, rfl, rfl, rfl⟩

theorem DecodeEnd.ends_operation {s t : State} (h : DecodeEnd s t) : endsOperation s t := by
  cases h with
  | badLength code => exact endsOperation_finish code s
  | rejected code => exact endsOperation_finish code (parseHeader s)
  | malformed => exact endsOperation_finish .errMalformed (parseHeader s)
  | committed => exact endsOperation_finish .ok (parseHeader s)

theorem crcCompletion_endsOperation (s : State) : endsOperation s (crcCompletion s) := by
  rcases crcCompletion_cases s with ⟨-, e⟩ | ⟨-, e⟩
  · rw [e]
    exact endsOperation_finish .errFrameLen s
  · rw [e]
    exact endsOperation_finish .ok s

/-- The engine's step while an operation runs has a next state, in which the operation is over. -/
theorem engineStep_endsOperation {s : State} (hb : s.phase = .busy) (hop : s.lastOp ≠ .none) :
    ∃ t, engineStep s = .next t ∧ endsOperation s t := by
  cases h : s.lastOp with
  | none => exact absurd h hop
  | decode =>
    obtain ⟨t, e, hend⟩ := decodeCompletion_ends hb h
    refine ⟨t, ?_, hend.ends_operation⟩
    rw [← e]
    simp only [engineStep, hb, h]
  | crc =>
    refine ⟨crcCompletion s, ?_, crcCompletion_endsOperation s⟩
    simp only [engineStep, hb, h]

/-- Settles O17: the completion step ends the operation on the state with its event taken off the list. -/
theorem completionEndsTheOperation : Obligations.CompletionEndsTheOperation := by
  intro s op hop hc
  rw [step_completing hc]
  obtain ⟨hb, hs, -⟩ := hc
  exact engineStep_endsOperation (s := { s with pending := s.pending.tail }) hb (hs.trans_ne hop)

/-! ## The length checks (R211, R212) -/

/-- Settles O14: either check ends the operation before the header step. -/
theorem badFrameLengthsAreReported : Obligations.BadFrameLengthsAreReported := by
  intro s hc hz hw
  rw [step_completing_decode hc, decodeCompletion]
  refine ⟨fun hlong => ?_, fun hshort => ?_⟩
  · rw [if_pos hlong, finish_of_zeroResults (s := { s with pending := s.pending.tail }) hz hw]
  · rw [if_neg (Nat.not_lt.mpr (Nat.le_trans (Nat.le_of_lt hshort) (by decide))), if_pos hshort,
      finish_of_zeroResults (s := { s with pending := s.pending.tail }) hz hw]

/-! ## The first cause (R262) -/

theorem not_checksumVerifies_iff (m : Memory) (len : Nat) :
    checksumVerifies m len = false ↔
      (crc16arc (m.range 8 (len - 4))).setWidth 32 ≠ BitVec.ofNat 32 (be m (len - 4) 4) := by
  rw [ne_eq, ← checksumVerifies_iff, Bool.not_eq_true]

/-- Settles O16: each end of the completion has the code of the first cause that holds. -/
theorem decodeResultIsTheFirstCauseThatHolds : Obligations.DecodeResultIsTheFirstCauseThatHolds := by
  intro s hc
  rw [step_completing_decode hc]
  obtain ⟨hb, hop, -⟩ := hc
  have hbody : bodyEnd s = s.frameLen.toNat - 5 := rfl
  rcases decodeCompletion_cases { s with pending := s.pending.tail } hb hop with
    ⟨hlong, e⟩ | ⟨hshort, e⟩ | ⟨hmin, hmax, hends⟩
  · exact ⟨_, e, (if_pos hlong).symm⟩
  · refine ⟨_, e, ?_⟩
    rw [if_neg (Nat.not_lt.mpr (Nat.le_trans (Nat.le_of_lt hshort) (by decide))), if_pos hshort]
    rfl
  rw [if_neg (Nat.not_lt.mpr hmax), if_neg (Nat.not_lt.mpr hmin)]
  rcases hends with
    ⟨h8, h8E, e⟩ | ⟨hcodec, hsum, e⟩ | ⟨h8, hsum, e⟩ | ⟨h8E, hsum, hfit, e⟩ | ⟨h8E, hsum, hover, _, -, -, -, e⟩
  · exact ⟨_, e, (if_pos ⟨h8, h8E⟩).symm⟩
  · refine ⟨_, e, ?_⟩
    rw [if_neg (by tauto), if_pos ((not_checksumVerifies_iff _ _).mp hsum)]
    rfl
  · have h8' : s.fb.byte 8 = 0x08 := h8
    refine ⟨_, e, ?_⟩
    rw [if_neg (fun h => h.1 h8), if_neg (not_not.mpr ((checksumVerifies_iff _ _).mp hsum)),
      if_neg (by rw [h8']; exact fun h => absurd h.1 (by decide))]
    rfl
  · refine ⟨_, e, ?_⟩
    rw [if_neg (fun h => h.2 h8E), if_neg (not_not.mpr ((checksumVerifies_iff _ _).mp hsum)),
      if_neg (fun h => Nat.not_lt.mpr hfit h.2)]
    rfl
  · refine ⟨_, e, ?_⟩
    rw [if_neg (fun h => h.2 h8E), if_neg (not_not.mpr ((checksumVerifies_iff _ _).mp hsum)), if_pos ⟨h8E, hover⟩]
    rfl

/-! ## The trust boundary (R218) -/

/-- Settles O19: with a checksum that differs only the two ends that reject the frame are left. -/
theorem nothingVisibleUnlessChecksumVerifies : Obligations.NothingVisibleUnlessChecksumVerifies := by
  intro s hc ⟨hmin, hmax⟩ hsum
  rw [step_completing_decode hc]
  obtain ⟨hb, hop, -⟩ := hc
  have hbad : checksumVerifies s.fb s.frameLen.toNat = false := (not_checksumVerifies_iff _ _).mpr hsum
  have hidden : ∀ t : State, t.result ≠ .ok → ackValid t = false ∧ (∀ i w, readRecTable t i w = 0) ∧
      ∀ j w, readElemTable t j w = 0 := fun t ht =>
    ⟨ackValid_of_not_ok ht, readRecTable_of_not_ackValid (ackValid_of_not_ok ht),
      readElemTable_of_not_ackValid (ackValid_of_not_ok ht)⟩
  rcases decodeCompletion_cases { s with pending := s.pending.tail } hb hop with
    ⟨hlong, -⟩ | ⟨hshort, -⟩ | ⟨-, -, ⟨h8, h8E, e⟩ | ⟨hcodec, -, e⟩ | ⟨-, hok, -⟩ | ⟨-, hok, -⟩ | ⟨-, hok, -⟩⟩
  · exact absurd hmax (Nat.not_le.mpr hlong)
  · exact absurd hmin (Nat.not_le.mpr hshort)
  · obtain ⟨hack, hrec, helem⟩ := hidden (finish .errCodec (parseHeader { s with pending := s.pending.tail })) nofun
    exact ⟨_, e, (if_pos ⟨h8, h8E⟩).symm, hack, rfl, rfl, rfl, rfl, rfl, hrec, helem⟩
  · obtain ⟨hack, hrec, helem⟩ := hidden (finish .errCrc (parseHeader { s with pending := s.pending.tail })) nofun
    exact ⟨_, e, (if_neg (by tauto)).symm, hack, rfl, rfl, rfl, rfl, rfl, hrec, helem⟩
  · exact (one_not_zero hok hbad).elim
  · exact (one_not_zero hok hbad).elim
  · exact (one_not_zero hok hbad).elim

/-! ## Codec rows that end in an error (R215-R217) -/

/-- Settles O23: the default codec row, once dispatched, is `finish .errCodec`. -/
theorem unrecognizedCodecEndsWithErrCodec : Obligations.UnrecognizedCodecEndsWithErrCodec := by
  refine ⟨rfl, rfl, fun s codec h8 h8E hb hop ⟨hmin, hmax⟩ hcodec => ⟨decode_codec_unrecognized h8 h8E, ?_⟩⟩
  exact if_pos ((dispatches_iff codec s).mpr ⟨hb, hop, hmin, hmax, hcodec⟩)

/-- Settles O24: either codec row, once dispatched with a checksum that differs, is `finish .errCrc`. -/
theorem checksumMismatchEndsWithErrCrc : Obligations.ChecksumMismatchEndsWithErrCrc := by
  intro s i hb hop ⟨hmin, hmax⟩ hi hsum
  have hbad : checksumVerifies s.fb s.frameLen.toNat = false := (not_checksumVerifies_iff _ _).mpr hsum
  rcases hi with ⟨rfl, hcodec⟩ | ⟨rfl, hcodec⟩
  · rcases execCodec8_cases s ((dispatches_iff _ s).mpr ⟨hb, hop, hmin, hmax, hcodec⟩) with ⟨-, e⟩ | ⟨hok, -⟩
    · exact e
    · exact (one_not_zero hok hbad).elim
  · rcases execCodec8E_cases s ((dispatches_iff _ s).mpr ⟨hb, hop, hmin, hmax, hcodec⟩) with
      ⟨-, e⟩ | ⟨hok, -⟩ | ⟨hok, -⟩
    · exact e
    · exact (one_not_zero hok hbad).elim
    · exact (one_not_zero hok hbad).elim

/-! ## The OK end -/

/-- The end of a Codec 8E DECODE whose records fit (R181, R189): all of them, laid out by their counts and lengths. -/
def codec8EEnd (s : State) : State :=
  succeed (bodyRecords s.fb (recordCount1 s)) (bodyElems s.fb (recordCount1 s)) false
    (recordStart s.fb (recordCount1 s)) s

/-- An OK end is that of Codec 8, or that of Codec 8E with the records within the body. -/
theorem step_decode_ok {s t : State} (hc : completing .decode s) (hstep : step s = .next t) (hok : t.result = .ok) :
    frameFits s ∧
      ((s.fb.byte 8 = 0x08 ∧ (0 < s.c8Stride → t = codec8End (parseHeader { s with pending := s.pending.tail }))) ∨
        (s.fb.byte 8 = 0x8E ∧ recordStart s.fb (recordCount1 s) ≤ bodyEnd s ∧
          t = codec8EEnd (parseHeader { s with pending := s.pending.tail }))) := by
  rw [step_completing_decode hc] at hstep
  obtain ⟨hb, hop, -⟩ := hc
  rcases decodeCompletion_cases { s with pending := s.pending.tail } hb hop with
    ⟨-, e⟩ | ⟨-, e⟩ | ⟨hmin, hmax, ⟨-, -, e⟩ | ⟨-, -, e⟩ | ⟨h8, -, e⟩ | ⟨h8E, -, hfit, e⟩ | ⟨-, -, -, _, -, -, -, e⟩⟩
  · exact absurd e (not_ok_of_finish hstep hok nofun)
  · exact absurd e (not_ok_of_finish hstep hok nofun)
  · exact absurd e (not_ok_of_finish hstep hok nofun)
  · exact absurd e (not_ok_of_finish hstep hok nofun)
  · cases e.symm.trans hstep
    exact ⟨⟨hmin, hmax⟩, .inl ⟨h8, succeed_decode8 (s := parseHeader { s with pending := s.pending.tail })⟩⟩
  · cases e.symm.trans hstep
    exact ⟨⟨hmin, hmax⟩, .inr ⟨h8E, hfit, rfl⟩⟩
  · exact absurd e (not_ok_of_finish hstep hok nofun)

theorem codec8EEnd_recCount (s : State) : (codec8EEnd s).results.recCount.toNat = recordCount1 s := by
  have hbyte : recordCount1 s < 256 := (s.fb.byte 9).isLt
  rw [codec8EEnd, succeed_results_recCount, bodyRecords_length, BitVec.toNat_ofNat, Nat.mod_eq_of_lt (by omega)]

/-! ## The anomaly flags (R224) -/

theorem codec8End_anomaly (s : State) :
    (codec8End s).results.anomaly =
      resultAnomaly (recordCount1 s) (recordCount2 s) (codec8Count s) (decide (codec8Count s < recordCount1 s))
        (decide (10 + codec8Count s * s.c8Stride < bodyEnd s)) s.results.anomaly := by
  rw [codec8End, succeed_results_anomaly, codec8Records_length]

theorem codec8EEnd_anomaly (s : State) :
    (codec8EEnd s).results.anomaly =
      resultAnomaly (recordCount1 s) (recordCount2 s) (recordCount1 s) false
        (decide (recordStart s.fb (recordCount1 s) < bodyEnd s)) s.results.anomaly := by
  rw [codec8EEnd, succeed_results_anomaly, bodyRecords_length]

/-- The flags of the header step, which every later step keeps. -/
theorem DecodeEnd.header_flags {s t : State} (h : DecodeEnd s t) (hfits : frameFits s) :
    t.results.anomaly.cnt12Mismatch = decide (s.fb.byte 9 ≠ s.fb.byte (s.frameLen.toNat - 5)) ∧
    t.results.anomaly.dflGtBody = decide (be s.fb 4 4 > s.frameLen.toNat - 15) ∧
    t.results.anomaly.preambleNz = decide (be s.fb 0 4 ≠ 0) ∧
    t.results.anomaly.crcHiNz = decide ((frameChecksum s.fb s.frameLen.toNat).extractLsb' 16 16 ≠ 0) := by
  cases h with
  | badLength _ _ hlen => exact absurd hfits hlen
  | rejected code herr =>
    obtain ⟨-, -, -, -, hflags⟩ := finishResults_error code herr (parseHeader s).results
    exact hflags
  | malformed pos =>
    obtain ⟨-, -, -, -, hflags⟩ := finishResults_error .errMalformed nofun
      { (parseHeader s).results with errPos := BitVec.ofNat 12 pos }
    exact hflags
  | committed => exact ⟨rfl, rfl, rfl, rfl⟩

/-- The high half of the checksum field is its first two bytes. -/
theorem frameChecksum_high (m : Memory) (len : Nat) :
    (frameChecksum m len).extractLsb' 16 16 = 0 ↔ be m (len - 4) 2 = 0 := by
  have hsplit : be m (len - 4) 4 = be m (len - 4) 2 * 256 ^ 2 + be m (len - 4 + 2) 2 := be_add m (len - 4) 2 2
  have hhigh := be_lt m (len - 4) 2
  have hlow := be_lt m (len - 4 + 2) 2
  rw [← BitVec.toNat_inj]
  simp only [frameChecksum, beField, BitVec.extractLsb'_toNat, BitVec.toNat_ofNat, Nat.shiftRight_eq_div_pow,
    BitVec.ofNat_eq_ofNat, Nat.zero_mod]
  omega

/-- Settles O21: the header flags are those of the header step; the result flags are those of the codec's OK end, and 0
after any other. -/
theorem anomalyFlagsAreAsTheTableSays : Obligations.AnomalyFlagsAreAsTheTableSays := by
  intro s t hc hfits hstride hz hstep
  have hend := decodeEnd_of_step hc hstep
  obtain ⟨h12, hdfl, hpre, hcrc⟩ := hend.header_flags hfits
  refine ⟨h12, hdfl, hpre, ?crcHi, fun hok => ?ok, fun hfail => ?failed⟩
  case crcHi =>
    rw [hcrc]
    exact decide_eq_decide.mpr (not_congr (frameChecksum_high _ _))
  case failed =>
    obtain ⟨-, -, -, hflags⟩ := hend.no_body_results hfail
    exact hflags
  case ok =>
    rcases step_decode_ok hc hstep hok with ⟨-, ⟨h8, ht⟩ | ⟨h8E, hfit, rfl⟩⟩
    · rw [ht (by omega), codec8End_recCount, codec8End_anomaly, if_pos h8]
      exact ⟨rfl, rfl, decide_eq_decide.mpr ⟨fun h => ⟨h8, h⟩, And.right⟩, rfl⟩
    · have hnot8 : s.fb.byte 8 ≠ 0x08 := by
        rw [h8E]
        decide
      rw [codec8EEnd_recCount, codec8EEnd_anomaly, if_neg hnot8]
      exact ⟨rfl, rfl, (decide_eq_false fun h => hnot8 h.1).symm, rfl⟩

end Sys2Proof.Machine

/-! SUPPORT. Proofs about the I/O groups and the records of spec/43_codec8e.md: what a group that fits decodes (R183,
R184), where a record that overruns the body fails (R190), the whole body (R181, R187, R191). -/

namespace Sys2Proof.Machine

/-! ## The rows as pieces of the walk -/

/-- What a piece that ends does to the state. -/
theorem runWalk_of_ok {piece : Memory → Walk → Except Nat Walk} {s : State} {w w' : Walk} (hw : s.walk = some w)
    (h : piece s.fb w = .ok w') : runWalk piece s = { s with walk := some w' } := by
  simp only [runWalk, hw, h]

/-- What a piece that fails does to the state. -/
theorem runWalk_of_error {piece : Memory → Walk → Except Nat Walk} {s : State} {w : Walk} {pos : Nat}
    (hw : s.walk = some w) (h : piece s.fb w = .error pos) : runWalk piece s = failMalformed pos s := by
  simp only [runWalk, hw, h]

/-- A row of a fixed-width group, with the width of its values, its kind and the count it sets (R182). -/
inductive FixedRow : Instr → Nat → BitVec 3 → (Half → RecEntry → RecEntry) → Prop where
  | io1B : FixedRow .io1B 1 0 fun n e => { e with cnt1B := n }
  | io2B : FixedRow .io2B 2 1 fun n e => { e with cnt2B := n }
  | io4B : FixedRow .io4B 4 2 fun n e => { e with cnt4B := n }
  | io8B : FixedRow .io8B 8 3 fun n e => { e with cnt8B := n }

theorem FixedRow.exec_eq {i : Instr} {width : Nat} {kind : BitVec 3} {setCount : Half → RecEntry → RecEntry}
    (h : FixedRow i width kind setCount) (s : State) :
    exec i s = .next (runWalk (fixedGroup width kind setCount) s) := by
  cases h with
  | io1B | io2B | io4B | io8B => rfl

theorem exec_ioNX (s : State) : exec .ioNX s = .next (runWalk nxGroup s) := rfl

/-! ## Groups that fit (R183, R184) -/

/-- Settles O34: each row is its group, which ends when its elements fit. -/
theorem fixedGroupsDecodeTheirElements : Obligations.FixedGroupsDecodeTheirElements := by
  intro s w i width kind setCount hi hw hfit
  have hrow : FixedRow i width kind setCount := by
    rcases hi with ⟨rfl, rfl, rfl, rfl⟩ | ⟨rfl, rfl, rfl, rfl⟩ | ⟨rfl, rfl, rfl, rfl⟩ | ⟨rfl, rfl, rfl, rfl⟩
    · exact .io1B
    · exact .io2B
    · exact .io4B
    · exact .io8B
  rw [hrow.exec_eq, runWalk_of_ok hw (fixedGroup_fits width kind setCount s.fb w hfit)]
  rfl

/-- Settles O35: the row is the NX group, which ends when its elements fit. -/
theorem nxGroupDecodesItsElements : Obligations.NxGroupDecodesItsElements := by
  intro s w hw hfit
  rw [exec_ioNX, runWalk_of_ok hw (nxGroup_fits s.fb w hfit)]
  rfl

/-! ## Records that overrun (R190) -/

theorem fixedGroup_count_cut {m : Memory} {w : Walk} (width : Nat) (kind : BitVec 3)
    (setCount : Half → RecEntry → RecEntry) (h : w.bodyEnd < w.cur + 2) :
    fixedGroup width kind setCount m w = .error w.cur := by
  rw [fixedGroup, take_error m 2 w h]
  rfl

theorem nxGroup_count_cut {m : Memory} {w : Walk} (h : w.bodyEnd < w.cur + 2) : nxGroup m w = .error w.cur := by
  rw [nxGroup, take_error m 2 w h]
  rfl

/-- Where two elements of one size both hold the end of the body, they are one element. -/
theorem element_unique {q size stop j k : Nat} (hj : q + j * size ≤ stop) (hj' : stop < q + j * size + size)
    (hk : q + k * size ≤ stop) (hk' : stop < q + k * size + size) : j = k := by
  have hsize : 0 < size := by omega
  have hdiv : ∀ i, q + i * size ≤ stop → stop < q + i * size + size → (stop - q) / size = i := fun i h1 h2 =>
    (Nat.div_eq_iff hsize).mpr ⟨by omega, by omega⟩
  rw [← hdiv j hj hj', ← hdiv k hk hk']

/-- A fixed-width group whose element `k` does not fit fails at that element's id, or else at its value. -/
theorem fixedGroup_element_cut {m : Memory} {w : Walk} {width k : Nat} (kind : BitVec 3)
    (setCount : Half → RecEntry → RecEntry) (hk : k < be m w.cur 2)
    (hlo : w.cur + 2 + k * (2 + width) ≤ w.bodyEnd) (hhi : w.bodyEnd < w.cur + 2 + k * (2 + width) + 2 + width) :
    fixedGroup width kind setCount m w =
      .error (if w.bodyEnd < w.cur + 2 + k * (2 + width) + 2 then w.cur + 2 + k * (2 + width)
        else w.cur + 2 + k * (2 + width) + 2) := by
  rw [fixedGroup, take_ok m 2 w (by omega)]
  simp only [bind, Except.bind]
  rcases fixedElems_cases m width kind (be m w.cur 2)
    { w with cur := w.cur + 2, entry := setCount (BitVec.ofNat 16 (be m w.cur 2)) w.entry }
    (by simp only; omega) with ⟨hfit, -⟩ | ⟨j, -, h1, h2, e⟩
  · have hmul : (k + 1) * (2 + width) ≤ be m w.cur 2 * (2 + width) := Nat.mul_le_mul_right _ hk
    rw [Nat.succ_mul] at hmul
    simp only at hfit
    omega
  · simp only at h1 h2 e
    have hjk : j = k := element_unique h1 (by omega) hlo (by omega)
    rw [e, hjk]

/-- An NX group whose element `k` does not fit fails at that element's id, or its length, or its value. -/
theorem nxGroup_element_cut {m : Memory} {w : Walk} {k : Nat} (hk : k < be m w.cur 2)
    (hlo : nxElemStart m w.cur k ≤ w.bodyEnd) (hhi : w.bodyEnd < nxElemStart m w.cur (k + 1)) :
    nxGroup m w =
      .error (if w.bodyEnd < nxElemStart m w.cur k + 2 then nxElemStart m w.cur k
        else if w.bodyEnd < nxElemStart m w.cur k + 4 then nxElemStart m w.cur k + 2
        else nxElemStart m w.cur k + 4) := by
  have hmono := fun {i j : Nat} => nxFrom_mono m (w.cur + 2) (j := i) (k := j)
  have hfirst : w.cur + 2 ≤ nxElemStart m w.cur k := hmono (Nat.zero_le k)
  rw [nxGroup, take_ok m 2 w (by omega)]
  simp only [bind, Except.bind]
  unfold nxElemStart at *
  rcases nxElems_cases m (be m w.cur 2)
    { w with cur := w.cur + 2, entry := { w.entry with cntNX := BitVec.ofNat 16 (be m w.cur 2) } }
    (by simp only; omega) with ⟨hfit, -⟩ | ⟨j, -, h1, h2, e⟩
  · have := hmono (show k + 1 ≤ be m w.cur 2 from hk)
    simp only at hfit
    omega
  · simp only at h1 h2 e
    have hjk : j = k := by
      rcases Nat.lt_trichotomy j k with h | h | h
      · have := hmono (show j + 1 ≤ k from h)
        omega
      · exact h
      · have := hmono (show k + 1 ≤ j from h)
        omega
    rw [e, hjk]

/-- Fields that follow one another without a gap or an overlap hold no offset twice. -/
theorem field_unique {fields : List (Nat × Nat)} (h : fields.Pairwise fun x y => x.1 + x.2 ≤ y.1) {x y : Nat × Nat}
    {stop : Nat} (hx : x ∈ fields) (hy : y ∈ fields) (hx1 : x.1 ≤ stop) (hx2 : stop < x.1 + x.2) (hy1 : y.1 ≤ stop)
    (hy2 : stop < y.1 + y.2) : x = y := by
  by_contra hne
  have : Std.Symm fun x y : Nat × Nat => x.1 + x.2 ≤ y.1 ∨ y.1 + y.2 ≤ x.1 := ⟨fun _ _ => Or.symm⟩
  have happart : fields.Pairwise fun x y => x.1 + x.2 ≤ y.1 ∨ y.1 + y.2 ≤ x.1 := h.imp .inl
  have := happart.forall hx hy hne
  omega

theorem fixedFields_pairwise (p : Nat) : (fixedFields p).Pairwise fun x y => x.1 + x.2 ≤ y.1 := by
  simp [fixedFields]

theorem fixedFields_ge {p : Nat} {x : Nat × Nat} (h : x ∈ fixedFields p) : p ≤ x.1 ∧ x.1 + x.2 ≤ p + 28 := by
  simp only [fixedFields, List.mem_cons, List.not_mem_nil, or_false] at h
  rcases h with rfl | rfl | rfl | rfl | rfl | rfl | rfl | rfl | rfl | rfl <;> simp only <;> omega

/-- A record whose fixed part is cut off fails at the field that the end of the body cuts. -/
theorem recordPiece_fixedPart_cut {m : Memory} {w : Walk} {o n : Nat} (hmem : (o, n) ∈ fixedFields w.cur)
    (hlo : o ≤ w.bodyEnd) (hhi : w.bodyEnd < o + n) : recordPiece m w = .error o := by
  obtain ⟨hge, hle⟩ := fixedFields_ge hmem
  simp only at hge hle
  obtain ⟨pos, len, e, hpos, h1, h2⟩ := fixedPart_overruns m w (by omega) (by omega)
  have hsame : (pos, len) = (o, n) := field_unique (fixedFields_pairwise w.cur) hpos hmem h1 h2 hlo hhi
  simp only [recordPiece, chain, e, (Prod.mk.inj hsame).1]

/-- Settles O36: the fixed part, the count or the element that the end of the body cuts is the one that fails. -/
theorem recordOverrunPosition : Obligations.RecordOverrunPosition := by
  intro s w hw
  refine ⟨fun o n hmem hlo hhi => ?fixedPart, fun i width hi => ?fixedGroup, fun hcut => ?nxCount,
    fun k hk hlo => ?nxElement⟩
  case fixedPart => rw [record8E_eq, runWalk_of_error hw (recordPiece_fixedPart_cut hmem hlo hhi)]
  case fixedGroup =>
    obtain ⟨kind, setCount, hrow⟩ : ∃ kind setCount, FixedRow i width kind setCount := by
      rcases hi with ⟨rfl, rfl⟩ | ⟨rfl, rfl⟩ | ⟨rfl, rfl⟩ | ⟨rfl, rfl⟩
      · exact ⟨_, _, .io1B⟩
      · exact ⟨_, _, .io2B⟩
      · exact ⟨_, _, .io4B⟩
      · exact ⟨_, _, .io8B⟩
    rw [hrow.exec_eq]
    refine ⟨fun hcut => ?_, fun k hk hlo => ?_⟩
    · rw [runWalk_of_error hw (fixedGroup_count_cut width kind setCount hcut)]
    · have hcut := fixedGroup_element_cut kind setCount hk hlo
      refine ⟨fun hid => ?_, fun hid hvalue => ?_⟩
      · rw [runWalk_of_error hw (hcut (by omega)), if_pos hid]
      · rw [runWalk_of_error hw (hcut hvalue), if_neg (Nat.not_lt.mpr hid)]
  case nxCount => rw [exec_ioNX, runWalk_of_error hw (nxGroup_count_cut hcut)]
  case nxElement =>
    have hend : nxElemStart s.fb w.cur (k + 1) =
        nxElemStart s.fb w.cur k + 4 + be s.fb (nxElemStart s.fb w.cur k + 2) 2 := rfl
    have hcut := nxGroup_element_cut hk hlo
    rw [exec_ioNX]
    refine ⟨fun hid => ?_, fun hid hlen => ?_, fun hlen hvalue => ?_⟩
    · rw [runWalk_of_error hw (hcut (by omega)), if_pos hid]
    · rw [runWalk_of_error hw (hcut (by omega)), if_neg (Nat.not_lt.mpr hid), if_pos hlen]
    · rw [runWalk_of_error hw (hcut (by omega)), if_neg (by omega), if_neg (Nat.not_lt.mpr hlen)]

/-! ## What failing does, and the kinds that never occur (R123, R226) -/

/-- Settles O37: `failMalformed` with its error end written out. -/
theorem failingRecordsThePositionAndDiscards : Obligations.FailingRecordsThePositionAndDiscards := fun _ _ => rfl

/-- Settles O38: both rows are refusals. -/
theorem reservedKindsAreRefused : Obligations.ReservedKindsAreRefused := fun _ _ => ⟨rfl, rfl⟩

/-! ## A record (R182, R185) -/

/-- Settles O31: the record step is its pieces in that order, each outcome given to the next. -/
theorem recordRunsTheFiveGroupsInOrder : Obligations.RecordRunsTheFiveGroupsInOrder := by
  intro s s1 s2 s4 s8 sx h1 h2 h4 h8 hx
  simp only [exec] at h1 h2 h4 h8 hx
  simp only [record8E, h1, h2, h4, h8, hx, andThen_next]

/-! ## The whole body (R181, R187, R191) -/

theorem dispatches_codec8E {s : State} (hb : s.phase = .busy) (hop : s.lastOp = .decode) (hfits : frameFits s)
    (hcodec : s.fb.byte 8 = 0x8E) : dispatches codec8EByte s = true :=
  (dispatches_iff _ s).mpr ⟨hb, hop, hfits.1, hfits.2, hcodec⟩

/-- Settles O28: records that fit end the row in `codec8EEnd`. -/
theorem codec8EUnpacksTheWholeBody : Obligations.Codec8EUnpacksTheWholeBody := by
  intro s hb hop hfits hcodec hv n1 n2 hfit
  rcases execCodec8E_cases s (dispatches_codec8E hb hop hfits hcodec) with ⟨hbad, -⟩ | ⟨-, -, e⟩ | ⟨-, hover, -⟩
  · exact (one_not_zero hv hbad).elim
  · have hack : BitVec.ofNat 32 n1 = (s.fb.byte 9).setWidth 32 := BitVec.ofNat_toNat ..
    rw [succeed, commitTable, commitTable, bodyRecords_length, bodyElems_length] at e
    rw [hack]
    refine e.trans ?_
    simp only [resultAnomaly, recordCount1, ne_eq, not_true, decide_false]
    rfl
  · exact absurd hfit (Nat.not_le.mpr hover)

/-- Settles O29: records that do not fit end the row at the field that the end of the body cuts. -/
theorem codec8EOverrunFailsWhole : Obligations.Codec8EOverrunFailsWhole := by
  intro s hb hop hfits hcodec hv hover
  rcases execCodec8E_cases s (dispatches_codec8E hb hop hfits hcodec) with
    ⟨hbad, -⟩ | ⟨-, hfit, -⟩ | ⟨-, -, pos, hlo, hhi, ⟨k, len, hk, hmem, hcut⟩, -, e⟩
  · exact (one_not_zero hv hbad).elim
  · exact absurd hfit (Nat.not_le.mpr hover)
  · exact ⟨pos, k, len, hk, hmem, hlo, hhi, hcut, e⟩

theorem chain_assoc (f g h : Memory → Walk → Except Nat Walk) : chain (chain f g) h = chain f (chain g h) := by
  funext m w
  simp only [chain]
  cases f m w <;> rfl

/-- The walk of `k + n` records is that of the first `k` and then that of the others. -/
theorem recordsPiece_add (k n : Nat) (m : Memory) (w : Walk) :
    recordsPiece (k + n) m w = chain (recordsPiece k) (recordsPiece n) m w := by
  induction k generalizing w with
  | zero => simp only [Nat.zero_add, recordsPiece, chain]
  | succ k ih =>
    rw [Nat.add_right_comm, recordsPiece, recordsPiece, chain_assoc, chain, chain]
    cases recordPiece m w with
    | error pos => rfl
    | ok w' => exact ih w'

/-- After `k` records that end with the body, the cursor stands at the body's end, and what fails from there on can only
fail there (R191). -/
theorem recordsPiece_fails_at_end {m : Memory} {stop k n pos : Nat} (hend : recordStart m k = stop)
    (h : recordsPiece (k + n) m (firstWalk stop) = .error pos) : pos = stop := by
  have hten := recordStart_ge m k
  obtain ⟨w, hw, hcur, hstay, -⟩ := (recordsPiece_walkAt m stop k 0 (firstWalk stop) ⟨rfl, rfl, rfl, rfl⟩
    (show 10 ≤ stop by omega)).1 (by rw [Nat.zero_add, hend])
  rw [Nat.zero_add, hend] at hcur
  rw [recordsPiece_add, chain_ok hw] at h
  have hgrew := grows_recordsPiece n m w (by omega)
  rw [h] at hgrew
  obtain ⟨hge, hle⟩ := hgrew
  omega

/-- Settles O30: the walk fails, and it can only fail at the end of the body. -/
theorem codec8EShortOfARecordFailsAtBodyEnd : Obligations.Codec8EShortOfARecordFailsAtBodyEnd := by
  intro s k hb hop hfits hcodec hv hk hend
  have hover : bodyEnd s < recordStart s.fb (recordCount1 s) := by
    have hnext := recordEnd_ge s.fb (recordStart s.fb k)
    have hmono := recordStart_mono s.fb (show k + 1 ≤ recordCount1 s from hk)
    simp only [bodyEnd, Config.trlLen, ← hend]
    rw [recordStart] at hmono
    omega
  rcases execCodec8E_cases s (dispatches_codec8E hb hop hfits hcodec) with
    ⟨hbad, -⟩ | ⟨-, hfit, -⟩ | ⟨-, -, pos, -, -, -, hwalk, e⟩
  · exact (one_not_zero hv hbad).elim
  · exact absurd hfit (Nat.not_le.mpr hover)
  · obtain ⟨n, hn⟩ := Nat.exists_eq_add_of_le (Nat.le_of_lt hk)
    rw [show recordCount1 s = k + n from hn] at hwalk
    rw [recordsPiece_fails_at_end hend hwalk] at e
    exact ⟨_, e, rfl, rfl⟩

end Sys2Proof.Machine

/-! SUPPORT. Proofs about the records and elements of a frame (spec/42_codec8.md, spec/43_codec8e.md section 5): what a
Codec 8 record depends on (R163), and the order, the number and the lengths of the records and elements that a Codec 8E
DECODE shows (R112, R196, R198). -/

namespace Sys2Proof.Machine

/-! ## Codec 8 records (R163) -/

/-- Settles O27: every field of the record ends at offset 24 or before it. -/
theorem codec8RecordIgnoresItsLastBytes : Obligations.Codec8RecordIgnoresItsLastBytes := by
  intro m m' stride b h
  have hfield : ∀ width off n, off + n ≤ 24 → beField width m (b + off) n = beField width m' (b + off) n :=
    fun width off n hn => congrArg _ (be_congr m m' _ _ fun k h1 h2 => h k (by omega) (by omega))
  have hbyte : ∀ off, off < 24 → m.byte (b + off) = m'.byte (b + off) := fun off hoff => h _ (by omega) (by omega)
  have htime : beField 64 m b 8 = beField 64 m' b 8 := hfield 64 0 8 (by decide)
  rw [record8, record8, htime, hbyte 8 (by decide), hfield 32 9 4 (by decide), hfield 32 13 4 (by decide),
    hfield 16 17 2 (by decide), hfield 16 19 2 (by decide), hbyte 21 (by decide), hfield 16 22 2 (by decide)]

/-! ## The elements of a body, in record order (R196, R198) -/

theorem recIdx_of_mem_recordElems {m : Memory} {r p : Nat} {e : ElemEntry} (h : e ∈ recordElems m r p) :
    e.recIdx = BitVec.ofNat 8 r := by
  simp only [recordElems, fixedElemsAt, nxElemsAt, List.mem_append, List.mem_map] at h
  rcases h with (((⟨k, -, rfl⟩ | ⟨k, -, rfl⟩) | ⟨k, -, rfl⟩) | ⟨k, -, rfl⟩) | ⟨k, -, rfl⟩ <;> rfl

/-- A record has an index below 256, so that the field holds it. -/
theorem recIdx_toNat_of_mem_recordElems {m : Memory} {r p : Nat} {e : ElemEntry} (h : e ∈ recordElems m r p)
    (hr : r < 256) : e.recIdx.toNat = r := by
  rw [recIdx_of_mem_recordElems h, BitVec.toNat_ofNat, Nat.mod_eq_of_lt hr]

theorem recIdx_lt_of_mem_bodyElems {m : Memory} {n : Nat} {e : ElemEntry} (h : e ∈ bodyElems m n) (hn : n ≤ 256) :
    e.recIdx.toNat < n := by
  obtain ⟨i, hi, he⟩ := List.mem_flatMap.mp h
  have hlt := List.mem_range.mp hi
  rw [recIdx_toNat_of_mem_recordElems he (by omega)]
  exact hlt

theorem bodyElems_pairwise (m : Memory) (n : Nat) (hn : n ≤ 256) :
    (bodyElems m n).Pairwise fun e f => e.recIdx.toNat ≤ f.recIdx.toNat := by
  induction n with
  | zero => exact List.Pairwise.nil
  | succ n ih =>
    have hnew : ∀ e ∈ recordElems m n (recordStart m n), e.recIdx.toNat = n := fun e he =>
      recIdx_toNat_of_mem_recordElems he (by omega)
    rw [bodyElems_succ, List.pairwise_append]
    refine ⟨ih (by omega), List.pairwise_of_forall_mem_list fun e he f hf => ?_, fun e he f hf => ?_⟩
    · rw [hnew e he, hnew f hf]
    · rw [hnew f hf]
      exact Nat.le_of_lt (recIdx_lt_of_mem_bodyElems he (by omega))

/-- The elements of a body that fits in the frame buffer (R198). -/
theorem elemsBefore_le_bound {s : State} (hfits : frameFits s)
    (hfit : recordStart s.fb (recordCount1 s) ≤ bodyEnd s) : elemsBefore s.fb (recordCount1 s) ≤ 677 := by
  obtain ⟨hmin, hmax⟩ := hfits
  simp only [bodyEnd, Config.trlLen, Config.minFrame, Config.frameMax] at *
  have := elemsBefore_le s.fb _ _ (by omega) hfit
  omega

theorem codec8EEnd_elemCount {s : State} (h : elemsBefore s.fb (recordCount1 s) ≤ 677) :
    (codec8EEnd s).results.elemCount.toNat = elemsBefore s.fb (recordCount1 s) := by
  rw [codec8EEnd, succeed_results_elemCount, bodyElems_length, BitVec.toNat_ofNat, Nat.mod_eq_of_lt (by omega)]

theorem codec8EEnd_elemTable (s : State) :
    (codec8EEnd s).elemTable =
      bodyElems s.fb (recordCount1 s) ++ s.elemTable.drop (elemsBefore s.fb (recordCount1 s)) := by
  rw [codec8EEnd, succeed_elemTable, commitTable, bodyElems_length]

theorem codec8EEnd_recTable_getElem? {s : State} {i : Nat} (hi : i < recordCount1 s) :
    (codec8EEnd s).recTable[i]? = some (record8EAt s.fb (recordStart s.fb i) (elemsBefore s.fb i)) := by
  rw [codec8EEnd, succeed_recTable, commitTable, List.getElem?_append_left (by rwa [bodyRecords_length]), bodyRecords,
    List.getElem?_map, List.getElem?_range hi]
  rfl

/-- An OK end of a Codec 8E DECODE, from a state with its frame. -/
theorem step_codec8E_ok {s t : State} (hc : completing .decode s) (hcodec : s.fb.byte 8 = 0x8E)
    (hstep : step s = .next t) (hok : t.result = .ok) :
    ∃ u : State, t = codec8EEnd u ∧ u.fb = s.fb ∧ frameFits u ∧ recordStart u.fb (recordCount1 u) ≤ bodyEnd u := by
  obtain ⟨hfits, ⟨h8, -⟩ | ⟨-, hfit, ht⟩⟩ := step_decode_ok hc hstep hok
  · rw [hcodec] at h8
    exact absurd h8 (by decide)
  · exact ⟨_, ht, rfl, hfits, hfit⟩

/-- Settles O32: the visible elements are those of the records laid out in the body. -/
theorem elementsAreBoundedAndInRecordOrder : Obligations.ElementsAreBoundedAndInRecordOrder := by
  intro s t hc hcodec hstep hok
  obtain ⟨u, rfl, hfb, hfits, hfit⟩ := step_codec8E_ok hc hcodec hstep hok
  have hbound : elemsBefore u.fb (recordCount1 u) ≤ 677 := elemsBefore_le_bound hfits hfit
  have hsorted := List.pairwise_iff_getElem.mp
    (bodyElems_pairwise u.fb (recordCount1 u) (Nat.le_of_lt (u.fb.byte 9).isLt))
  rw [← hfb, codec8EEnd_elemCount hbound]
  refine ⟨rfl, hbound, fun j k e f hjk hk he hf => ?_⟩
  have hlen : k < (bodyElems u.fb (recordCount1 u)).length := by rwa [bodyElems_length]
  rw [codec8EEnd_elemTable, List.getElem?_append_left (by omega)] at he hf
  obtain ⟨hj', rfl⟩ := List.getElem?_eq_some_iff.mp he
  obtain ⟨hk', rfl⟩ := List.getElem?_eq_some_iff.mp hf
  rcases Nat.lt_or_eq_of_le hjk with h | rfl
  · exact hsorted j k hj' hk' h
  · exact Nat.le_refl _

/-! ## The length of a record (R112) -/

/-- The NX elements before element `k` take 4 bytes each and their values. -/
theorem nxFrom_eq (m : Memory) (q k : Nat) :
    nxFrom m q k = q + 4 * k + ((List.range k).map fun j => be m (nxFrom m q j + 2) 2).sum := by
  induction k with
  | zero => rfl
  | succ k ih =>
    rw [List.range_succ, List.map_append, List.sum_append, List.map_singleton, List.sum_singleton, nxFrom]
    omega

/-- The values of the NX elements of the record at `p`. -/
def nxValueBytes (m : Memory) (p : Nat) : Nat :=
  ((List.range (be m (startNX m p) 2)).map fun k => be m (nxElemStart m (startNX m p) k + 2) 2).sum

/-- Where a record ends, by its counts and the lengths of its NX values (R112). -/
theorem recordEnd_eq (m : Memory) (p : Nat) :
    recordEnd m p = p + (38 + 3 * be m (start1B p) 2 + 4 * be m (start2B m p) 2 + 6 * be m (start4B m p) 2 +
      10 * be m (start8B m p) 2 + 4 * be m (startNX m p) 2 + nxValueBytes m p) := by
  have h1 : start2B m p = p + 28 + 2 + be m (start1B p) 2 * (2 + 1) := rfl
  have h2 : start4B m p = start2B m p + 2 + be m (start2B m p) 2 * (2 + 2) := rfl
  have h4 : start8B m p = start4B m p + 2 + be m (start4B m p) 2 * (2 + 4) := rfl
  have h8 : startNX m p = start8B m p + 2 + be m (start8B m p) 2 * (2 + 8) := rfl
  have hx : recordEnd m p = startNX m p + 2 + 4 * be m (startNX m p) 2 + nxValueBytes m p := nxFrom_eq m _ _
  omega

theorem beField_16_toNat (m : Memory) (p : Nat) : (beField 16 m p 2).toNat = be m p 2 := by
  have := be_lt m p 2
  rw [beField, BitVec.toNat_ofNat, Nat.mod_eq_of_lt (by omega)]

theorem nxElemsAt_vlen (m : Memory) (r p : Nat) :
    ((nxElemsAt m r (startNX m p)).map fun x => x.vlen.toNat).sum = nxValueBytes m p := by
  simp only [nxElemsAt, nxValueBytes, List.map_map, Function.comp_def, nxElemAt, beField_16_toNat]

/-- The elements of the records up to record `i` come first. -/
theorem bodyElems_prefix (m : Memory) {i n : Nat} (h : i ≤ n) : bodyElems m i <+: bodyElems m n := by
  induction h with
  | refl => exact List.prefix_refl _
  | step _ ih =>
    rw [Nat.succ_eq_add_one, bodyElems_succ]
    exact ih.trans (List.prefix_append _ _)

/-- The NX elements of record `i`, found in the elements of the body behind those of the records before it and those of
its own fixed-width groups. -/
theorem nxElems_of_bodyElems (m : Memory) {i n : Nat} (hi : i < n) (more : List ElemEntry) :
    ((bodyElems m n ++ more).drop (elemsBefore m i + be m (start1B (recordStart m i)) 2 +
        be m (start2B m (recordStart m i)) 2 + be m (start4B m (recordStart m i)) 2 +
        be m (start8B m (recordStart m i)) 2)).take (be m (startNX m (recordStart m i)) 2) =
      nxElemsAt m i (startNX m (recordStart m i)) := by
  obtain ⟨others, hothers⟩ := bodyElems_prefix m (show i + 1 ≤ n from hi)
  rw [← hothers, bodyElems_succ, recordElems]
  simp only [← List.append_assoc]
  rw [List.append_assoc (_ ++ nxElemsAt _ _ _), List.append_assoc _ (nxElemsAt _ _ _),
    List.drop_left' (by simp [Nat.add_assoc]), List.take_left' (nxElemsAt_length m i _)]

/-- Settles O33: a visible entry is that of a record in the body, which is no longer than the body; its NX elements
stand where its counts say. -/
theorem recordLengthFollowsItsCounts : Obligations.RecordLengthFollowsItsCounts := by
  intro s t i e hc hcodec hstep hok hi he
  obtain ⟨u, rfl, -, hfits, hfit⟩ := step_codec8E_ok hc hcodec hstep hok
  rw [codec8EEnd_recCount] at hi
  rw [codec8EEnd_recTable_getElem? hi] at he
  cases he
  have hend : recordEnd u.fb (recordStart u.fb i) ≤ bodyEnd u :=
    Nat.le_trans (recordStart_mono u.fb (show i + 1 ≤ recordCount1 u from hi)) hfit
  have hten := recordStart_ge u.fb i
  have hlen := recordEnd_eq u.fb (recordStart u.fb i)
  have hstop : bodyEnd u ≤ 2043 := by
    have hmax : u.frameLen.toNat ≤ 2048 := hfits.2
    simp only [bodyEnd, Config.trlLen]
    omega
  have hfirst : (BitVec.ofNat 16 (elemsBefore u.fb i)).toNat = elemsBefore u.fb i := by
    have := elemsBefore_le u.fb i (bodyEnd u) (by omega) (by omega)
    rw [BitVec.toNat_ofNat, Nat.mod_eq_of_lt (by omega)]
  simp only [record8EAt, beField_16_toNat, hfirst, codec8EEnd_elemTable, nxElems_of_bodyElems u.fb hi, nxElemsAt_vlen,
    BitVec.toNat_ofNat]
  omega

end Sys2Proof.Machine

/-! SUPPORT. Proofs about the words the host bus carries: frame buffer lanes (R75, R84) and stores (R78) of
spec/20_memory.md, the register words of spec/10_state.md (R22-R45), and the table words of spec/30_encoding.md (R120,
R122). -/

namespace Sys2Proof.Machine

/-! ## Frame buffer reads (R75, R84) -/

theorem readValue_frame (s : State) {k : Nat} (n : Width) (h : k < 2048) :
    readValue s (0x0800 + k) n = s.fb.lanes k n := by
  unfold readValue
  rw [if_neg (by omega), if_neg (by omega), if_pos (by omega), Nat.add_sub_cancel_left]

/-- Fields side by side: the upper one counts in units of the lower one's range. -/
theorem toNat_append_eq {v w : Nat} (x : BitVec v) (y : BitVec w) : (x ++ y).toNat = y.toNat + 2 ^ w * x.toNat := by
  rw [BitVec.toNat_append, ← Nat.shiftLeft_add_eq_or_of_lt y.isLt, Nat.shiftLeft_eq]
  ring

/-- The big-endian field of four bytes is the bytes side by side, the first at the top (R84). -/
theorem be_four_bytes (m : Memory) (k : Nat) :
    BitVec.ofNat 32 (be m k 4) = m.byte k ++ m.byte (k + 1) ++ m.byte (k + 2) ++ m.byte (k + 3) := by
  have hlt := be_lt m k 4
  apply BitVec.eq_of_toNat_eq
  rw [BitVec.toNat_ofNat, Nat.mod_eq_of_lt (show be m k 4 < 2 ^ 32 from hlt)]
  simp only [be, toNat_append_eq, Nat.add_zero]
  omega

/-- Settles O40: a read in the frame buffer's region is its lanes. -/
theorem frameBufferReadsAreLittleEndian : Obligations.FrameBufferReadsAreLittleEndian := by
  intro s k hk
  simp only [readValue_frame s _ hk]
  exact ⟨rfl, fun _ => rfl, fun _ => ⟨rfl, be_four_bytes s.fb k⟩⟩

/-! ## Frame buffer writes (R75, R78) -/

theorem laneBytes_getElem (n : Width) (v : Word) (i : Nat) (h : i < (laneBytes n v).length) :
    (laneBytes n v)[i] = v.extractLsb' (8 * i) 8 := by
  simp [laneBytes]

/-- Settles O41: the write stores the lane bytes of its word one after the other. -/
theorem frameBufferWritesStoreTheirBytes : Obligations.FrameBufferWritesStoreTheirBytes := by
  intro s a n v rest hidle hp hlo hhi haligned
  have hstep : step s = .next { s with
      pending := rest, response := .written, fb := s.fb.writeList (a.toNat - 0x0800) (laneBytes n v) } := by
    rw [step_write hp, memWrite_frame v _ ⟨hlo, hhi⟩ haligned,
      writeFrame_idle (s := { s with pending := rest, response := .written }) hidle]
  refine ⟨_, hstep, rfl, fun i hi => ?inside, fun k hk => ?outside, writeFrame_keeps_wf v ⟨hlo, hhi⟩ haligned⟩
  case inside =>
    have hlen : i < (laneBytes n v).length := by rwa [laneBytes_length]
    rw [byte_writeList_inside _ _ _ _ hlen, laneBytes_getElem]
  case outside => exact byte_writeList_outside _ _ _ _ (by rwa [laneBytes_length])

/-! ## Register words (R22-R45) -/

/-- The number of a bit that is 1 exactly when a condition holds. -/
theorem toNat_decide (p : Prop) [Decidable p] : (decide p).toNat = if p then 1 else 0 := by
  by_cases h : p <;> simp [h]

theorem statusWord_toNat (s : State) :
    (statusWord s).toNat =
      (if s.phase = .busy then 1 else 0) + 2 * s.done.toNat +
        4 * (if s.phase = .idle ∧ s.lastOp = .decode ∧ s.result = .ok then 1 else 0) + 8 * s.badCmd.toNat +
        16 * s.wErr.toNat + 256 * (resultBits s.result).toNat + 4096 * (lastOpBits s.lastOp).toNat := by
  rw [← toNat_decide, ← toNat_decide]
  simp only [statusWord, busy, ackValid, toNat_append_eq, BitVec.toNat_ofBool, BitVec.toNat_ofNat]
  omega

theorem irqEnWord_toNat (s : State) : (irqEnWord s).toNat = s.ieDone.toNat + 2 * s.ieErr.toNat := by
  simp only [irqEnWord, toNat_append_eq, BitVec.toNat_ofBool, BitVec.toNat_ofNat]
  omega

theorem hdrWord_toNat (h : Hdr) :
    (hdrWord h).toNat = h.codec.toNat + 256 * h.n1.toNat + 65536 * h.n2.toNat + 2147483648 * h.valid.toNat := by
  simp only [hdrWord, toNat_append_eq, BitVec.toNat_ofBool, BitVec.toNat_ofNat]
  omega

theorem anomalyWord_toNat (a : Anomaly) :
    (anomalyWord a).toNat =
      a.cnt1Mismatch.toNat + 2 * a.cnt2Mismatch.toNat + 4 * a.cnt12Mismatch.toNat + 8 * a.truncated.toNat +
        16 * a.dflGtBody.toNat + 32 * a.preambleNz.toNat + 64 * a.bodySlack.toNat + 128 * a.crcHiNz.toNat := by
  simp only [anomalyWord, toNat_append_eq, BitVec.toNat_ofBool, BitVec.toNat_ofNat]
  omega

theorem bodyWord_toNat (b : Body) : (bodyWord b).toNat = b.start.toNat + 65536 * b.stop.toNat := by
  simp only [bodyWord, toNat_append_eq, BitVec.toNat_ofNat]
  omega

/-- Slot 255 of the record table holds no entry (R73). -/
theorem readValue_lastSlot (s : State) (n : Width) {a : Nat} (h4 : a % 4 = 0) (hlo : 0x4FC0 ≤ a) (hhi : a < 0x5000) :
    readValue s a n = 0 := by
  obtain ⟨w, rfl⟩ : ∃ w, a = 0x1000 + 64 * 255 + 4 * w := ⟨(a - 0x4FC0) / 4, by omega⟩
  rw [readValue_recWord s n (by decide) (by omega)]
  exact readRecTable_hidden (fun h => absurd h.2.1 (by decide)) w

/-- Settles O45: an offset of the register block reads its register's word, and each word is the sum of its fields. -/
theorem registersReadTheirFields : Obligations.RegistersReadTheirFields := by
  intro s
  refine ⟨rfl, rfl, ?status, irqEnWord_toNat s,
    BitVec.toNat_setWidth_of_le (b := s.frameLen) (by decide), rfl, rfl, hdrWord_toNat _,
    BitVec.toNat_setWidth_of_le (b := s.results.crcCalc) (by decide), rfl, rfl,
    BitVec.toNat_setWidth_of_le (b := s.results.recCount) (by decide),
    BitVec.toNat_setWidth_of_le (b := s.results.elemCount) (by decide), anomalyWord_toNat _,
    BitVec.toNat_setWidth_of_le (b := s.results.errPos) (by decide), bodyWord_toNat _, fun a h4 ha => ?reserved⟩
  case status =>
    refine (statusWord_toNat s).trans
      (congrArg₂ (· + ·) (congrArg₂ (· + ·) rfl (congrArg (256 * ·) ?result)) (congrArg (4096 * ·) ?op))
    case result => cases s.result <;> rfl
    case op => cases s.lastOp <;> rfl
  case reserved =>
    by_cases hslot : 0x4FC0 ≤ a ∧ a < 0x5000
    · exact readValue_lastSlot s _ h4 hslot.1 hslot.2
    · exact readValue_reserved s _ (by omega)

/-! ## Table words (R120, R122) -/

/-- A 64-bit field in two words. -/
theorem toNat_words (x : BitVec 64) :
    (x.extractLsb' 0 32).toNat + 4294967296 * (x.extractLsb' 32 32).toNat = x.toNat := by
  have := x.isLt
  simp only [BitVec.extractLsb'_toNat, Nat.shiftRight_eq_div_pow]
  omega

theorem recWord_five_toNat (e : RecEntry) :
    (recWord e 5).toNat = e.prio.toNat + 256 * e.sats.toNat + 65536 * e.speed.toNat := by
  simp only [recWord, toNat_append_eq]
  omega

theorem recWord_ten_toNat (e : RecEntry) : (recWord e 10).toNat = e.recOff.toNat + 65536 * e.recLen.toNat := by
  simp only [recWord, toNat_append_eq, BitVec.toNat_ofNat]
  omega

theorem elemWord_zero_toNat (e : ElemEntry) :
    (elemWord e 0).toNat = e.ioId.toNat + 65536 * e.kind.toNat + 16777216 * e.recIdx.toNat := by
  simp only [elemWord, toNat_append_eq, BitVec.toNat_ofNat]
  omega

theorem elemWord_one_toNat (e : ElemEntry) : (elemWord e 1).toNat = e.vlen.toNat + 65536 * e.voff.toNat := by
  simp only [elemWord, toNat_append_eq, BitVec.toNat_ofNat]
  omega

/-- Settles O47: each word is its fields side by side. -/
theorem tableWordsHoldTheirFields : Obligations.TableWordsHoldTheirFields :=
  ⟨fun e => ⟨toNat_words e.timestamp, rfl, rfl, toNat_append_eq e.angle e.alt, recWord_five_toNat e,
    toNat_append_eq e.totalIo e.eventIo, toNat_append_eq e.cnt2B e.cnt1B, toNat_append_eq e.cnt8B e.cnt4B,
    toNat_append_eq e.elemFirst e.cntNX, recWord_ten_toNat e,
    BitVec.toNat_setWidth_of_le (b := e.codec) (by decide), fun _ => recWord_past_fields e⟩,
  fun e => ⟨elemWord_zero_toNat e, elemWord_one_toNat e, toNat_words e.val⟩⟩

end Sys2Proof.Machine

/-! SUPPORT. Proofs about what the results of an operation depend on: the frame, its length and the stride alone (R229
of spec/44_frame_demux.md), and not the schedule (R320 of spec/70_reset_and_hazards.md). -/

namespace Sys2Proof.Machine

/-! ## The record walk reads the body alone -/

/-- A piece of the walk whose outcome depends on the bytes before the end of the body alone. -/
def ReadsBody (piece : Memory → Walk → Except Nat Walk) : Prop :=
  ∀ (m m' : Memory) (w : Walk), w.cur ≤ w.bodyEnd → (∀ k, k < w.bodyEnd → m.byte k = m'.byte k) → piece m w = piece m' w

/-- A `take` and then the rest: where it does not fail, it reads bytes of the body. -/
theorem take_bind_congr {m m' : Memory} {n : Nat} {w : Walk} {k k' : Nat × Nat × Walk → Except Nat Walk}
    (hbytes : ∀ k, k < w.bodyEnd → m.byte k = m'.byte k)
    (h : w.cur + n ≤ w.bodyEnd → k (be m w.cur n, w.cur, { w with cur := w.cur + n }) =
      k' (be m w.cur n, w.cur, { w with cur := w.cur + n })) : (take m n w >>= k) = (take m' n w >>= k') := by
  rcases take_cases m n w with ⟨hfit, e⟩ | ⟨hover, e⟩
  · rw [e, take_ok m' n w hfit, ← be_congr m m' w.cur n fun j _ hj => hbytes j (by omega)]
    exact h hfit
  · rw [e, take_error m' n w hover]
    rfl

theorem readsBody_fixedPart : ReadsBody fixedPart := by
  intro m m' w _ h
  unfold fixedPart
  iterate 10 refine take_bind_congr h fun _ => ?_
  rfl

theorem readsBody_fixedElems (width : Nat) (kind : BitVec 3) (n : Nat) :
    ReadsBody fun m w => fixedElems m width kind n w := by
  induction n with
  | zero => exact fun _ _ _ _ _ => rfl
  | succ n ih =>
    intro m m' w _ h
    exact take_bind_congr h fun _ => take_bind_congr h fun hfit => ih m m' _ hfit h

theorem readsBody_nxElems (n : Nat) : ReadsBody fun m w => nxElems m n w := by
  induction n with
  | zero => exact fun _ _ _ _ _ => rfl
  | succ n ih =>
    intro m m' w _ h
    exact take_bind_congr h fun _ => take_bind_congr h fun _ => take_bind_congr h fun hfit => ih m m' _ hfit h

theorem readsBody_fixedGroup (width : Nat) (kind : BitVec 3) (setCount : Half → RecEntry → RecEntry) :
    ReadsBody (fixedGroup width kind setCount) := fun m m' _ _ h =>
  take_bind_congr h fun hfit => readsBody_fixedElems width kind _ m m' _ hfit h

theorem readsBody_nxGroup : ReadsBody nxGroup := fun m m' _ _ h =>
  take_bind_congr h fun hfit => readsBody_nxElems _ m m' _ hfit h

/-- Pieces one after the other: the first keeps the end of the body. -/
theorem ReadsBody.chain {least recs : Nat} {f g : Memory → Walk → Except Nat Walk} (hf : ReadsBody f)
    (hgrows : Grows least recs f) (hg : ReadsBody g) : ReadsBody (chain f g) := by
  intro m m' w hw h
  have hgrew := hgrows m w hw
  unfold Machine.chain
  rw [← hf m m' w hw h]
  cases hfw : f m w with
  | error pos => rfl
  | ok w' =>
    rw [hfw] at hgrew
    obtain ⟨hstop, hcur, -⟩ := hgrew
    exact hg m m' w' hcur fun k hk => h k (by omega)

theorem readsBody_recordPiece : ReadsBody recordPiece := by
  have g0 := grows_fixedPart
  have g1 := g0.chain (grows_fixedGroup 1 (by decide) 0 fun n e => { e with cnt1B := n })
  have g2 := g1.chain (grows_fixedGroup 2 (by decide) 1 fun n e => { e with cnt2B := n })
  have g4 := g2.chain (grows_fixedGroup 4 (by decide) 2 fun n e => { e with cnt4B := n })
  have g8 := g4.chain (grows_fixedGroup 8 (by decide) 3 fun n e => { e with cnt8B := n })
  have gx := g8.chain grows_nxGroup
  exact (((((readsBody_fixedPart.chain g0 (readsBody_fixedGroup 1 _ _)).chain g1 (readsBody_fixedGroup 2 _ _)).chain g2
    (readsBody_fixedGroup 4 _ _)).chain g4 (readsBody_fixedGroup 8 _ _)).chain g8 readsBody_nxGroup).chain gx
    fun _ _ _ _ _ => rfl

theorem readsBody_recordsPiece (n : Nat) : ReadsBody (recordsPiece n) := by
  induction n with
  | zero => exact fun _ _ _ _ _ => rfl
  | succ n ih => exact readsBody_recordPiece.chain grows_recordPiece ih

/-! ## Ends with the same results -/

/-- Ends that leave the tables' gate closed show their registers alone. -/
theorem sameResults_finish {code : ResultCode} {u u' : State} (hgate : code ≠ .ok ∨ u.lastOp ≠ .decode)
    (hop : u'.lastOp = u.lastOp) (hresults : u'.results = u.results) :
    sameResults (finish code u) (finish code u') := by
  have hclosed : ∀ v : State, v.lastOp = u.lastOp → ackValid (finish code v) = false := by
    intro v hv
    refine decide_eq_false fun ⟨_, hdecode, hok⟩ => ?_
    rcases hgate with h | h
    · exact h hok
    · exact h (hv.symm.trans hdecode)
  refine ⟨rfl, hop.symm, rfl, ?_, fun i w => ?_, fun j w => ?_⟩
  · rw [finish_results, finish_results, hresults]
  · rw [readRecTable_of_not_ackValid (hclosed u rfl), readRecTable_of_not_ackValid (hclosed u' hop)]
  · rw [readElemTable_of_not_ackValid (hclosed u rfl), readElemTable_of_not_ackValid (hclosed u' hop)]

theorem commitTable_getElem? {α : Type} {new : List α} {i : Nat} (old : List α) (h : i < new.length) :
    (commitTable new old)[i]? = new[i]? := List.getElem?_append_left h

/-- Commits of the same records and elements show the same words, whatever was stored before. -/
theorem sameResults_succeed {u u' : State} (recs : List RecEntry) (elems : List ElemEntry) (trunc : Bool) (cur : Nat)
    (hop : u'.lastOp = u.lastOp)
    (hresults : (succeed recs elems trunc cur u').results = (succeed recs elems trunc cur u).results) :
    sameResults (succeed recs elems trunc cur u) (succeed recs elems trunc cur u') := by
  have hgate : ackValid (succeed recs elems trunc cur u') = ackValid (succeed recs elems trunc cur u) := by
    simp only [ackValid, succeed_phase, succeed_lastOp, succeed_result, hop]
  refine ⟨rfl, hop.symm, rfl, hresults.symm, fun i w => ?_, fun j w => ?_⟩
  · by_cases h : i < recs.length
    · simp only [readRecTable, hgate, hresults, succeed_recTable, commitTable_getElem? _ h]
    · have hcount : ∀ v : State, ¬ i < (succeed recs elems trunc cur v).results.recCount.toNat := by
        intro v hv
        rw [succeed_results_recCount, BitVec.toNat_ofNat] at hv
        exact h (Nat.lt_of_lt_of_le hv (Nat.mod_le _ _))
      rw [readRecTable_hidden fun hv => hcount u hv.2.2, readRecTable_hidden fun hv => hcount u' hv.2.2]
  · by_cases h : j < elems.length
    · simp only [readElemTable, hgate, hresults, succeed_elemTable, commitTable_getElem? _ h]
    · have hcount : ∀ v : State, ¬ j < (succeed recs elems trunc cur v).results.elemCount.toNat := by
        intro v hv
        rw [succeed_results_elemCount, BitVec.toNat_ofNat] at hv
        exact h (Nat.lt_of_lt_of_le hv (Nat.mod_le _ _))
      rw [readElemTable_hidden fun hv => hcount u hv.2, readElemTable_hidden fun hv => hcount u' hv.2]

/-! ## Operations on the same input -/

/-- Two running operations of one name on one frame: the bytes of the frame are the same, and so are the records that
Codec 8 finds in it. -/
structure SameInput (s s' : State) : Prop where
  busy : s.phase = .busy
  busy' : s'.phase = .busy
  lastOp : s'.lastOp = s.lastOp
  results : s'.results = s.results
  frameLen : s'.frameLen = s.frameLen
  bytes : ∀ k, k < s.frameLen.toNat → s.fb.byte k = s'.fb.byte k
  codec8 : frameFits s → decode8 s = decode8 s'

theorem SameInput.be_eq {s s' : State} (h : SameInput s s') {off n : Nat} (hn : off + n ≤ s.frameLen.toNat) :
    be s.fb off n = be s'.fb off n := be_congr _ _ _ _ fun k _ hk => h.bytes k (by omega)

theorem SameInput.range_eq {s s' : State} (h : SameInput s s') (a : Nat) {b : Nat} (hb : b ≤ s.frameLen.toNat) :
    s.fb.range a b = s'.fb.range a b := range_congr _ _ _ _ fun k _ hk => h.bytes k (by omega)

theorem SameInput.frameCrc_eq {s s' : State} (h : SameInput s s') :
    frameCrc s.fb s.frameLen.toNat = frameCrc s'.fb s'.frameLen.toNat := by
  rw [frameCrc, frameCrc, h.frameLen, h.range_eq 8 (Nat.sub_le _ 4)]

theorem SameInput.frameChecksum_eq {s s' : State} (h : SameInput s s') (hfits : frameFits s) :
    frameChecksum s.fb s.frameLen.toNat = frameChecksum s'.fb s'.frameLen.toNat := by
  have hmin : 15 ≤ s.frameLen.toNat := hfits.1
  rw [frameChecksum, frameChecksum, beField, beField, h.frameLen, h.be_eq (by omega)]

theorem SameInput.checksumVerifies_eq {s s' : State} (h : SameInput s s') (hfits : frameFits s) :
    checksumVerifies s.fb s.frameLen.toNat = checksumVerifies s'.fb s'.frameLen.toNat := by
  rw [checksumVerifies, checksumVerifies, h.frameCrc_eq, h.frameChecksum_eq hfits]

theorem SameInput.recordCount1_eq {s s' : State} (h : SameInput s s') (hfits : frameFits s) :
    recordCount1 s = recordCount1 s' := by
  have hmin : 15 ≤ s.frameLen.toNat := hfits.1
  rw [recordCount1, recordCount1, h.bytes 9 (by omega)]

theorem SameInput.recordCount2_eq {s s' : State} (h : SameInput s s') (hfits : frameFits s) :
    recordCount2 s = recordCount2 s' := by
  have hmin : 15 ≤ s.frameLen.toNat := hfits.1
  rw [recordCount2, recordCount2, h.frameLen, h.bytes _ (by omega)]

theorem SameInput.bodyEnd_eq {s s' : State} (h : SameInput s s') : bodyEnd s = bodyEnd s' := by
  rw [bodyEnd, bodyEnd, h.frameLen]

/-- The header step writes the same registers (R213, R214). -/
theorem sameInput_parseHeader {s s' : State} (h : SameInput s s') (hfits : frameFits s) :
    SameInput (parseHeader s) (parseHeader s') where
  busy := h.busy
  busy' := h.busy'
  lastOp := h.lastOp
  frameLen := h.frameLen
  bytes := h.bytes
  codec8 := h.codec8
  results := by
    have hmin : 15 ≤ s.frameLen.toNat := hfits.1
    have hcrc := h.frameCrc_eq
    have hsum := h.frameChecksum_eq hfits
    rw [h.frameLen] at hcrc hsum
    simp only [parseHeader, headerAnomaly, beField, h.results, h.frameLen, hcrc, hsum,
      h.be_eq (off := 0) (n := 4) (by omega), h.be_eq (off := 4) (n := 4) (by omega), h.bytes 8 (by omega),
      h.bytes 9 (by omega), h.bytes (s.frameLen.toNat - 5) (by omega)]

/-- A commit of the same records writes the same registers (R222-R224). -/
theorem sameResults_succeed_of_sameInput {s s' : State} (h : SameInput s s') (hfits : frameFits s)
    (recs : List RecEntry) (elems : List ElemEntry) (trunc : Bool) (cur : Nat) :
    sameResults (succeed recs elems trunc cur s) (succeed recs elems trunc cur s') := by
  have hmin : 15 ≤ s.frameLen.toNat := hfits.1
  refine sameResults_succeed recs elems trunc cur h.lastOp ?_
  simp only [succeed, finish, completeOperation, finishResults_ok, h.results, h.recordCount1_eq hfits,
    h.recordCount2_eq hfits, h.bodyEnd_eq, h.bytes 9 (by omega)]

theorem dispatches_of_sameInput {s s' : State} (h : SameInput s s') (hop : s.lastOp = .decode) (hfits : frameFits s)
    {codec : Byte} (hcodec : s.fb.byte 8 = codec) : dispatches codec s = true ∧ dispatches codec s' = true := by
  have hmin : 15 ≤ s.frameLen.toNat := hfits.1
  have hmax : s.frameLen.toNat ≤ 2048 := hfits.2
  refine ⟨(dispatches_iff codec s).mpr ⟨h.busy, hop, hmin, hmax, hcodec⟩,
    (dispatches_iff codec s').mpr ⟨h.busy', h.lastOp.trans hop, ?_, ?_, ?_⟩⟩
  · rwa [h.frameLen]
  · rwa [h.frameLen]
  · rw [← h.bytes 8 (by omega), hcodec]

/-- Both answer a next state, with the same results. -/
def sameEnds (o o' : Host.Outcome State Fault Refusal) : Prop :=
  ∃ t t', o = .next t ∧ o' = .next t' ∧ sameResults t t'

theorem sameEnds_finish {s s' : State} (h : SameInput s s') {code : ResultCode} (herr : code ≠ .ok) :
    sameEnds (.next (finish code s)) (.next (finish code s')) :=
  ⟨_, _, rfl, rfl, sameResults_finish (.inl herr) h.lastOp h.results⟩

theorem sameEnds_execCodec8 {s s' : State} (h : SameInput s s') (hop : s.lastOp = .decode) (hfits : frameFits s)
    (hcodec : s.fb.byte 8 = codec8Byte) : sameEnds (execCodec8 s) (execCodec8 s') := by
  obtain ⟨hd, hd'⟩ := dispatches_of_sameInput h hop hfits hcodec
  rw [execCodec8, execCodec8, if_pos hd, if_pos hd', ← h.checksumVerifies_eq hfits, ← h.codec8 hfits]
  split
  · exact ⟨_, _, rfl, rfl, sameResults_succeed_of_sameInput h hfits _ _ _ _⟩
  · exact sameEnds_finish h nofun

theorem sameEnds_execCodec8E {s s' : State} (h : SameInput s s') (hop : s.lastOp = .decode) (hfits : frameFits s)
    (hcodec : s.fb.byte 8 = codec8EByte) : sameEnds (execCodec8E s) (execCodec8E s') := by
  have hmin : 15 ≤ s.frameLen.toNat := hfits.1
  have hten : 10 ≤ bodyEnd s := by
    simp only [bodyEnd, Config.trlLen]
    omega
  have hbody : ∀ k, k < bodyEnd s → s.fb.byte k = s'.fb.byte k := fun k hk =>
    h.bytes k (Nat.lt_of_lt_of_le hk (Nat.sub_le _ _))
  obtain ⟨hd, hd'⟩ := dispatches_of_sameInput h hop hfits hcodec
  rw [execCodec8E_eq s hd, execCodec8E_eq s' hd', ← h.checksumVerifies_eq hfits, ← h.recordCount1_eq hfits,
    ← h.bodyEnd_eq, ← readsBody_recordsPiece _ s.fb s'.fb (firstWalk (bodyEnd s)) hten hbody]
  split
  · split
    · exact ⟨_, _, rfl, rfl, sameResults_succeed_of_sameInput h hfits _ _ _ _⟩
    · exact ⟨_, _, rfl, rfl, sameResults_finish (.inl nofun) h.lastOp (by simp only [h.results])⟩
  · exact sameEnds_finish h nofun

theorem sameEnds_execCodecUnrecognized {s s' : State} (h : SameInput s s') (hop : s.lastOp = .decode)
    (hfits : frameFits s) {codec : Byte} (hcodec : s.fb.byte 8 = codec) :
    sameEnds (execCodecUnrecognized codec s) (execCodecUnrecognized codec s') := by
  obtain ⟨hd, hd'⟩ := dispatches_of_sameInput h hop hfits hcodec
  rw [execCodecUnrecognized, execCodecUnrecognized, if_pos hd, if_pos hd']
  exact sameEnds_finish h nofun

/-- The completions of two DECODEs on the same input (R229). -/
theorem sameEnds_decodeCompletion {s s' : State} (h : SameInput s s') (hop : s.lastOp = .decode) :
    sameEnds (decodeCompletion s) (decodeCompletion s') := by
  rw [decodeCompletion, decodeCompletion, h.frameLen]
  split
  · exact sameEnds_finish h nofun
  split
  · exact sameEnds_finish h nofun
  rename_i hlong hshort
  have hfits : frameFits s := ⟨Nat.le_of_not_lt hshort, Nat.le_of_not_lt hlong⟩
  have hmin : 15 ≤ s.frameLen.toNat := hfits.1
  have hparsed := sameInput_parseHeader h hfits
  rw [← h.bytes 8 (by omega)]
  unfold decodeCodec
  split
  · exact sameEnds_execCodec8 hparsed hop hfits ‹_›
  split
  · exact sameEnds_execCodec8E hparsed hop hfits ‹_›
  · exact sameEnds_execCodecUnrecognized hparsed hop hfits rfl

theorem sameResults_crcCompletion {s s' : State} (h : SameInput s s') (hop : s.lastOp = .crc) :
    sameResults (crcCompletion s) (crcCompletion s') := by
  have hgate : s.lastOp ≠ .decode := by
    rw [hop]
    nofun
  rw [crcCompletion, crcCompletion, h.frameLen]
  split
  · exact sameResults_finish (.inl nofun) h.lastOp h.results
  · exact sameResults_finish (.inr hgate) h.lastOp (by simp only [h.results, h.range_eq 0 (Nat.le_refl _)])

/-- The engine's steps on the same input (R229). -/
theorem sameEnds_engineStep {s s' : State} (h : SameInput s s') (hop : s.lastOp ≠ .none) :
    sameEnds (engineStep s) (engineStep s') := by
  unfold engineStep
  rw [h.busy, h.busy', h.lastOp]
  cases hs : s.lastOp with
  | none => exact absurd hs hop
  | decode => exact sameEnds_decodeCompletion h hs
  | crc => exact ⟨_, _, rfl, rfl, sameResults_crcCompletion h hs⟩

/-- Codec 8 finds the same records in the same frame: each ends within it. -/
theorem decode8_congr {s s' : State} (hstride : 24 ≤ s.c8Stride) (hsame : s.c8Stride = s'.c8Stride)
    (hlen : s.frameLen = s'.frameLen) (hbytes : ∀ k, k < s.frameLen.toNat → s.fb.byte k = s'.fb.byte k)
    (hfits : frameFits s) : decode8 s = decode8 s' := by
  have hmin : 15 ≤ s.frameLen.toNat := hfits.1
  have hn1 : recordCount1 s = recordCount1 s' := by rw [recordCount1, recordCount1, hbytes 9 (by omega)]
  have hcount : codec8Count s = codec8Count s' := by rw [codec8Count, codec8Count, hn1, hlen, hsame]
  have hrecords : codec8Records s = codec8Records s' := by
    rw [codec8Records, codec8Records, ← hcount, ← hsame]
    refine List.map_congr_left fun i hi => ?_
    have hend := record_end_le_of_lt_codec8Count (List.mem_range.mp hi)
    exact codec8RecordIgnoresItsLastBytes _ _ _ _ fun k _ hk => hbytes k (by omega)
  rw [decode8_eq (by omega), decode8_eq (by omega), hrecords, hcount, hn1, hsame]

/-- Settles O22: the completions of two operations on the same input. -/
theorem resultsDependOnTheFrameAlone : Obligations.ResultsDependOnTheFrameAlone := by
  intro s s' op hop hc hc' hstride hz hz' hlen hsame hbytes
  rw [step_completing hc, step_completing hc']
  obtain ⟨hb, hs, -⟩ := hc
  obtain ⟨hb', hs', -⟩ := hc'
  have hinput : SameInput { s with pending := s.pending.tail } { s' with pending := s'.pending.tail } :=
    { busy := hb, busy' := hb', lastOp := hs'.trans hs.symm, results := hz'.trans hz.symm, frameLen := hlen.symm,
      bytes := hbytes
      codec8 :=
        decode8_congr (s := { s with pending := _ }) (s' := { s' with pending := _ }) hstride hsame hlen hbytes }
  exact sameEnds_engineStep hinput (hs.trans_ne hop)

/-! ## Any schedule (R320) -/

/-- What an event that lets the operation run leaves as it was. -/
structure RunsOn (s t : State) : Prop where
  busy : t.phase = .busy
  lastOp : t.lastOp = s.lastOp
  results : t.results = s.results
  frameLen : t.frameLen = s.frameLen
  fb : t.fb = s.fb
  c8Stride : t.c8Stride = s.c8Stride
  pending : t.pending = s.pending

theorem Effect.runs_on {s t : State} {e : Event} (h : Effect s e t) (hlets : letsRun e = true) (hb : s.phase = .busy) :
    RunsOn s t := by
  cases h with
  | read | dropped | ignored | refused | status | irqEn => exact ⟨hb, rfl, rfl, rfl, rfl, rfl, rfl⟩
  | storeFrame _ _ _ hidle | setFrameLen _ hidle | start _ _ hidle => exact (idle_not_busy hidle hb).elim
  | clear v hcmd => simp [letsRun, hcmd] at hlets
  | complete | reset | powerOn => exact nomatch hlets

/-- An admitted access has a next state. -/
theorem runEvent_of_letsRun {e : Event} (s : State) (h : letsRun e = true) : ∃ t, runEvent e s = .next t := by
  cases e with
  | read a n => exact ⟨_, memRead_admitted s h⟩
  | write a n v =>
    obtain ⟨t, e, -⟩ := effect_of_write s v (Bool.and_eq_true_iff.mp h).1
    exact ⟨t, e⟩
  | complete | reset | powerOn => exact nomatch h

/-- A run takes a step first. -/
theorem core_run_succ {s t : State} (n : Nat) (h : step s = .next t) : core.run (n + 1) s = core.run n t := by
  have hstep : core.step s = .next t := h
  simp only [Host.Core.run, hstep]

/-- Accesses that let the operation run leave its input as it was. -/
theorem runsOn_of_accesses {between last : List Event} {s : State} (hb : s.phase = .busy)
    (hlets : ∀ e ∈ between, letsRun e = true) (hp : s.pending = between ++ last) :
    ∃ u, core.run (between.length + 1) s = core.run 1 u ∧ RunsOn { s with pending := last } u := by
  induction between generalizing s with
  | nil => exact ⟨s, rfl, hb, rfl, rfl, rfl, rfl, rfl, hp⟩
  | cons e between ih =>
    obtain ⟨hfirst, hothers⟩ := List.forall_mem_cons.mp hlets
    obtain ⟨t, ht⟩ := runEvent_of_letsRun { s with pending := between ++ last } hfirst
    have hruns := (effect_of_runEvent ht).runs_on hfirst hb
    obtain ⟨u, hrun, hu⟩ := ih hruns.busy hothers hruns.pending
    refine ⟨u, (core_run_succ _ ((step_event hp).trans ht)).trans hrun, hu.busy, ?_, ?_, ?_, ?_, ?_, hu.pending⟩
    · exact hu.lastOp.trans hruns.lastOp
    · exact hu.results.trans hruns.results
    · exact hu.frameLen.trans hruns.frameLen
    · exact hu.fb.trans hruns.fb
    · exact hu.c8Stride.trans hruns.c8Stride

theorem RunsOn.sameInput {s u : State} (h : RunsOn s u) (hb : s.phase = .busy) : SameInput u s where
  busy := h.busy
  busy' := hb
  lastOp := h.lastOp.symm
  results := h.results.symm
  frameLen := by rw [h.frameLen]
  bytes _ _ := by rw [h.fb]
  codec8 _ := by simp only [decode8, bodyEnd, recordCount1, h.fb, h.c8Stride, h.frameLen]

/-- Settles O58: after the accesses the completion finds the input that it would have found at once. -/
theorem resultsDoNotDependOnTheSchedule : Obligations.ResultsDoNotDependOnTheSchedule := by
  intro s op between last hop hb hs _ hlets hlast hp
  obtain ⟨u, hrun, hu⟩ := runsOn_of_accesses hb hlets hp
  have hc : completing op { s with pending := last } := ⟨hb, hs, hlast⟩
  have hc' : completing op u := ⟨hu.busy, hu.lastOp.trans hs, by rwa [hu.pending]⟩
  have hinput : SameInput { u with pending := u.pending.tail } { s with pending := last.tail } := by
    have h := hu.sameInput hb
    exact { busy := h.busy, busy' := h.busy', lastOp := h.lastOp, results := h.results, frameLen := h.frameLen,
            bytes := h.bytes, codec8 := h.codec8 }
  obtain ⟨t, t', ht, ht', hsame⟩ := sameEnds_engineStep hinput (hc'.2.1.trans_ne hop)
  obtain ⟨t'', ht'', hend⟩ := engineStep_endsOperation (s := { u with pending := u.pending.tail }) hc'.1
    (hc'.2.1.trans_ne hop)
  cases ht.symm.trans ht''
  obtain ⟨-, hdone, -, -, -, -, -, -, -, -, -, hpending, -⟩ := hend
  refine ⟨t, t', ?_, ?_, hsame, hdone, ?_⟩
  · rw [hrun]
    exact core_run_succ 0 ((step_completing hc').trans ht)
  · rw [step_completing hc]
    exact ht'
  · rw [hpending, hu.pending]

end Sys2Proof.Machine

/-! SUPPORT. Proofs about host programs of spec/30_encoding.md section 6 (R134), LOADFRAME and WAITDONE, and about
several FDRDs on one platform (R277 of spec/60_exceptions.md). -/

namespace Sys2Proof.Machine

/-! ## LOADFRAME (R134) -/

/-- The byte writes of LOADFRAME from frame offset `off` on; `loadFrame_eq` ties them to the model's program. -/
def byteWrites (off : Nat) : List Byte → List Event
  | [] => []
  | b :: bs => .write (BitVec.ofNat 16 (0x0800 + off)) .w8 (b.setWidth 32) :: byteWrites (off + 1) bs

theorem byteWrites_eq (off : Nat) (bytes : List Byte) :
    byteWrites off bytes = (List.range bytes.length).map fun k =>
      .write (BitVec.ofNat 16 (0x0800 + (off + k))) .w8 ((bytes.getD k 0).setWidth 32) := by
  induction bytes generalizing off with
  | nil => rfl
  | cons b bs ih =>
    rw [byteWrites, ih, List.length_cons, List.range_succ_eq_map, List.map_cons, List.map_map]
    simp only [Function.comp_def, Nat.succ_eq_add_one, List.getD_cons_zero, List.getD_cons_succ, Nat.add_zero,
      Nat.add_assoc, Nat.add_comm 1]

theorem loadFrame_eq (bytes : List Byte) :
    loadFrame bytes = byteWrites 0 bytes ++ [.write 0x0010 .w32 (BitVec.ofNat 32 bytes.length)] := by
  simp only [byteWrites_eq, Nat.zero_add, loadFrame]

/-- The low lane of a byte that is written alone. -/
theorem laneBytes_byte (b : Byte) : laneBytes .w8 (b.setWidth 32) = [b] := by
  have hlow : (b.setWidth 32).extractLsb' 0 8 = b := by
    rw [BitVec.extractLsb'_setWidth_of_le (by decide), BitVec.extractLsb'_eq_self]
  exact congrArg (· :: []) hlow

/-- One byte write of LOADFRAME while idle. -/
theorem runEvent_byteWrite {s : State} (hidle : s.phase = .idle) {off : Nat} (hoff : off < 2048) (b : Byte) :
    runEvent (.write (BitVec.ofNat 16 (0x0800 + off)) .w8 (b.setWidth 32)) s =
      .next { s with response := .written, fb := s.fb.write off b } := by
  have ha : (BitVec.ofNat 16 (0x0800 + off)).toNat = 0x0800 + off := by
    rw [BitVec.toNat_ofNat, Nat.mod_eq_of_lt (by omega)]
  rw [runEvent, memWrite_frame _ _ (by omega) (Nat.mod_one _),
    writeFrame_idle (s := { s with response := .written }) hidle, laneBytes_byte, ha, Nat.add_sub_cancel_left]
  rfl

/-- The byte writes store their bytes one after the other. -/
theorem run_byteWrites {s : State} (hidle : s.phase = .idle) {off : Nat} {bytes : List Byte} {last : List Event}
    (hlen : off + bytes.length ≤ 2048) (hp : s.pending = byteWrites off bytes ++ last) :
    ∃ r, core.run (bytes.length + 1) s =
      core.run 1 { s with pending := last, response := r, fb := s.fb.writeList off bytes } := by
  induction bytes generalizing s off with
  | nil =>
    refine ⟨s.response, congrArg _ ?_⟩
    rw [← show s.pending = last from hp]
    rfl
  | cons b bs ih =>
    rw [List.length_cons] at hlen
    have hstep := (step_event hp).trans
      (runEvent_byteWrite (s := { s with pending := byteWrites (off + 1) bs ++ last }) hidle (by omega) b)
    obtain ⟨r, hrun⟩ := ih (s := { s with
      pending := byteWrites (off + 1) bs ++ last, response := .written, fb := s.fb.write off b }) hidle
      (off := off + 1) (by omega) rfl
    exact ⟨r, (core_run_succ _ hstep).trans hrun⟩

/-- LOADFRAME from an idle state: the bytes from offset 0 on, and their number in `FRAME_LEN`. -/
theorem run_loadFrame {s : State} (hidle : s.phase = .idle) {bytes : List Byte} {rest : List Event}
    (hlen : bytes.length ≤ 2048) (hp : s.pending = loadFrame bytes ++ rest) :
    core.run (bytes.length + 1) s = .next { s with
      pending := rest, response := .written, frameLen := BitVec.ofNat 12 bytes.length
      fb := s.fb.writeList 0 bytes } := by
  rw [loadFrame_eq, List.append_assoc] at hp
  obtain ⟨r, hrun⟩ := run_byteWrites hidle (by omega) hp
  have hlow : (BitVec.ofNat 32 bytes.length).extractLsb' 0 12 = BitVec.ofNat 12 bytes.length := by
    rw [extractLsb'_zero_eq_ofNat, BitVec.toNat_ofNat, Nat.mod_eq_of_lt (by omega)]
  rw [hrun]
  refine core_run_succ 0 ((step_write rfl).trans ?_)
  rw [memWrite_frameLen, writeFrameLen_idle (by exact hidle), hlow]
  rfl

/-! ## WAITDONE (R134) -/

/-- One read of `STATUS`. -/
theorem runEvent_readStatus (s : State) :
    runEvent (.read 0x0008 .w32) s = .next { s with response := .data (readValue s 0x0008 .w32) } :=
  memRead_admitted s rfl

/-- The word that a read of `STATUS` answered tells DONE. -/
theorem readDone_status (s : State) :
    readDone { s with response := .data (readValue s 0x0008 .w32) } = s.done := statusWord_done s

/-- A turn of WAITDONE with nothing before it: over when DONE is 1, else once more. -/
theorem runHost_waitDone (s : State) (sched : List (List Event)) (ops : List HostOp) :
    runHost ([] :: sched) (waitDone ++ ops) s =
      runHost sched (if s.done = true then ops else waitDone ++ ops)
        { s with response := .data (readValue s 0x0008 .w32) } := by
  rw [waitDone, List.singleton_append, runHost_cons, List.nil_append, HostOp.event, runEvents_cons,
    runEvent_readStatus, andThen_next, runEvents_nil, andThen_next, HostOp.over, readDone_status]

/-- The results a completion shows do not depend on the bus's last answer, nor does what `STATUS` then reads. -/
theorem engineStep_response {s : State} (hb : s.phase = .busy) (hop : s.lastOp ≠ .none) (r : Response) :
    ∃ t t', engineStep s = .next t ∧ engineStep { s with response := r } = .next t' ∧ sameResults t t' ∧
      t.done = true ∧ t'.done = true ∧ statusWord t = statusWord t' := by
  have hinput : SameInput s { s with response := r } :=
    { busy := hb, busy' := hb, lastOp := rfl, results := rfl, frameLen := rfl, bytes := fun _ _ => rfl,
      codec8 := fun _ => rfl }
  obtain ⟨t, t', ht, ht', hsame⟩ := sameEnds_engineStep hinput hop
  obtain ⟨u, hu, hend⟩ := engineStep_endsOperation hb hop
  obtain ⟨u', hu', hend'⟩ := engineStep_endsOperation (s := { s with response := r }) hb hop
  cases hu.symm.trans ht
  cases hu'.symm.trans ht'
  obtain ⟨hidle, hdone, hlast, -, hbad, hw, -⟩ := hend
  obtain ⟨hidle', hdone', hlast', -, hbad', hw', -⟩ := hend'
  have hresult : t.result = t'.result := by
    obtain ⟨-, -, h, -⟩ := hsame
    exact h
  refine ⟨t, t', ht, ht', hsame, hdone, hdone', ?_⟩
  simp only [statusWord, busy, ackValid, hidle, hidle', hdone, hdone', hlast, hlast', hbad, hbad', hw, hw', hresult]

/-- Turns of WAITDONE while DONE is 0 change the bus's answer alone. -/
theorem runHost_waitDone_waits {s : State} (hdone : s.done = false) (reads : Nat) (sched : List (List Event)) :
    ∃ r, runHost (List.replicate reads [] ++ sched) waitDone s = runHost sched waitDone { s with response := r } := by
  induction reads generalizing s with
  | zero => exact ⟨s.response, rfl⟩
  | succ reads ih =>
    have hturn := runHost_waitDone s (List.replicate reads [] ++ sched) []
    rw [if_neg (by rw [hdone]; decide), List.append_nil] at hturn
    obtain ⟨r, hr⟩ := ih (s := { s with response := .data (readValue s 0x0008 .w32) }) hdone
    exact ⟨r, hturn.trans hr⟩

/-- The turn of WAITDONE before which the completion comes is its last. -/
theorem runHost_waitDone_completes {s t : State} (h : engineStep s = .next t) (hdone : t.done = true) :
    runHost [[.complete]] waitDone s = .next ([], { t with response := .data (readValue t 0x0008 .w32) }) := by
  rw [waitDone, runHost_cons, List.singleton_append, runEvents_cons, runEvent, h, andThen_next, HostOp.event,
    runEvents_cons, runEvent_readStatus, andThen_next, runEvents_nil, andThen_next, HostOp.over, readDone_status,
    if_pos hdone, runHost_done]

/-- Settles O59: LOADFRAME by its byte writes, WAITDONE turn by turn up to the one that follows the completion. -/
theorem loadFrameLoadsAndWaitDoneWaits : Obligations.LoadFrameLoadsAndWaitDoneWaits := by
  refine ⟨fun s bytes rest hidle hlen hp => ?load, runHost_waitDone, fun s op reads hop hb hs hdone => ?wait⟩
  case load =>
    refine ⟨_, run_loadFrame hidle hlen hp, ?_, fun k hk => ?_, fun k hk => ?_, rfl⟩
    · simp only [BitVec.toNat_ofNat]
      omega
    · have := byte_writeList_inside bytes s.fb 0 k hk
      rwa [Nat.zero_add] at this
    · exact byte_writeList_outside bytes s.fb 0 k (.inr (by omega))
  case wait =>
    have hnamed : s.lastOp ≠ .none := hs.trans_ne hop
    obtain ⟨r, hwaits⟩ := runHost_waitDone_waits hdone reads [[.complete]]
    obtain ⟨t, u, ht, hu, hsame, htdone, hudone, hstatus⟩ := engineStep_response hb hnamed r
    refine ⟨t, _, ht, htdone, hwaits.trans (runHost_waitDone_completes hu hudone), hsame, ?_⟩
    exact congrArg Response.data hstatus.symm

/-! ## Several FDRDs on one platform (R277) -/

/-- Everything a step of the platform can do: nothing where no FDRD has the number, else that one's own step. -/
theorem platformStep_cases {k : Nat} {ps qs : List Placed} (h : platformStep k ps = .next qs) :
    (ps[k]? = none ∧ qs = ps) ∨
    ∃ p s, ps[k]? = some p ∧ step p.state = .next s ∧ qs = ps.set k { p with state := s } := by
  unfold platformStep at h
  split at h
  · cases h
    exact .inl ⟨‹_›, rfl⟩
  · rename_i p hp
    split at h
    · cases h
      exact .inr ⟨p, _, hp, ‹_›, rfl⟩
    · cases h
    · cases h

/-- Settles O60: the platform's step sets one entry of its list. -/
theorem instancesShareNothing : Obligations.InstancesShareNothing := by
  intro k ps qs h
  rcases platformStep_cases h with ⟨hnone, rfl⟩ | ⟨p, s, hp, hstep, rfl⟩
  · exact ⟨rfl, fun _ _ => rfl, fun p hp => nomatch hnone.symm.trans hp⟩
  · refine ⟨List.length_set, fun j hj => List.getElem?_set_ne (Ne.symm hj), fun q hq => ?_⟩
    cases hp.symm.trans hq
    have hk : k < ps.length := (List.getElem?_eq_some_iff.mp hp).1
    exact ⟨s, hstep, List.getElem?_set_self hk⟩

end Sys2Proof.Machine
